-- ==== Sys2Proof/Word.lean ====
section
/-! DEFINITION. The word types of ME433-I2CM and nothing else: widths are those of `10_state.md` and
`30_encoding.md` R90. -/
namespace Sys2Proof

/-- One byte of the bus, of a register map or of a shift register (R60: every datum is 8 bits). -/
abbrev Byte := BitVec 8

/-- A command word: `CMD_W` = 24 bits (R7, R90). -/
abbrev Command := BitVec 24

/-- A signed 16-bit sample or channel, as its two's complement pattern (R9, R31). -/
abbrev Sample := BitVec 16

/-- A signed 32-bit filter register, as its two's complement pattern (R35, R37). -/
abbrev Acc := BitVec 32

/-- The level of a wire or of an acknowledge bit: `true` is level 1 (high, released, not acknowledged),
`false` is level 0 (low, driven, acknowledged) (R9, R102). -/
abbrev Level := Bool

/-- A word of the host read space: `HOST_DW` = 32 bits (R7, R72). -/
abbrev HostWord := BitVec 32

/-- A word address of the host read space: `HOST_AW` = 12 bits (R7, R72). -/
abbrev HostAddr := BitVec 12

end Sys2Proof
end

