-- ==== Sys2Proof/Syntax.lean ====
section
/-! DEFINITION. The twelve commands (`30_encoding.md` R91, R92), the command errors (`60_exceptions.md` R221) and the
pseudo-commands (R104). -/
namespace Sys2Proof

/-- A command with its operands as the fields of R92 hold them, one constructor per row of the opcode table. -/
inductive Instr where
  /-- `start()` (R124) -/
  | start
  /-- `restart()` (R125) -/
  | restart
  /-- `send(byte)` (R126) -/
  | send (b : Byte)
  /-- `recv() -> byte` (R127) -/
  | recv
  /-- `ack(v)`: level 0 acknowledges, level 1 does not (R128) -/
  | mack (v : Level)
  /-- `stop()` (R129) -/
  | stop
  /-- `configure()` (R161) -/
  | config
  /-- `burst_read(r, c)` (R165) -/
  | bread (r c : Byte)
  /-- discard the capture state (R195) -/
  | fclear
  /-- clear the filter and capture state and arm (R196) -/
  | freset
  /-- push one raw sample (R197) -/
  | fpush (x : Sample)
  /-- push channel `k` of the last sample (R198) -/
  | fpushc (k : BitVec 3)
  deriving DecidableEq, Repr

/-- The command errors (R221). -/
inductive CmdError where
  /-- reserved opcode (R94) -/
  | illegalOp
  /-- a must-be-zero bit is one, or an operand is out of range (R96) -/
  | illegalArg
  /-- the command is not legal in the current `PHASE` (R121) -/
  | proto
  deriving DecidableEq, Repr

/-- The pseudo-commands of R104; the block never sees one. -/
inductive Pseudo where
  | ack
  | nack
  | sample
  | spush
  | wrreg (r v : Byte)
  | rdreg (r : Byte)
  | whoami
  deriving DecidableEq, Repr

end Sys2Proof
end

