-- ==== Sys2Proof/WellFormed.lean ====
section
/-! DEFINITION. The range checks a command's operands must pass (`30_encoding.md` R92, R96): BREAD's count is 1 to 14,
FPUSHC's channel is 0 to 6; every other operand takes every value of its field. -/
namespace Sys2Proof

/-- BREAD's count is 1 to `RXBUF_LEN` = 14 (R166). -/
def countLegal (c : Byte) : Bool := decide (1 ≤ c.toNat) && decide (c.toNat ≤ 14)

/-- FPUSHC's channel is 0 to 6 (R198). -/
def channelLegal (k : BitVec 3) : Bool := decide (k.toNat ≤ 6)

/-- The operands are legal (R92). -/
def Instr.wellFormed : Instr → Bool
  | .start => true
  | .restart => true
  | .send _ => true
  | .recv => true
  | .mack _ => true
  | .stop => true
  | .config => true
  | .bread _ c => countLegal c
  | .fclear => true
  | .freset => true
  | .fpush _ => true
  | .fpushc k => channelLegal k

end Sys2Proof
end

