-- ==== Sys2Proof/Decode.lean ====
section
/-! DEFINITION. The decoder (`30_encoding.md` R90 to R98), total on 24-bit words and rejecting by the name of the
command error; the encoder; the match and mask table R95; the mnemonics R91. -/
namespace Sys2Proof

/-- What a word decodes to (R93): a command with legal operands, or the error that names why it is none. -/
inductive Decoded where
  | command (i : Instr)
  | illegal (e : CmdError)
  deriving DecidableEq, Repr

/-- The opcode, bits 23:20 (R90). -/
def opField (w : Command) : BitVec 4 := w.extractLsb' 20 4
/-- The reserved field `z`, bits 19:16 (R90). -/
def zField (w : Command) : BitVec 4 := w.extractLsb' 16 4
/-- `arg`, bits 15:0 (R90). -/
def argField (w : Command) : BitVec 16 := w.extractLsb' 0 16
/-- `arg[15:8]` (R92). -/
def argHi (w : Command) : Byte := w.extractLsb' 8 8
/-- `arg[7:0]` (R92). -/
def argLo (w : Command) : Byte := w.extractLsb' 0 8

/-- The command, if every field that must be zero is (`zeros`) and its operands are in range; else `ILLEGAL_ARG`
(R93 step 2). -/
def checkedCommand (zeros : Bool) (i : Instr) : Decoded :=
  if zeros && i.wellFormed then .command i else .illegal .illegalArg

/-- The checks of R93 in their order: the opcode, then the fields R92 requires to be zero and the operand ranges. -/
def decode (w : Command) : Decoded :=
  let z := zField w == 0#4
  let arg0 := z && argField w == 0#16
  let hi0 := z && argHi w == 0#8
  match (opField w).toNat with
  | 0x1 => checkedCommand arg0 .start
  | 0x2 => checkedCommand arg0 .restart
  | 0x3 => checkedCommand hi0 (.send (argLo w))
  | 0x4 => checkedCommand arg0 .recv
  | 0x5 => checkedCommand (hi0 && (argLo w).extractLsb' 1 7 == 0#7) (.mack ((argLo w).getLsbD 0))
  | 0x6 => checkedCommand arg0 .stop
  | 0x8 => checkedCommand arg0 .config
  | 0x9 => checkedCommand z (.bread (argHi w) (argLo w))
  | 0xB => checkedCommand arg0 .fclear
  | 0xC => checkedCommand arg0 .freset
  | 0xD => checkedCommand z (.fpush (argField w))
  | 0xE => checkedCommand (hi0 && (argLo w).extractLsb' 3 5 == 0#5) (.fpushc ((argLo w).extractLsb' 0 3))
  | _ => .illegal .illegalOp

/-- A command word from its opcode and its argument, `z` = 0000 (R90). -/
def commandWord (op : BitVec 4) (arg : BitVec 16) : Command := op ++ 0#4 ++ arg

/-- The word of a command: its opcode with the operands placed as R92 says (R99). -/
def encode : Instr → Command
  | .start => commandWord 0x1#4 0#16
  | .restart => commandWord 0x2#4 0#16
  | .send b => commandWord 0x3#4 (0#8 ++ b)
  | .recv => commandWord 0x4#4 0#16
  | .mack v => commandWord 0x5#4 (0#15 ++ BitVec.ofBool v)
  | .stop => commandWord 0x6#4 0#16
  | .config => commandWord 0x8#4 0#16
  | .bread r c => commandWord 0x9#4 (r ++ c)
  | .fclear => commandWord 0xB#4 0#16
  | .freset => commandWord 0xC#4 0#16
  | .fpush x => commandWord 0xD#4 x
  | .fpushc k => commandWord 0xE#4 (0#13 ++ k)

/-- The table's `match` column (R95). -/
def Instr.matchWord : Instr → Command
  | .start => 0x100000#24
  | .restart => 0x200000#24
  | .send _ => 0x300000#24
  | .recv => 0x400000#24
  | .mack _ => 0x500000#24
  | .stop => 0x600000#24
  | .config => 0x800000#24
  | .bread _ _ => 0x900000#24
  | .fclear => 0xB00000#24
  | .freset => 0xC00000#24
  | .fpush _ => 0xD00000#24
  | .fpushc _ => 0xE00000#24

/-- The table's `mask` column (R95): bits that are 0 carry operands. -/
def Instr.maskWord : Instr → Command
  | .start => 0xFFFFFF#24
  | .restart => 0xFFFFFF#24
  | .send _ => 0xFFFF00#24
  | .recv => 0xFFFFFF#24
  | .mack _ => 0xFFFFFE#24
  | .stop => 0xFFFFFF#24
  | .config => 0xFFFFFF#24
  | .bread _ _ => 0xFF0000#24
  | .fclear => 0xFFFFFF#24
  | .freset => 0xFFFFFF#24
  | .fpush _ => 0xFF0000#24
  | .fpushc _ => 0xFFFFF8#24

/-- The mnemonic (R91). -/
def Instr.mnemonic : Instr → String
  | .start => "START"
  | .restart => "RESTART"
  | .send _ => "SEND"
  | .recv => "RECV"
  | .mack _ => "MACK"
  | .stop => "STOP"
  | .config => "CONFIG"
  | .bread _ _ => "BREAD"
  | .fclear => "FCLEAR"
  | .freset => "FRESET"
  | .fpush _ => "FPUSH"
  | .fpushc _ => "FPUSHC"

/-- The fixed expansions of R104. -/
def Pseudo.expand : Pseudo → List Instr
  | .ack => [.mack false]
  | .nack => [.mack true]
  | .sample => [.bread 0x20#8 14#8]
  | .spush => [.bread 0x20#8 14#8, .fpushc 6#3]
  | .wrreg r v => [.start, .send 0xD6#8, .send r, .send v, .stop]
  | .rdreg r => [.bread r 1#8]
  | .whoami => [.bread 0x0F#8 1#8]

/-- The 24-bit command word whose bits the opcode table numbers as `w`, when it has at most 24 of them; a command is
one word (R98), so no bit above 23 exists. -/
def tableWord (nbits w : Nat) : Option Command :=
  if w % 2 ^ nbits < 2 ^ 24 then some (BitVec.ofNat 24 (w % 2 ^ nbits)) else none

/-- The instruction the decoder reads from a table word of `nbits` bits. -/
def decodeTableWord (nbits w : Nat) : Option Instr :=
  match tableWord nbits w with
  | none => none
  | some c =>
    match decode c with
    | .command i => some i
    | .illegal _ => none

end Sys2Proof
end

