-- ==== Sys2Proof/Bus.lean ====
section
/-! DEFINITION. The names the bus is spoken of with: the events of the ghost trace (`00_scope.md` R14) and the
points at which a primitive waits for a wire (`60_exceptions.md` R228). -/
namespace Sys2Proof

/-- A bus event of the ghost trace `TRACE` (R14). -/
inductive BusEvent where
  /-- a START condition -/
  | start
  /-- a repeated START condition -/
  | restart
  /-- byte `b` sent, acknowledge level `a` sampled -/
  | tx (b : Byte) (a : Level)
  /-- byte `b` received -/
  | rx (b : Byte)
  /-- the master drove acknowledge level `v` -/
  | mack (v : Level)
  /-- a STOP condition -/
  | stop
  deriving DecidableEq, Repr

/-- The `wait_until` points of the wire level, one constructor per line of R130 to R135 that waits; a bit's wait
carries `BITCNT` (R228: START 1, RESTART 1, SEND 9, RECV 8, MACK 1, STOP 2). -/
inductive WaitPoint where
  /-- R130: both wires high before the START condition -/
  | start
  /-- R131: both wires high before the repeated START condition -/
  | restart
  /-- R132: the clock high for data bit number `bitcnt` of a sent byte -/
  | sendBit (bitcnt : BitVec 4)
  /-- R132: the clock high for the slave's acknowledge bit -/
  | sendAck
  /-- R133: the clock high for data bit number `bitcnt` of a received byte -/
  | recvBit (bitcnt : BitVec 4)
  /-- R134: the clock high for the master's acknowledge bit -/
  | mack
  /-- R135: the clock high before the STOP condition -/
  | stopClock
  /-- R135: the data wire seen released after the STOP condition -/
  | stopData
  deriving DecidableEq, Repr

/-- One wire-level micro-operation as an observer of the block sees it: the two drivers after a driver write, a
wait that has proceeded, or a sampling of the data wire (R130 to R135; the notation of V13 and V14). -/
inductive WireOp where
  /-- `SCL_O` and `SDA_O` after a write to one of them -/
  | drive (scl sda : Level)
  /-- a `wait_until` that proceeded -/
  | waited
  /-- the block sampled this level of `sda_i` -/
  | sample (sda : Level)
  deriving DecidableEq, Repr

end Sys2Proof
end

