-- ==== Sys2Proof/Config.lean ====
section
/-! DEFINITION. The parameters of ME433-I2CM: the constants the spec fixes (`00_scope.md` R6, R7), the parameters it
leaves OPEN (R8) as constants without a body, and the free values of the model (R13, R75), also without a body, so
that no proof can see what they are. -/
namespace Sys2Proof.Config

/-! ## Constants the spec fixes (R6, R7) -/

/-- `IMU_ADDR` (R6, R62). -/
def imuAddr : BitVec 7 := 0b1101011#7
/-- `EXP_ADDR`: the GPIO expander of another lab; no command uses it (R6, R62). -/
def expAddr : BitVec 7 := 0b0100101#7
/-- `REG_ID` (R6, R63). -/
def regId : Byte := 0x0F#8
/-- `REG_CTRL_XL` (R6, R63). -/
def regCtrlXl : Byte := 0x10#8
/-- `REG_CTRL_G` (R6, R63). -/
def regCtrlG : Byte := 0x11#8
/-- `REG_CTRL_IF` (R6, R63). -/
def regCtrlIf : Byte := 0x12#8
/-- `REG_DATA` (R6, R63, R64). -/
def regData : Byte := 0x20#8
/-- `SAMPLE_LEN`: bytes in one IMU sample (R6). -/
def sampleLen : Nat := 14
/-- `NCH`: channels in one IMU sample (R6). -/
def nch : Nat := 7
/-- `WIN_LEN`: slots of the capture window (R6). -/
def winLen : Nat := 100
/-- `RXBUF_LEN`: capacity of the receive buffer and largest count of BREAD (R7, R166). -/
def rxbufLen : Nat := 14
/-- `FIR_WQ[0..5]` (R7, R191). -/
def firWq : Fin 6 → Int := ![264, 1405, 3331, 3331, 1405, 264]
/-- `FIR_DEN` (R7, R191). -/
def firDen : Int := 10000
/-- `IIR_QP` (R7, R191). -/
def iirQp : Int := 9
/-- `IIR_QC` (R7, R191). -/
def iirQc : Int := 1
/-- `IIR_DEN` (R7, R191). -/
def iirDen : Int := 10
/-- `FB_CHANNEL`: accelerometer Z, the channel the reference use filters (R6). -/
def fbChannel : BitVec 3 := 6#3
/-- `CMD_TRIGGER` = `'r'`: the host turns this byte into FRESET, the block never sees it (R6, R262). -/
def cmdTrigger : Byte := 0x72#8

/-! ## Parameters the spec leaves open (R8): DESIGN CHOICE, log 8 and log 21, safe: nothing constrains them -/

/-- `CFG_XL_VAL`, the byte CONFIG writes to `REG_CTRL_XL` (R8, R161). -/
opaque cfgXlVal : Byte
/-- `CFG_G_VAL`, the byte CONFIG writes to `REG_CTRL_G` (R8, R161). -/
opaque cfgGVal : Byte
/-- `CFG_IF_VAL`, the byte CONFIG writes to `REG_CTRL_IF` (R8, R161). -/
opaque cfgIfVal : Byte
/-- `T_BIT`, the least time between two wire micro-operations; no rule depends on it (R8, R270). -/
opaque tBit : Nat

/-! ## Free values (R13, R75): DESIGN CHOICE, log 3 and log 7, safe: nothing constrains them -/

/-- `Env.ack` (R13): the acknowledge level after a sent byte, by the free choice, the trace so far and the byte
being sent (log 4). -/
opaque envAck : Nat → List BusEvent → Byte → Level
/-- `Env.rx` (R13): the byte a RECV clocks in, by the free choice and the trace so far. -/
opaque envRx : Nat → List BusEvent → Byte
/-- `Env.release` (R13): whether the awaited wire condition ever becomes true, by the free choice, the trace so far
and the wait's point. -/
opaque envRelease : Nat → List BusEvent → WaitPoint → Bool
/-- What a host read answers while `BUSY` = 1, but for bit 0 of `STATUS` (R75). -/
opaque busyRead : Nat → HostAddr → HostWord

end Sys2Proof.Config
end

