-- ==== Sys2Proof/Machine/State.lean ====
section
/-! DEFINITION. The state of ME433-I2CM as plain data: the registers of `10_state.md` in the five groups of R20, then
the ghost trace (R14), the bus environment (R13, R68), the host (R12, R105) and the model's own fields; the reasons a
step can stop; the machine right after reset (R42). -/
namespace Sys2Proof.Machine

/-! ## Enumerations (R106) -/

/-- `PHASE`: where the open bus transaction stands (R26). Its values 6 and 7 are never taken (log 13). -/
inductive Phase where
  | idle
  | addr
  | wr
  | rd
  | rdack
  | rdend
  deriving DecidableEq, Repr

/-- `SEQ`: the state of the composite-command state machine (R169, R170). Its values 14 and 15 are never taken
(log 13). -/
inductive SeqState where
  | idle
  | start
  | addrW
  | reg
  | restart
  | addrR
  | recv
  | mack
  | stop
  | cstart
  | caddr
  | creg
  | cval
  | cstop
  deriving DecidableEq, Repr

/-! ## The registers of the block (R20) -/

/-- Bus driver registers (R22, R24, R26 to R29). -/
structure Driver where
  /-- `BUSY` (R22) -/
  busy : Bool
  /-- `SCL_O`: `true` releases the clock wire (R24) -/
  sclO : Level
  /-- `SDA_O`: `true` releases the data wire (R24) -/
  sdaO : Level
  /-- `PHASE` (R26) -/
  phase : Phase
  /-- `ACKSTAT` (R27) -/
  ackstat : Level
  /-- `NAKCNT` (R28) -/
  nakcnt : BitVec 8
  /-- `RDATA` (R29) -/
  rdata : Byte
  deriving DecidableEq, Repr

/-- The receive buffer (R30). -/
structure RxBuffer where
  /-- `RXBUF[0..13]` -/
  rxbuf : Vector Byte 14
  /-- `RXCNT` -/
  rxcnt : BitVec 4
  deriving DecidableEq, Repr

/-- The error registers (R32): `ERRCODE`, `none` for 0, and `ERRCMD`. -/
structure ErrorRegs where
  errcode : Option CmdError
  errcmd : Command
  deriving DecidableEq, Repr

/-- The sequencer's hidden registers (R33). -/
structure Sequencer where
  seq : SeqState
  regptr : Byte
  remain : BitVec 4
  cfgidx : BitVec 2
  shreg : Byte
  bitcnt : BitVec 4
  deriving DecidableEq, Repr

/-- The filter bank (R34 to R38). -/
structure FilterBank where
  armed : Bool
  ovalid : Bool
  idx : BitVec 7
  sum : Acc
  hist1 : Sample
  hist2 : Sample
  hist3 : Sample
  hist4 : Sample
  hist5 : Sample
  xout : Sample
  mafn : Acc
  mafd : BitVec 7
  firq : Acc
  iirq : Acc
  capRaw : Vector Sample 100
  capMafn : Vector Acc 100
  capFirq : Vector Acc 100
  capIirq : Vector Acc 100
  deriving DecidableEq, Repr

/-! ## The bus environment (R13) -/

/-- A register-pointer slave's byte memory: (address, byte) pairs, addresses strictly rising, no byte equal to the
0x00 that an unlisted address reads as (log 24). -/
abbrev Memory := List Host.Cell

/-- Where a register-pointer slave stands in a transaction: `sel` of the reference slave (R68). -/
inductive SlaveSel where
  | none
  | addr
  | wPtr
  | wData
  | r
  deriving DecidableEq, Repr

/-- The reference slave of R68: `A7`, `M`, `P`, `sel`. -/
structure RefSlave where
  a7 : BitVec 7
  mem : Memory
  ptr : Byte
  sel : SlaveSel
  deriving DecidableEq, Repr

/-- Whether awaited wire conditions become true: the polling policy the source asks to be injectable (R123, log 6). -/
inductive WaitPolicy where
  /-- unconstrained: every wait is answered by the oracle `Config.envRelease` -/
  | free
  /-- every wait proceeds at once -/
  | prompt
  /-- the next `n` waits proceed, the one after them never does -/
  | stall (n : Nat)
  deriving DecidableEq, Repr

/-- What answers acknowledge bits and reads on the wires (R13). -/
inductive BusPeer where
  /-- the next answers, in order; past their end the oracles `Config.envAck` and `Config.envRx` answer -/
  | script (acks : List Level) (bytes : List Byte)
  /-- the reference slave (R68) -/
  | reference (d : RefSlave)
  deriving DecidableEq, Repr

/-- The bus environment (R12, R13): every slave and the pull-ups. -/
structure Env where
  waits : WaitPolicy
  peer : BusPeer
  deriving DecidableEq, Repr

/-- The environment of which nothing is known (R13). -/
def Env.unknown : Env := ⟨.free, .script [] []⟩

/-! ## The host (R12, R105) -/

/-- One action of the host at the block's input ports (R21). R21 leaves to the host whether it holds or drops a word
presented while `cmd_ready` = 0; this host always holds it (DESIGN CHOICE, log 26). -/
inductive HostAction where
  /-- present this word on `cmd_word` with `cmd_valid` = 1 until it is accepted (held, log 26) -/
  | command (w : Command)
  /-- assert `rst` -/
  | reset
  deriving DecidableEq, Repr

/-- The host: the actions it has still to take, in order, and its command pointer `cp` (R23, R105; log 1, log 10). -/
structure HostSide where
  todo : List HostAction
  cp : Nat
  deriving DecidableEq, Repr

/-! ## The state -/

/-- The whole machine: the block's registers (`drv`, `rx`, `err`, `sq`, `fb`), the ghost `TRACE` (R14), the
environment, the host, and the model's own `wave` (log 16) and `choice` (log 3). -/
structure State where
  drv : Driver
  rx : RxBuffer
  err : ErrorRegs
  sq : Sequencer
  fb : FilterBank
  trace : List BusEvent
  env : Env
  host : HostSide
  wave : List WireOp
  choice : Nat
  deriving DecidableEq, Repr

/-! ## Reset values (R42) -/

def Driver.reset : Driver :=
  { busy := false, sclO := true, sdaO := true, phase := .idle, ackstat := false, nakcnt := 0, rdata := 0 }

def RxBuffer.reset : RxBuffer := { rxbuf := Vector.replicate 14 0, rxcnt := 0 }

def ErrorRegs.reset : ErrorRegs := { errcode := none, errcmd := 0 }

def Sequencer.reset : Sequencer :=
  { seq := .idle, regptr := 0, remain := 0, cfgidx := 0, shreg := 0, bitcnt := 0 }

/-- The filter bank after reset, all zero (R42); also what FCLEAR leaves (R195). -/
def FilterBank.reset : FilterBank :=
  { armed := false, ovalid := false, idx := 0, sum := 0, hist1 := 0, hist2 := 0, hist3 := 0, hist4 := 0, hist5 := 0,
    xout := 0, mafn := 0, mafd := 0, firq := 0, iirq := 0,
    capRaw := Vector.replicate 100 0, capMafn := Vector.replicate 100 0,
    capFirq := Vector.replicate 100 0, capIirq := Vector.replicate 100 0 }

/-- The machine right after reset: every register of the block as R42 says, no event on the bus yet, an environment of
which nothing is known, a host with nothing to present (log 1, log 3). -/
def State.reset : State :=
  { drv := .reset, rx := .reset, err := .reset, sq := .reset, fb := .reset,
    trace := [], env := .unknown, host := { todo := [], cp := 0 }, wave := [], choice := 0 }

/-! ## Why a step can stop -/

/-- A step of this machine never ends in a fault: a command error is recorded in a next state (R224), a
not-acknowledged byte is no error (R222), and a bus that never responds leaves `BUSY` = 1 in a next state (R228). So
there is no fault to name. -/
inductive Fault where
  deriving DecidableEq, Repr

/-- A refusal stands for an instruction without a meaning in the model. -/
inductive Refusal where
  /-- raised by `exec`'s arm of an instruction that has no meaning yet; safe: nothing is claimed of it -/
  | notModelled (mnemonic : String)
  deriving DecidableEq, Repr

end Sys2Proof.Machine
end

