-- ==== Sys2Proof/Machine/Env.lean ====
section
/-! DEFINITION. The bus environment's answers: a slave's byte memory, the reference slave of `20_memory.md` R68, and the
oracle `Env` of `00_scope.md` R13. -/
namespace Sys2Proof.Machine

/-! ## A slave's byte memory (log 24) -/

/-- What an unlisted address reads as: "`M` all zero unless stated" (`95_test_vectors.md`, conventions). -/
def Memory.unlisted : Byte := 0#8

/-- The byte at an address. -/
def Memory.read : Memory → Nat → Byte
  | [], _ => Memory.unlisted
  | (k, v) :: m, a => if k = a then v else Memory.read m a

/-- Put an entry in front, unless its byte is what an unlisted address reads as. -/
def Memory.cons (a : Nat) (v : Byte) (m : Memory) : Memory :=
  if v = Memory.unlisted then m else (a, v) :: m

/-- Write one byte, keeping the canonical form. -/
def Memory.write : Memory → Nat → Byte → Memory
  | [], a, v => Memory.cons a v []
  | (k, b) :: m, a, v =>
    if a < k then Memory.cons a v ((k, b) :: m)
    else if a = k then Memory.cons a v m
    else (k, b) :: Memory.write m a v

/-- The addresses rise strictly from `lo` on and stay below 256, and no byte is the unlisted one. -/
def Memory.wfFrom : Nat → Memory → Bool
  | _, [] => true
  | lo, (k, v) :: m => decide (lo ≤ k) && decide (k < 256) && (v != Memory.unlisted) && Memory.wfFrom (k + 1) m

/-- The canonical form of a slave's memory. -/
def Memory.wf (m : Memory) : Bool := Memory.wfFrom 0 m

/-! ## The reference slave (R68) -/

/-- The acknowledge level for a sent byte. -/
def RefSlave.ackLevel (d : RefSlave) (b : Byte) : Level :=
  match d.sel with
  | .addr => !(b.extractLsb' 1 7 == d.a7)
  | .wPtr => false
  | .wData => false
  | .none => true
  | .r => true

/-- The slave after a byte was sent. -/
def RefSlave.onTx (d : RefSlave) (b : Byte) : RefSlave :=
  match d.sel with
  | .addr =>
    if b.extractLsb' 1 7 = d.a7 then { d with sel := if b.getLsbD 0 then .r else .wPtr }
    else { d with sel := .none }
  | .wPtr => { d with ptr := b, sel := .wData }
  | .wData => { d with mem := Memory.write d.mem d.ptr.toNat b, ptr := d.ptr + 1 }
  | .none => d
  | .r => d

/-- The byte the slave answers a read with. -/
def RefSlave.rxByte (d : RefSlave) : Byte :=
  match d.sel with
  | .r => Memory.read d.mem d.ptr.toNat
  | .none => 0xFF#8
  | .addr => 0xFF#8
  | .wPtr => 0xFF#8
  | .wData => 0xFF#8

/-- The slave after a byte was read. -/
def RefSlave.onRx (d : RefSlave) : RefSlave :=
  match d.sel with
  | .r => { d with ptr := d.ptr + 1 }
  | .none => d
  | .addr => d
  | .wPtr => d
  | .wData => d

/-- The slave after one bus event (R68). -/
def RefSlave.observe (d : RefSlave) : BusEvent → RefSlave
  | .start => { d with sel := .addr }
  | .restart => { d with sel := .addr }
  | .tx b _ => d.onTx b
  | .rx _ => d.onRx
  | .mack _ => d
  | .stop => { d with sel := .none }

/-! ## The oracle (R13) -/

/-- The peer after one bus event: a scripted answer that was used is gone. -/
def BusPeer.observe (p : BusPeer) (e : BusEvent) : BusPeer :=
  match p with
  | .reference d => .reference (d.observe e)
  | .script acks bytes =>
    match e with
    | .tx _ _ => .script acks.tail bytes
    | .rx _ => .script acks bytes.tail
    | .start => p
    | .restart => p
    | .mack _ => p
    | .stop => p

/-- The environment after one bus event. -/
def Env.observe (v : Env) (e : BusEvent) : Env := { v with peer := v.peer.observe e }

/-- The policy after a wait has proceeded. -/
def WaitPolicy.passed : WaitPolicy → WaitPolicy
  | .free => .free
  | .prompt => .prompt
  | .stall n => .stall (n - 1)

/-- The environment after a wait has proceeded. -/
def Env.passed (v : Env) : Env := { v with waits := v.waits.passed }

/-- `Env.ack`: the acknowledge level after byte `b` (R13; log 4). -/
def State.ackLevel (s : State) (b : Byte) : Level :=
  match s.env.peer with
  | .reference d => d.ackLevel b
  | .script [] _ => Config.envAck s.choice s.trace b
  | .script (a :: _) _ => a

/-- `Env.rx`: the byte a RECV clocks in (R13). -/
def State.rxByte (s : State) : Byte :=
  match s.env.peer with
  | .reference d => d.rxByte
  | .script _ [] => Config.envRx s.choice s.trace
  | .script _ (d :: _) => d

/-- `Env.release`: whether the awaited condition ever becomes true (R13). -/
def State.releases (s : State) (p : WaitPoint) : Bool :=
  match s.env.waits with
  | .free => Config.envRelease s.choice s.trace p
  | .prompt => true
  | .stall n => n != 0

/-- The reference environment of `95_test_vectors.md`: the reference slave, under which every wait proceeds (R68). -/
def Env.withSlave (d : RefSlave) : Env := ⟨.prompt, .reference d⟩

end Sys2Proof.Machine
end

