-- ==== Sys2Proof/Machine/Flags.lean ====
section
/-! DEFINITION. The flags (`10_state.md` R41) and the packed status registers (R39, R40): how a sampled acknowledge level
is recorded, and what `STATUS` and `FBSTAT` read. -/
namespace Sys2Proof.Machine

/-- `NAKCNT` after one more sampled level: it counts levels 1 and is held at 255 (R28). -/
def nakCount (n : BitVec 8) (a : Level) : BitVec 8 :=
  if a && decide (n.toNat < 255) then n + 1 else n

/-- Record the acknowledge level of a sent byte in `ACKSTAT` and `NAKCNT` (R27, R28, R126). -/
def recordAck (a : Level) (s : State) : State :=
  { s with drv := { s.drv with ackstat := a, nakcnt := nakCount s.drv.nakcnt a } }

/-- `ERRF`: an error has been recorded, and the block is in the error state (R39, R226). -/
def State.errf (s : State) : Bool := s.err.errcode.isSome

/-- The code `ERRCODE` holds for a recorded error, 0 for none (R32, R106, R221). -/
def errcodeBits : Option CmdError → BitVec 3
  | none => 0
  | some .illegalOp => 1
  | some .illegalArg => 2
  | some .proto => 3

/-- The encoding of `PHASE` (R26, R106). -/
def Phase.bits : Phase → BitVec 3
  | .idle => 0
  | .addr => 1
  | .wr => 2
  | .rd => 3
  | .rdack => 4
  | .rdend => 5

/-- The encoding of `SEQ` (R170). -/
def SeqState.bits : SeqState → BitVec 4
  | .idle => 0
  | .start => 1
  | .addrW => 2
  | .reg => 3
  | .restart => 4
  | .addrR => 5
  | .recv => 6
  | .mack => 7
  | .stop => 8
  | .cstart => 9
  | .caddr => 10
  | .creg => 11
  | .cval => 12
  | .cstop => 13

/-- `STATUS` (R39): bit 0 `BUSY`, 3:1 `PHASE`, 4 `ACKSTAT`, 5 `ERRF`, 6 `SCL_O`, 7 `SDA_O`, 31:8 zero. -/
def State.status (s : State) : HostWord :=
  0#24 ++ BitVec.ofBool s.drv.sdaO ++ BitVec.ofBool s.drv.sclO ++ BitVec.ofBool s.errf
    ++ BitVec.ofBool s.drv.ackstat ++ s.drv.phase.bits ++ BitVec.ofBool s.drv.busy

/-- `FBSTAT` (R40): bit 0 `ARMED`, 1 `OVALID`, 8:2 `IDX`, 31:9 zero. -/
def State.fbstat (s : State) : HostWord :=
  0#23 ++ s.fb.idx ++ BitVec.ofBool s.fb.ovalid ++ BitVec.ofBool s.fb.armed

end Sys2Proof.Machine
end

