-- ==== Sys2Proof/Machine/Operands.lean ====
section
/-! DEFINITION. The operand forms: the address byte (`30_encoding.md` R100), the channel view of the receive buffer
(`10_state.md` R31), the bytes CONFIG sends (`41_imu_protocol.md` R169). -/
namespace Sys2Proof.Machine

/-- The address byte `A7 ++ rw`: bits 7:1 the device address, bit 0 the direction, 1 to read (R61, R100). -/
def addressByte (a7 : BitVec 7) (rw : Level) : Byte := a7 ++ BitVec.ofBool rw

/-- The IMU's write address byte, 0xD6 (R62). -/
def imuWrite : Byte := addressByte Config.imuAddr false

/-- The IMU's read address byte, 0xD7 (R62). -/
def imuRead : Byte := addressByte Config.imuAddr true

/-- `RXBUF[i]`; there is no byte past index 13. -/
def RxBuffer.byte (x : RxBuffer) (i : Nat) : Byte := x.rxbuf[i]?.getD 0#8

/-- `CH[k]` = `RXBUF[2k+1] ++ RXBUF[2k]`, low byte first (R31, R65). -/
def RxBuffer.channel (x : RxBuffer) (k : Nat) : Sample := x.byte (2 * k + 1) ++ x.byte (2 * k)

/-- `CFGVAL[CFGIDX]` (R169): the value CONFIG writes in its write number `i`. -/
def cfgVal (i : BitVec 2) : Byte :=
  if i = 0 then Config.cfgXlVal else if i = 1 then Config.cfgGVal else Config.cfgIfVal

/-- The exact integer a 32-bit register is set to, narrowed to the register (R9, R202; log 15). -/
def toAcc (v : Int) : Acc := BitVec.ofInt 32 v

end Sys2Proof.Machine
end

