-- ==== Sys2Proof/Machine/Ops.lean ====
section
/-! DEFINITION. The named operations every meaning is written over: wire drivers, the wait (`40_i2c_primitives.md` R123),
the ghost trace (R14), a command's beginning and end (R22), the error entry (`60_exceptions.md` R224) with the order of
its checks (R223), and beside it reset, the one way back (R227, `70_reset_and_hazards.md` R250). -/
namespace Sys2Proof.Machine

/-! ## A run on the wires: it goes on, or a wait never proceeds (R15, R228) -/

/-- How a piece of a bus command ends: `done` with a value, or `hang` in the state of the wait that never proceeds. -/
inductive Run (α : Type) where
  | done (a : α) (s : State)
  | hang (s : State)

/-- Go on after a piece that is done. -/
def Run.bind {α β : Type} (r : Run α) (f : α → State → Run β) : Run β :=
  match r with
  | .done a s => f a s
  | .hang s => .hang s

/-! ## Wires (R24, R25) -/

/-- `SCL_O <- v`. -/
def setScl (v : Level) (s : State) : State :=
  { s with drv := { s.drv with sclO := v }, wave := s.wave ++ [.drive v s.drv.sdaO] }

/-- `SDA_O <- v`. -/
def setSda (v : Level) (s : State) : State :=
  { s with drv := { s.drv with sdaO := v }, wave := s.wave ++ [.drive s.drv.sclO v] }

/-- The wait's condition names the clock wire (all but the last line of R135). -/
def waitNeedsClock : WaitPoint → Bool
  | .stopData => false
  | .start | .restart | .sendBit _ | .sendAck | .recvBit _ | .mack | .stopClock => true

/-- The wait's condition names the data wire (R130, R131 and the last line of R135). -/
def waitNeedsData : WaitPoint → Bool
  | .start | .restart | .stopData => true
  | .sendBit _ | .sendAck | .recvBit _ | .mack | .stopClock => false

/-- The block itself does not pull low a wire that the wait needs high: a wire the block drives low never reads high
(R25). -/
def State.wiresReleased (s : State) (p : WaitPoint) : Bool :=
  (!waitNeedsClock p || s.drv.sclO) && (!waitNeedsData p || s.drv.sdaO)

/-- The state after a wait that proceeded. -/
def State.passWait (s : State) : State :=
  { s with env := s.env.passed, wave := s.wave ++ [.waited], choice := s.choice + 1 }

/-- `wait_until` at a point of the wire level: it proceeds if the awaited condition ever becomes true, and has no bound
(R123, R13; DEDUCED: never against the block's own driver, log 18). -/
def waitUntil (p : WaitPoint) (s : State) : Run Unit :=
  if s.wiresReleased p && s.releases p then .done () s.passWait else .hang s

/-- The level the block samples on the data wire while a slave drives `slave` (R25: wired AND). -/
def State.sdaIn (s : State) (slave : Level) : Level := s.drv.sdaO && slave

/-- The sampling itself, as the wave records it. -/
def State.sampled (s : State) (slave : Level) : State := { s with wave := s.wave ++ [.sample (s.sdaIn slave)] }

/-! ## The trace (R14) -/

/-- `emit(e)`: the event goes to the trace, and the slaves have seen it. -/
def emit (e : BusEvent) (s : State) : State :=
  { s with trace := s.trace ++ [e], env := s.env.observe e, choice := s.choice + 1 }

/-- `PHASE <- p`. -/
def setPhase (p : Phase) (s : State) : State := { s with drv := { s.drv with phase := p } }

/-! ## A command from acceptance to completion (R22, R120) -/

/-- A bus command is accepted: `BUSY <- 1`; its record of the wires starts afresh. -/
def beginBus (s : State) : State := { s with drv := { s.drv with busy := true }, wave := [] }

/-- A bus command is complete: `BUSY <- 0`, and the sequencer's registers are back at their idle values (R23; log 9). -/
def endBus (s : State) : State :=
  { s with drv := { s.drv with busy := false }, sq := { s.sq with shreg := 0 } }

/-- A bus command run from its acceptance: complete, or stuck with `BUSY` = 1 where it waits (R15, R228;
DESIGN CHOICE: whole commands are steps, log 2). -/
def busCommand (r : State → Run Unit) (s : State) : State :=
  match r (beginBus s) with
  | .done _ t => endBus t
  | .hang t => t

/-! ## Errors (R220 to R227) -/

/-- `raise CmdError(code)` for the word `w`: the code and the word are recorded, nothing else changes (R224); in the
error state the word is ignored and the first error stays (R226). -/
def raiseCmdError (e : CmdError) (w : Command) (s : State) : State :=
  if s.errf then s else { s with err := { errcode := some e, errcmd := w } }

/-- Which command is legal in which `PHASE` (R121 for the primitives, R161 and R165 for CONFIG and BREAD, R205 for the
filter commands). -/
def Instr.legalIn : Instr → Phase → Bool
  | .start, p => p == .idle
  | .restart, p => p == .wr || p == .rdend
  | .send _, p => p == .addr || p == .wr
  | .recv, p => p == .rd
  | .mack _, p => p == .rdack
  | .stop, p => p == .wr || p == .rdend
  | .config, p => p == .idle
  | .bread _ _, p => p == .idle
  | .fclear, _ => true
  | .freset, _ => true
  | .fpush _, _ => true
  | .fpushc _, _ => true

/-- A presented command, its checks in the order of R223: while `BUSY` = 1 it is not accepted (R21); in the error state
it is ignored; then the operands (log 17), then the phase (log 20); only a command that passes them all has its effect. -/
def command (i : Instr) (effect : State → State) (s : State) : Host.Outcome State Fault Refusal :=
  .next (
    if s.drv.busy then s
    else if s.errf then s
    else if !i.wellFormed then raiseCmdError .illegalArg (encode i) s
    else if !Instr.legalIn i s.drv.phase then raiseCmdError .proto (encode i) s
    else effect s)

/-! ## Reset (R250, R252, R253) -/

/-- What a reset leaves of the environment: the slaves keep their state (R253), but after a reset in the middle of a
command nothing is known of them (R252; log 11). -/
def State.envAfterReset (s : State) : Env := if s.drv.busy then Env.unknown else s.env

/-- The input `rst`: every register of the block at its reset value; the trace stays (R250). -/
def resetBlock (s : State) : State :=
  { s with drv := .reset, rx := .reset, err := .reset, sq := .reset, fb := .reset,
           env := s.envAfterReset, wave := [], choice := s.choice + 1 }

/-! ## The host's side (R21, R23, R105) -/

/-- The host is done with its next action. -/
def State.popAction (s : State) : State := { s with host := { s.host with todo := s.host.todo.tail } }

/-- The host's command pointer after a command that has left `BUSY` = 0 (R105; log 10). -/
def State.advanceCp (s : State) : State :=
  if s.drv.busy then s else { s with host := { s.host with cp := s.host.cp + 1 } }

/-- The host's command pointer where a reset ends the wait for `BUSY` = 0 of the command `s` was stuck in (R105;
log 10). -/
def State.cpAfterReset (s : State) : Nat := if s.drv.busy then s.host.cp + 1 else s.host.cp

/-- `rst` at this step (R21). -/
def State.rst (s : State) : Bool :=
  match s.host.todo with
  | .reset :: _ => true
  | .command _ :: _ => false
  | [] => false

/-- `cmd_valid` and `cmd_word` at this step: the word presented, if any (R21). -/
def State.cmdWord (s : State) : Option Command :=
  match s.host.todo with
  | .command w :: _ => some w
  | .reset :: _ => none
  | [] => none

/-- `cmd_ready` = `NOT BUSY` (R21). -/
def State.cmdReady (s : State) : Bool := !s.drv.busy

/-- `scl_o` and `sda_o` (R21, R24). -/
def State.sclOut (s : State) : Level := s.drv.sclO
def State.sdaOut (s : State) : Level := s.drv.sdaO

/-- One evaluation of a wait that does not proceed, or of a word that is not accepted: nothing moves but the draw of the
free values (R123, R21; log 5). The host's list is as before: the word is held, not dropped (DESIGN CHOICE, log 26). -/
def State.spin (s : State) : State := { s with choice := s.choice + 1 }

end Sys2Proof.Machine
end

