-- ==== Sys2Proof/Machine/Filter.lean ====
section
/-! DEFINITION. The filter bank (`42_filter_bank.md`): the three formulas over exact integers (R192 to R194), the push
(R197), the four commands, and the rationals the stored integers stand for (R191, R203). -/
namespace Sys2Proof.Machine

/-- The moving average's numerator after sample `x`: the running sum (R192). -/
def FilterBank.nextSum (f : FilterBank) (x : Sample) : Int := f.sum.toInt + x.toInt

/-- 10000 times the FIR output for sample `x` (R193). -/
def FilterBank.nextFirq (f : FilterBank) (x : Sample) : Int :=
  Config.firWq 0 * x.toInt + Config.firWq 1 * f.hist1.toInt + Config.firWq 2 * f.hist2.toInt
    + Config.firWq 3 * f.hist3.toInt + Config.firWq 4 * f.hist4.toInt + Config.firWq 5 * f.hist5.toInt

/-- 10 times the IIR output for sample `x`: it uses the previous raw sample, not the previous output (R194). -/
def FilterBank.nextIirq (f : FilterBank) (x : Sample) : Int :=
  Config.iirQp * f.hist1.toInt + Config.iirQc * x.toInt

/-- An armed push of `x` (R197); every right-hand side reads the bank before the push. -/
def FilterBank.armedPush (x : Sample) (f : FilterBank) : FilterBank :=
  let n := f.idx.toNat
  let s := toAcc (f.nextSum x)
  let q := toAcc (f.nextFirq x)
  let i := toAcc (f.nextIirq x)
  let last := n == Config.winLen - 1
  { armed := !last
    ovalid := true
    idx := if last then 0 else f.idx + 1
    sum := s
    hist1 := x
    hist2 := f.hist1
    hist3 := f.hist2
    hist4 := f.hist3
    hist5 := f.hist4
    xout := x
    mafn := s
    mafd := f.idx + 1
    firq := q
    iirq := i
    capRaw := f.capRaw.setIfInBounds n x
    capMafn := f.capMafn.setIfInBounds n s
    capFirq := f.capFirq.setIfInBounds n q
    capIirq := f.capIirq.setIfInBounds n i }

/-- A push: nothing while disarmed (R199). -/
def FilterBank.push (x : Sample) (f : FilterBank) : FilterBank := if f.armed then f.armedPush x else f

/-- A filter command acts on the bank alone and completes in the step that accepts it (R205). -/
def filterCommand (g : FilterBank → FilterBank) (s : State) : State := { s with fb := g s.fb }

/-- FCLEAR: everything zero, disarmed (R195). -/
def execFclear (s : State) : Host.Outcome State Fault Refusal :=
  command .fclear (filterCommand fun _ => FilterBank.reset) s

/-- FRESET, the warm-up reset: everything zero, armed (R196). -/
def execFreset (s : State) : Host.Outcome State Fault Refusal :=
  command .freset (filterCommand fun _ => { FilterBank.reset with armed := true }) s

/-- FPUSH x (R197). -/
def execFpush (x : Sample) (s : State) : Host.Outcome State Fault Refusal :=
  command (.fpush x) (filterCommand fun f => f.push x) s

/-- FPUSHC k: FPUSH of `CH[k]` as it reads in the step the command is accepted (R198). -/
def execFpushc (k : BitVec 3) (s : State) : Host.Outcome State Fault Refusal :=
  command (.fpushc k) (filterCommand fun f => f.push (s.rx.channel k.toNat)) s

/-! ## The values the integers stand for (R191, R203) -/

/-- `MAF` = `MAFN / MAFD`; defined when `MAFD` > 0 (R37, R203). -/
def FilterBank.maf (f : FilterBank) : ℚ := (f.mafn.toInt : ℚ) / (f.mafd.toNat : ℚ)

/-- `FIR` = `FIRQ / 10000` (R203). -/
def FilterBank.fir (f : FilterBank) : ℚ := (f.firq.toInt : ℚ) / (Config.firDen : ℚ)

/-- `IIR` = `IIRQ / 10` (R203). -/
def FilterBank.iir (f : FilterBank) : ℚ := (f.iirq.toInt : ℚ) / (Config.iirDen : ℚ)

end Sys2Proof.Machine
end

