-- ==== Sys2Proof/Machine/Wire.lean ====
section
/-! DEFINITION. The wire level of the six primitives (`40_i2c_primitives.md` R130 to R135), one micro-operation of the
rules' pseudocode after the other (DEDUCED: the rules themselves stand on general knowledge, log 19; one master, log 22). -/
namespace Sys2Proof.Machine

/-- `SHREG <- SHREG[6:0] ++ v` (R132, R133). -/
def shiftIn (v : Level) (s : State) : State := { s with sq := { s.sq with shreg := s.sq.shreg.shiftConcat v } }

/-- `BITCNT <- BITCNT + 1`. -/
def countBit (s : State) : State := { s with sq := { s.sq with bitcnt := s.sq.bitcnt + 1 } }

/-- `SHREG <- b ; BITCNT <- 0`. -/
def loadShift (b : Byte) (s : State) : State := { s with sq := { s.sq with shreg := b, bitcnt := 0 } }

/-- `BITCNT <- 0`. -/
def clearBitcnt (s : State) : State := { s with sq := { s.sq with bitcnt := 0 } }

/-- `wire_start()` (R130). -/
def wireStart (s : State) : Run Unit :=
  (waitUntil .start s).bind fun _ s => .done () (setScl false (setSda false s))

/-- `wire_restart()` (R131). -/
def wireRestart (s : State) : Run Unit :=
  (waitUntil .restart (setScl true (setSda true s))).bind fun _ s => .done () (setScl false (setSda false s))

/-- One data bit of `wire_send`: `SHREG[7]` on the data wire through one clock pulse, then the shift (R132). -/
def wireSendBit (s : State) : Run Unit :=
  (waitUntil (.sendBit s.sq.bitcnt) (setScl true (setSda (s.sq.shreg.getLsbD 7) s))).bind fun _ s =>
    .done () (countBit (shiftIn false (setScl false s)))

/-- `n` data bits of `wire_send`. -/
def wireSendBits : Nat → State → Run Unit
  | 0, s => .done () s
  | n + 1, s => (wireSendBit s).bind fun _ s => wireSendBits n s

/-- The ninth clock pulse of `wire_send`: the data wire released, the acknowledge sampled while a slave drives `slave`
(R132). -/
def wireSendAck (slave : Level) (s : State) : Run Level :=
  (waitUntil .sendAck (setScl true (setSda true s))).bind fun _ s =>
    .done (s.sdaIn slave) (clearBitcnt (setScl false (s.sampled slave)))

/-- `wire_send(b)`, which returns the sampled acknowledge level (R132). -/
def wireSend (b : Byte) (slave : Level) (s : State) : Run Level :=
  (wireSendBits 8 (loadShift b s)).bind fun _ s => wireSendAck slave s

/-- One bit of `wire_recv`, sampled while the slave drives bit 7 - `BITCNT` of `d` (R133, R101). -/
def wireRecvBit (d : Byte) (s : State) : Run Unit :=
  let slave := d.getMsbD s.sq.bitcnt.toNat
  (waitUntil (.recvBit s.sq.bitcnt) (setScl true s)).bind fun _ s =>
    .done () (countBit (setScl false (shiftIn (s.sdaIn slave) (s.sampled slave))))

/-- `n` bits of `wire_recv`. -/
def wireRecvBits (d : Byte) : Nat → State → Run Unit
  | 0, s => .done () s
  | n + 1, s => (wireRecvBit d s).bind fun _ s => wireRecvBits d n s

/-- `wire_recv()` while the slave sends `d`; it returns `SHREG` (R133). -/
def wireRecv (d : Byte) (s : State) : Run Byte :=
  (wireRecvBits d 8 (loadShift 0 (setSda true s))).bind fun _ s => .done s.sq.shreg (clearBitcnt s)

/-- `wire_mack(v)` (R134). -/
def wireMack (v : Level) (s : State) : Run Unit :=
  (waitUntil .mack (setScl true (setSda v s))).bind fun _ s => .done () (setSda true (setScl false s))

/-- `wire_stop()` (R135). -/
def wireStop (s : State) : Run Unit :=
  (waitUntil .stopClock (setScl true (setSda false s))).bind fun _ s =>
    waitUntil .stopData (setSda true s)

end Sys2Proof.Machine
end

