-- ==== Sys2Proof/Machine/Primitives.lean ====
section
/-! DEFINITION. The I2C master primitives (`40_i2c_primitives.md` R124 to R129): what each does once it is legal, then the
meanings of the six commands. -/
namespace Sys2Proof.Machine

/-- START: the start condition, its event, `PHASE` = `ADDR` (R124). -/
def doStart (s : State) : Run Unit :=
  (wireStart s).bind fun _ s => .done () (setPhase .addr (emit .start s))

/-- RESTART: the repeated start condition, its event, `PHASE` = `ADDR` (R125). -/
def doRestart (s : State) : Run Unit :=
  (wireRestart s).bind fun _ s => .done () (setPhase .addr (emit .restart s))

/-- `PHASE` after a sent byte: after the address byte its bit 0 decides, else `WR` (R126). -/
def phaseAfterSend (p : Phase) (b : Byte) : Phase :=
  if p = .addr then (if b.getLsbD 0 then .rd else .wr) else .wr

/-- SEND b: the byte on the wires, its event, `ACKSTAT` and `NAKCNT`, the phase (R126). -/
def doSend (b : Byte) (s : State) : Run Unit :=
  (wireSend b (s.ackLevel b) s).bind fun a s =>
    .done () (setPhase (phaseAfterSend s.drv.phase b) (recordAck a (emit (.tx b a) s)))

/-- RECV: one byte clocked in, its event, `RDATA`, `PHASE` = `RDACK` (R127). -/
def doRecv (s : State) : Run Unit :=
  (wireRecv s.rxByte s).bind fun d s =>
    .done () (setPhase .rdack { emit (.rx d) s with drv := { s.drv with rdata := d } })

/-- MACK v: the master's acknowledge bit, its event, `PHASE` = `RD` or `RDEND` (R128). -/
def doMack (v : Level) (s : State) : Run Unit :=
  (wireMack v s).bind fun _ s => .done () (setPhase (if v then .rdend else .rd) (emit (.mack v) s))

/-- STOP: the stop condition, its event, `PHASE` = `IDLE` (R129). -/
def doStop (s : State) : Run Unit :=
  (wireStop s).bind fun _ s => .done () (setPhase .idle (emit .stop s))

/-- START (R124). -/
def execStart (s : State) : Host.Outcome State Fault Refusal := command .start (busCommand doStart) s

/-- RESTART (R125). -/
def execRestart (s : State) : Host.Outcome State Fault Refusal := command .restart (busCommand doRestart) s

/-- SEND b (R126). -/
def execSend (b : Byte) (s : State) : Host.Outcome State Fault Refusal := command (.send b) (busCommand (doSend b)) s

/-- RECV (R127). -/
def execRecv (s : State) : Host.Outcome State Fault Refusal := command .recv (busCommand doRecv) s

/-- MACK v (R128). -/
def execMack (v : Level) (s : State) : Host.Outcome State Fault Refusal := command (.mack v) (busCommand (doMack v)) s

/-- STOP (R129). -/
def execStop (s : State) : Host.Outcome State Fault Refusal := command .stop (busCommand doStop) s

end Sys2Proof.Machine
end

