-- ==== Sys2Proof/Machine/Imu.lean ====
section
/-! DEFINITION. The IMU register protocol (`41_imu_protocol.md`): the sequencer's state machine (R169), CONFIG (R161) and
BREAD (R165), and the bus traffic they are specified by (R163, R168). -/
namespace Sys2Proof.Machine

/-- The sequencer moves to a state. -/
def toSeq (q : SeqState) (s : State) : State := { s with sq := { s.sq with seq := q } }

/-- `RXBUF[RXCNT] <- RDATA ; RXCNT <- RXCNT + 1 ; REMAIN <- REMAIN - 1` (R165; log 14). -/
def storeByte (s : State) : State :=
  { s with rx := { rxbuf := s.rx.rxbuf.setIfInBounds s.rx.rxcnt.toNat s.drv.rdata, rxcnt := s.rx.rxcnt + 1 },
           sq := { s.sq with remain := s.sq.remain - 1 } }

/-- `REGPTR <- 0` (the row `S_STOP` of R169). -/
def clearRegptr (s : State) : State := { s with sq := { s.sq with regptr := 0 } }

/-- The row `S_CSTOP` of R169 after its STOP: the next of the three writes, or the end. -/
def nextWrite (s : State) : State :=
  if s.sq.cfgidx.toNat < 2 then
    { s with sq := { s.sq with cfgidx := s.sq.cfgidx + 1, regptr := s.sq.regptr + 1, seq := .cstart } }
  else { s with sq := { s.sq with cfgidx := 0, regptr := 0, seq := .idle } }

/-- One row of the sequencer's table: the state's primitive, then the move (R169). A stuck primitive leaves the
sequencer in its state (R175). -/
def seqStep (s : State) : Run Unit :=
  match s.sq.seq with
  | .idle => .done () s
  | .start => (doStart s).bind fun _ s => .done () (toSeq .addrW s)
  | .addrW => (doSend imuWrite s).bind fun _ s => .done () (toSeq .reg s)
  | .reg => (doSend s.sq.regptr s).bind fun _ s => .done () (toSeq .restart s)
  | .restart => (doRestart s).bind fun _ s => .done () (toSeq .addrR s)
  | .addrR => (doSend imuRead s).bind fun _ s => .done () (toSeq .recv s)
  | .recv => (doRecv s).bind fun _ s => .done () (toSeq .mack (storeByte s))
  | .mack => (doMack (s.sq.remain == 0) s).bind fun _ s => .done () (toSeq (if s.sq.remain = 0 then .stop else .recv) s)
  | .stop => (doStop s).bind fun _ s => .done () (toSeq .idle (clearRegptr s))
  | .cstart => (doStart s).bind fun _ s => .done () (toSeq .caddr s)
  | .caddr => (doSend imuWrite s).bind fun _ s => .done () (toSeq .creg s)
  | .creg => (doSend s.sq.regptr s).bind fun _ s => .done () (toSeq .cval s)
  | .cval => (doSend (cfgVal s.sq.cfgidx) s).bind fun _ s => .done () (toSeq .cstop s)
  | .cstop => (doStop s).bind fun _ s => .done () (nextWrite s)

/-- The sequencer until it is back in `S_IDLE`, with at most `n` states entered. -/
def runSeq : Nat → State → Run Unit
  | 0, s => .done () s
  | n + 1, s => if s.sq.seq = .idle then .done () s else (seqStep s).bind fun _ s => runSeq n s

/-- More states than any composite command enters: BREAD enters 6 + 2 c of them, at most 34, CONFIG 15 (R169). -/
def seqFuel : Nat := 34

/-- The row `S_IDLE` of R169 for BREAD: `REGPTR <- r ; REMAIN <- c ; RXCNT <- 0`. -/
def latchBread (r c : Byte) (s : State) : State :=
  { s with sq := { s.sq with seq := .start, regptr := r, remain := c.setWidth 4 }, rx := { s.rx with rxcnt := 0 } }

/-- The row `S_IDLE` of R169 for CONFIG: `CFGIDX <- 0 ; REGPTR <- 0x10`. -/
def latchConfig (s : State) : State :=
  { s with sq := { s.sq with seq := .cstart, cfgidx := 0, regptr := Config.regCtrlXl } }

/-- CONFIG (R161). -/
def execConfig (s : State) : Host.Outcome State Fault Refusal :=
  command .config (busCommand fun s => runSeq seqFuel (latchConfig s)) s

/-- BREAD r, c (R165). -/
def execBread (r c : Byte) (s : State) : Host.Outcome State Fault Refusal :=
  command (.bread r c) (busCommand fun s => runSeq seqFuel (latchBread r c s)) s

/-! ## The traffic the rules spell out -/

/-- The events of `MemWrite(r, 1, v)` when the three bytes are answered `a0`, `a1`, `a2` (R163). -/
def memWriteEvents (r v : Byte) (a0 a1 a2 : Level) : List BusEvent :=
  [.start, .tx 0xD6#8 a0, .tx r a1, .tx v a2, .stop]

/-- The events of the bytes of a burst: every byte but the last is answered level 0, the last level 1 (R165, R168). -/
def burstEvents : List Byte → List BusEvent
  | [] => []
  | [d] => [.rx d, .mack true]
  | d :: ds => .rx d :: .mack false :: burstEvents ds

/-- The events of `MemRead(r, n)` that returns `ds` when the three sent bytes are answered `a0`, `a1`, `a2` (R168). -/
def memReadEvents (r : Byte) (ds : List Byte) (a0 a1 a2 : Level) : List BusEvent :=
  [.start, .tx 0xD6#8 a0, .tx r a1, .restart, .tx 0xD7#8 a2] ++ burstEvents ds ++ [.stop]

end Sys2Proof.Machine
end

