-- ==== Sys2Proof/Machine/Dispatch.lean ====
section
/-! DEFINITION. What each command does when it is presented to the block: one arm per constructor of `Instr`. -/
namespace Sys2Proof.Machine

def exec (i : Instr) (s : State) : Host.Outcome State Fault Refusal :=
  match i with
  | .start => Sys2Proof.Machine.execStart s
  | .restart => Sys2Proof.Machine.execRestart s
  | .send b => Sys2Proof.Machine.execSend b s
  | .recv => Sys2Proof.Machine.execRecv s
  | .mack v => Sys2Proof.Machine.execMack v s
  | .stop => Sys2Proof.Machine.execStop s
  | .config => Sys2Proof.Machine.execConfig s
  | .bread r c => Sys2Proof.Machine.execBread r c s
  | .fclear => Sys2Proof.Machine.execFclear s
  | .freset => Sys2Proof.Machine.execFreset s
  | .fpush x => Sys2Proof.Machine.execFpush x s
  | .fpushc k => Sys2Proof.Machine.execFpushc k s

end Sys2Proof.Machine
end

