-- ==== Sys2Proof/Machine/Accept.lean ====
section
/-! DEFINITION. Accepting a word (`10_state.md` R21): decode it (`30_encoding.md` R93) and run the command, or raise the
error its decoding names (`60_exceptions.md` R221); then the host's loop (`30_encoding.md` R105). -/
namespace Sys2Proof.Machine

/-- An accepted word (R93, R223). -/
def execWord (w : Command) (s : State) : Host.Outcome State Fault Refusal :=
  match decode w with
  | .command i => exec i s
  | .illegal e => .next (raiseCmdError e w s)

/-- The host after the word it presented: `cp` moves on once `BUSY` = 0 (R105). -/
def retire (r : Host.Outcome State Fault Refusal) : Host.Outcome State Fault Refusal :=
  match r with
  | .next t => .next t.advanceCp
  | .fault f => .fault f
  | .refused q => .refused q

/-- The host asserts `rst` (R250; DESIGN CHOICE: a step of its own, log 23). -/
def hostReset (s : State) : State :=
  { (resetBlock s).popAction with host := { s.popAction.host with cp := s.cpAfterReset } }

/-- The host presents this word next, before anything else it has still to do. -/
def presentWord (w : Command) (s : State) : State :=
  { s with host := { s.host with todo := .command w :: s.host.todo } }

end Sys2Proof.Machine
end

