-- ==== Sys2Proof/Machine/Step.lean ====
section
/-! DEFINITION. One step of the machine: the host's next action meets the block (`10_state.md` R21, `00_scope.md` R15). -/
namespace Sys2Proof.Machine

/-- One step. Reset overrides everything (R223, R250). While `BUSY` = 1 the running command is stuck in its wait and no
word is accepted (R228, R21); a word the host presents then is held, so that what stands behind it in the host's list, a
reset too, waits with it (DESIGN CHOICE, log 26). With no word presented the block waits and holds all its state (R236). A word presented
while `BUSY` = 0 is accepted (R21). -/
def step (s : State) : Host.Outcome State Fault Refusal :=
  if s.rst then .next (hostReset s)
  else if s.drv.busy then .next s.spin
  else
    match s.cmdWord with
    | none => .next s
    | some w => retire (execWord w s.popAction)

/-- `s` with the word the opcode table numbers as `w` presented by the host as its next action, so that the very next
step accepts and runs it (a block that is stuck accepts nothing, R21). The block has no instruction memory (R77): the
word on `cmd_word` is where a step takes its command from (log 1). A number of more than 24 bits is no command word
(R98) and is not presented. -/
def State.withFetchWord (s : State) (nbits w : Nat) : State :=
  match tableWord nbits w with
  | some c => presentWord c s
  | none => s

end Sys2Proof.Machine
end

