-- ==== Sys2Proof/Machine/HostPort.lean ====
section
/-! DEFINITION. The host read port (`20_memory.md` R72 to R75): what the host reads at each word address. It is a function
of the state, takes no step and changes nothing (R74). -/
namespace Sys2Proof.Machine

/-- A 16-bit register read through the port, sign-extended (R72). -/
def sext16 (v : Sample) : HostWord := v.signExtend 32

/-- The registers at addresses 0x000 to 0x011 (R73). -/
def State.scalarRegister (s : State) (a : Nat) : HostWord :=
  match a with
  | 0x000 => s.status
  | 0x001 => (errcodeBits s.err.errcode).setWidth 32
  | 0x002 => s.err.errcmd.setWidth 32
  | 0x003 => s.drv.rdata.setWidth 32
  | 0x004 => s.rx.rxcnt.setWidth 32
  | 0x005 => s.drv.nakcnt.setWidth 32
  | 0x006 => s.fbstat
  | 0x007 => sext16 s.fb.xout
  | 0x008 => s.fb.mafn
  | 0x009 => s.fb.mafd.setWidth 32
  | 0x00A => s.fb.firq
  | 0x00B => s.fb.iirq
  | 0x00C => s.fb.sum
  | 0x00D => sext16 s.fb.hist1
  | 0x00E => sext16 s.fb.hist2
  | 0x00F => sext16 s.fb.hist3
  | 0x010 => sext16 s.fb.hist4
  | 0x011 => sext16 s.fb.hist5
  | _ => 0#32

/-- The host read map (R73) while `BUSY` = 0; an address it does not list reads as zero (R74). -/
def State.readMap (s : State) (a : Nat) : HostWord :=
  if a < 0x020 then s.scalarRegister a
  else if a < 0x020 + 14 then (s.rx.byte (a - 0x020)).setWidth 32
  else if a < 0x030 then 0#32
  else if a < 0x030 + 7 then sext16 (s.rx.channel (a - 0x030))
  else if a < 0x100 then 0#32
  else if a < 0x200 then sext16 (s.fb.capRaw[a - 0x100]?.getD 0)
  else if a < 0x300 then s.fb.capMafn[a - 0x200]?.getD 0
  else if a < 0x400 then s.fb.capFirq[a - 0x300]?.getD 0
  else if a < 0x500 then s.fb.capIirq[a - 0x400]?.getD 0
  else 0#32

/-- What a read answers while `BUSY` = 1: any value, but bit 0 of `STATUS` is 1 (R75; log 7). -/
def State.readBusy (s : State) (a : HostAddr) : HostWord :=
  if a = 0 then Config.busyRead s.choice a ||| 1#32 else Config.busyRead s.choice a

/-- `HostRead(a)` (R72, R75). -/
def State.hostRead (s : State) (a : HostAddr) : HostWord :=
  if s.drv.busy then s.readBusy a else s.readMap a.toNat

end Sys2Proof.Machine
end

