-- ==== Sys2Proof/Machine/Waveform.lean ====
section
/-! DEFINITION. Reading the wires back into events (`40_i2c_primitives.md` R137): an observer of the two wires, run over
the micro-operations of a bus command (DESIGN CHOICE: how it tells who drove a bit, log 12). -/
namespace Sys2Proof.Machine

/-- What the observer knows: whether a transaction is open, the last levels, the bit of the present high period of the
clock if it is one (with whether a slave drove it), and the bits of the present group, first bit first. -/
structure WireView where
  isOpen : Bool
  scl : Level
  sda : Level
  pulse : Option (Level × Bool)
  bits : List (Level × Bool)
  deriving DecidableEq, Repr

/-- The byte that eight bits spell, most significant first (R101). -/
def byteOfBits (bits : List (Level × Bool)) : Byte :=
  (bits.take 8).foldl (fun b x => b.shiftConcat x.1) 0#8

/-- The group's data bits were driven by a slave. -/
def groupFromSlave (bits : List (Level × Bool)) : Bool :=
  match bits with
  | x :: _ => x.2
  | [] => false

/-- The clock falls after a bit: the bit joins its group. Eight bits of a slave are a received byte; the ninth bit of a
group is the acknowledge. -/
def WireView.commitBit (v : WireView) (bit : Level × Bool) : WireView × List BusEvent :=
  let bits := v.bits ++ [bit]
  if bits.length = 9 then
    ({ v with bits := [], pulse := none },
      if groupFromSlave bits then [.mack bit.1] else [.tx (byteOfBits bits) bit.1])
  else
    ({ v with bits := bits, pulse := none },
      if bits.length = 8 && groupFromSlave bits then [.rx (byteOfBits bits)] else [])

/-- The drivers take new levels: a START, RESTART or STOP condition when the data wire changes while the clock is high,
the beginning of a high period when the clock rises, its end when it falls. -/
def WireView.drive (v : WireView) (scl sda : Level) : WireView × List BusEvent :=
  let v' := { v with scl := scl, sda := sda }
  if v.scl && scl then
    if v.sda && !sda then
      ({ v' with isOpen := true, pulse := none, bits := [] }, [if v.isOpen then .restart else .start])
    else if !v.sda && sda then ({ v' with isOpen := false, pulse := none, bits := [] }, [.stop])
    else (v', [])
  else if !v.scl && scl then ({ v' with pulse := some (sda, false) }, [])
  else if v.scl && !scl then
    match v.pulse with
    | some bit => v'.commitBit bit
    | none => (v', [])
  else (v', [])

/-- The observer sees one micro-operation. -/
def WireView.observe (v : WireView) : WireOp → WireView × List BusEvent
  | .drive scl sda => v.drive scl sda
  | .waited => (v, [])
  | .sample l => ({ v with pulse := some (l, true) }, [])

/-- The observer over a waveform: what it knows at the end, and the events it read. -/
def WireView.read : WireView → List WireOp → WireView × List BusEvent
  | v, [] => (v, [])
  | v, op :: ops =>
    let r := v.observe op
    let r' := WireView.read r.1 ops
    (r'.1, r.2 ++ r'.2)

/-- The eight bits of a byte as a slave drove them. -/
def slaveBits (d : Byte) : List (Level × Bool) := (List.range 8).map fun i => (d.getMsbD i, true)

/-- What the observer knows between two commands (R136): the wires as `PHASE` leaves them, and after RECV the eight bits
of the byte that still awaits its acknowledge. -/
def State.wireView (s : State) : WireView :=
  match s.drv.phase with
  | .idle => { isOpen := false, scl := true, sda := true, pulse := none, bits := [] }
  | .addr => { isOpen := true, scl := false, sda := false, pulse := none, bits := [] }
  | .wr => { isOpen := true, scl := false, sda := true, pulse := none, bits := [] }
  | .rd => { isOpen := true, scl := false, sda := true, pulse := none, bits := [] }
  | .rdack => { isOpen := true, scl := false, sda := true, pulse := none, bits := slaveBits s.drv.rdata }
  | .rdend => { isOpen := true, scl := false, sda := true, pulse := none, bits := [] }

end Sys2Proof.Machine
end

