-- ==== Sys2Proof/Safety.lean ====
section
/-! DEFINITION. What a safe run of ME433-I2CM is, in the words the statements use: a command boundary, a block ready for
a command, an environment that grants waits, the invariants of `10_state.md` R45, the pairing of START and STOP
(`40_i2c_primitives.md` R139), the final states (`60_exceptions.md` R227, R228). -/
namespace Sys2Proof.Safety
open Sys2Proof.Machine

/-! ## Command boundaries -/

/-- The wire drivers between commands are a function of `PHASE`: `SCL_O` (R136). -/
def sclOf : Phase → Level
  | .idle => true
  | .addr => false
  | .wr => false
  | .rd => false
  | .rdack => false
  | .rdend => false

/-- The wire drivers between commands are a function of `PHASE`: `SDA_O` (R136). -/
def sdaOf : Phase → Level
  | .idle => true
  | .addr => false
  | .wr => true
  | .rd => true
  | .rdack => true
  | .rdend => true

/-- A command boundary: no command runs, the drivers are as R136 says, the sequencer's registers are idle (R23). -/
structure Boundary (s : State) : Prop where
  notBusy : s.drv.busy = false
  scl : s.drv.sclO = sclOf s.drv.phase
  sda : s.drv.sdaO = sdaOf s.drv.phase
  sqIdle : s.sq = Sequencer.reset

/-- The block will execute a legal command: a command boundary outside the error state (R223, R226). -/
structure Ready (s : State) : Prop extends Boundary s where
  noError : s.err.errcode = none

/-! ## The environment -/

/-- The environment lets the next `n` waits proceed whatever they wait for (R13, R123). -/
def Grants (n : Nat) (s : State) : Prop :=
  match s.env.waits with
  | .free => n = 0
  | .prompt => True
  | .stall k => n ≤ k

/-- The slave memory the environment holds, if it is the reference slave's (R68), is in canonical form. -/
def envMemoryWf (v : Env) : Bool :=
  match v.peer with
  | .reference d => Memory.wf d.mem
  | .script _ _ => true

/-- What a byte of the reference slave's memory reads as; nothing is known of another peer's. -/
def slaveByte (v : Env) (a : Nat) : Option Byte :=
  match v.peer with
  | .reference d => some (Memory.read d.mem a)
  | .script _ _ => none

/-! ## The block as a whole -/

/-- The registers of the block are the same in two states (R20). -/
structure SameBlock (s t : State) : Prop where
  drv : t.drv = s.drv
  rx : t.rx = s.rx
  err : t.err = s.err
  sq : t.sq = s.sq
  fb : t.fb = s.fb

/-- Nothing but the filter bank differs (R205). -/
structure OnlyFilter (s t : State) : Prop where
  drv : t.drv = s.drv
  rx : t.rx = s.rx
  err : t.err = s.err
  sq : t.sq = s.sq
  trace : t.trace = s.trace
  env : t.env = s.env
  host : t.host = s.host
  wave : t.wave = s.wave

/-- What a completed bus primitive leaves alone: the receive buffer, the error registers, the sequencer, the filter bank
and the host; and it ends at a command boundary. -/
structure BusFrame (s t : State) : Prop where
  rx : t.rx = s.rx
  err : t.err = s.err
  sq : t.sq = s.sq
  fb : t.fb = s.fb
  host : t.host = s.host
  boundary : Boundary t

/-- No byte of the reference slave's memory differs. -/
def SlaveMemoryKept (s t : State) : Prop := ∀ a, slaveByte t.env a = slaveByte s.env a

/-- The table of reset values (R42), register by register. -/
structure ResetValues (t : State) : Prop where
  busy : t.drv.busy = false
  sclO : t.drv.sclO = true
  sdaO : t.drv.sdaO = true
  phase : t.drv.phase = .idle
  ackstat : t.drv.ackstat = false
  nakcnt : t.drv.nakcnt = 0#8
  rdata : t.drv.rdata = 0x00#8
  rxbuf : ∀ i (h : i < 14), t.rx.rxbuf[i] = 0x00#8
  rxcnt : t.rx.rxcnt = 0#4
  errcode : t.err.errcode = none
  errcmd : t.err.errcmd = 0x000000#24
  seq : t.sq.seq = .idle
  regptr : t.sq.regptr = 0#8
  remain : t.sq.remain = 0#4
  cfgidx : t.sq.cfgidx = 0#2
  shreg : t.sq.shreg = 0#8
  bitcnt : t.sq.bitcnt = 0#4
  armed : t.fb.armed = false
  ovalid : t.fb.ovalid = false
  idx : t.fb.idx = 0#7
  sum : t.fb.sum = 0#32
  hist : t.fb.hist1 = 0#16 ∧ t.fb.hist2 = 0#16 ∧ t.fb.hist3 = 0#16 ∧ t.fb.hist4 = 0#16 ∧ t.fb.hist5 = 0#16
  xout : t.fb.xout = 0#16
  mafn : t.fb.mafn = 0#32
  firq : t.fb.firq = 0#32
  iirq : t.fb.iirq = 0#32
  mafd : t.fb.mafd = 0#7
  capRaw : ∀ i (h : i < 100), t.fb.capRaw[i] = 0#16
  capMafn : ∀ i (h : i < 100), t.fb.capMafn[i] = 0#32
  capFirq : ∀ i (h : i < 100), t.fb.capFirq[i] = 0#32
  capIirq : ∀ i (h : i < 100), t.fb.capIirq[i] = 0#32

/-- Everything FCLEAR and FRESET set to zero (R195, R196). -/
structure FilterZero (f : FilterBank) : Prop where
  sum : f.sum = 0#32
  idx : f.idx = 0#7
  hist : f.hist1 = 0#16 ∧ f.hist2 = 0#16 ∧ f.hist3 = 0#16 ∧ f.hist4 = 0#16 ∧ f.hist5 = 0#16
  xout : f.xout = 0#16
  mafn : f.mafn = 0#32
  mafd : f.mafd = 0#7
  firq : f.firq = 0#32
  iirq : f.iirq = 0#32
  ovalid : f.ovalid = false
  capRaw : ∀ i (h : i < 100), f.capRaw[i] = 0#16
  capMafn : ∀ i (h : i < 100), f.capMafn[i] = 0#32
  capFirq : ∀ i (h : i < 100), f.capFirq[i] = 0#32
  capIirq : ∀ i (h : i < 100), f.capIirq[i] = 0#32

/-- An armed push of `x` (R197), register by register, every sum the exact integer. -/
structure Pushed (x : Sample) (f g : FilterBank) : Prop where
  sum : g.sum.toInt = f.sum.toInt + x.toInt
  xout : g.xout = x
  mafn : g.mafn.toInt = f.sum.toInt + x.toInt
  mafd : g.mafd.toNat = f.idx.toNat + 1
  firq : g.firq.toInt = 264 * x.toInt + 1405 * f.hist1.toInt + 3331 * f.hist2.toInt + 3331 * f.hist3.toInt
    + 1405 * f.hist4.toInt + 264 * f.hist5.toInt
  iirq : g.iirq.toInt = 9 * f.hist1.toInt + x.toInt
  ovalid : g.ovalid = true
  capRaw : ∀ i (h : i < 100), g.capRaw[i] = if i = f.idx.toNat then g.xout else f.capRaw[i]
  capMafn : ∀ i (h : i < 100), g.capMafn[i] = if i = f.idx.toNat then g.mafn else f.capMafn[i]
  capFirq : ∀ i (h : i < 100), g.capFirq[i] = if i = f.idx.toNat then g.firq else f.capFirq[i]
  capIirq : ∀ i (h : i < 100), g.capIirq[i] = if i = f.idx.toNat then g.iirq else f.capIirq[i]
  hist1 : g.hist1 = x
  hist2 : g.hist2 = f.hist1
  hist3 : g.hist3 = f.hist2
  hist4 : g.hist4 = f.hist3
  hist5 : g.hist5 = f.hist4
  idx : g.idx.toNat = if f.idx.toNat = 99 then 0 else f.idx.toNat + 1
  armed : g.armed = decide (f.idx.toNat ≠ 99)

/-! ## Invariants (R45) -/

/-- `CAP_RAW[i]` as an integer. -/
def rawAt (f : FilterBank) (i : Nat) : Int := (f.capRaw[i]?.getD 0).toInt

/-- The sum of `CAP_RAW[0..n-1]`. -/
def rawSum (f : FilterBank) : Nat → Int
  | 0 => 0
  | n + 1 => rawSum f n + rawAt f n

/-- `x[n-j]` of the open window, 0 where `n-j` < 0 (R36). -/
def rawBack (f : FilterBank) (j : Nat) : Int :=
  if j ≤ f.idx.toNat then rawAt f (f.idx.toNat - j) else 0

/-- The filter bank's part of R45. -/
structure FilterInv (f : FilterBank) : Prop where
  idxRange : f.idx.toNat ≤ 99
  mafdRange : f.mafd.toNat ≤ 100
  noOutput : f.ovalid = false → f.xout = 0 ∧ f.mafn = 0 ∧ f.mafd = 0 ∧ f.firq = 0 ∧ f.iirq = 0
  sumIsSum : f.armed = true → f.sum.toInt = rawSum f f.idx.toNat
  hist1 : f.armed = true → f.hist1.toInt = rawBack f 1
  hist2 : f.armed = true → f.hist2.toInt = rawBack f 2
  hist3 : f.armed = true → f.hist3.toInt = rawBack f 3
  hist4 : f.armed = true → f.hist4.toInt = rawBack f 4
  hist5 : f.armed = true → f.hist5.toInt = rawBack f 5

/-- The invariant of the machine: R45's clauses, and the canonical form of the slave's memory. -/
structure Inv (s : State) : Prop where
  rxcntRange : s.rx.rxcnt.toNat ≤ 14
  filter : FilterInv s.fb
  boundary : s.drv.busy = false → Boundary s
  running : s.drv.busy = true → s.err.errcode = none
  memory : envMemoryWf s.env = true

/-! ## START and STOP (R139) -/

/-- Whether a transaction is open after a trace in which STARTs and STOPs alternate, beginning with a START; `none` if
they do not. -/
def openAfter : Bool → List BusEvent → Option Bool
  | o, [] => some o
  | o, .start :: es => if o then none else openAfter true es
  | o, .stop :: es => if o then openAfter false es else none
  | o, .restart :: es => openAfter o es
  | o, .tx _ _ :: es => openAfter o es
  | o, .rx _ :: es => openAfter o es
  | o, .mack _ :: es => openAfter o es

/-- STARTs and STOPs alternate in the trace, and the last of them agrees with `PHASE`. -/
def Paired (s : State) : Prop := openAfter false s.trace = some (s.drv.phase != .idle)

/-! ## Runs -/

/-- A stuck block: a command runs and will run for ever unless reset (R228). -/
def Stuck (s : State) : Prop := s.drv.busy = true

/-- A final state of a correct program: nothing left to present, no command running, no error recorded
(R105, R227, R228). -/
def Final (s : State) : Prop := s.host.todo = [] ∧ s.drv.busy = false ∧ s.err.errcode = none

/-- Commands presented one after the other, each accepted when the one before it has left `BUSY` = 0 (R105). -/
def execAll : List Instr → State → Host.Outcome State Fault Refusal
  | [], s => .next s
  | i :: is, s =>
    match exec i s with
    | .next t => execAll is t
    | .fault f => .fault f
    | .refused r => .refused r

/-! ## The transaction grammar and its waits -/

/-- The table R121, and with it the phases of the composite commands (R160) and the filter commands (R205): the `PHASE`
after the completed command, `none` where the command is `PROTO`. -/
def phaseTable : Instr → Phase → Option Phase
  | .start, .idle => some .addr
  | .start, .addr => none
  | .start, .wr => none
  | .start, .rd => none
  | .start, .rdack => none
  | .start, .rdend => none
  | .restart, .idle => none
  | .restart, .addr => none
  | .restart, .wr => some .addr
  | .restart, .rd => none
  | .restart, .rdack => none
  | .restart, .rdend => some .addr
  | .send _, .idle => none
  | .send b, .addr => some (if b.getLsbD 0 then .rd else .wr)
  | .send _, .wr => some .wr
  | .send _, .rd => none
  | .send _, .rdack => none
  | .send _, .rdend => none
  | .recv, .idle => none
  | .recv, .addr => none
  | .recv, .wr => none
  | .recv, .rd => some .rdack
  | .recv, .rdack => none
  | .recv, .rdend => none
  | .mack _, .idle => none
  | .mack _, .addr => none
  | .mack _, .wr => none
  | .mack _, .rd => none
  | .mack v, .rdack => some (if v then .rdend else .rd)
  | .mack _, .rdend => none
  | .stop, .idle => none
  | .stop, .addr => none
  | .stop, .wr => some .idle
  | .stop, .rd => none
  | .stop, .rdack => none
  | .stop, .rdend => some .idle
  | .config, p => if p = .idle then some .idle else none
  | .bread _ _, p => if p = .idle then some .idle else none
  | .fclear, p => some p
  | .freset, p => some p
  | .fpush _, p => some p
  | .fpushc _, p => some p

/-- The `PHASE` after completed commands one after the other; `none` where one of them is `PROTO` (R121). -/
def phaseAfterAll : List Instr → Phase → Option Phase
  | [], p => some p
  | i :: is, p =>
    match phaseTable i p with
    | some q => phaseAfterAll is q
    | none => none

/-- The waits of a command (R228): the stuck points of a primitive, their sum over the primitives of CONFIG (R161) and
BREAD (R165), none of a filter command (R205). -/
def waitsOf : Instr → Nat
  | .start => 1
  | .restart => 1
  | .send _ => 9
  | .recv => 8
  | .mack _ => 1
  | .stop => 2
  | .config => 3 * 1 + 9 * 9 + 3 * 2
  | .bread _ c => 1 + 3 * 9 + 1 + c.toNat * (8 + 1) + 2
  | .fclear => 0
  | .freset => 0
  | .fpush _ => 0
  | .fpushc _ => 0

/-- The six primitives (R18). -/
def isPrimitive : Instr → Bool
  | .start => true
  | .restart => true
  | .send _ => true
  | .recv => true
  | .mack _ => true
  | .stop => true
  | .config => false
  | .bread _ _ => false
  | .fclear => false
  | .freset => false
  | .fpush _ => false
  | .fpushc _ => false

/-- The filter commands (R18). -/
def isFilter : Instr → Bool
  | .start => false
  | .restart => false
  | .send _ => false
  | .recv => false
  | .mack _ => false
  | .stop => false
  | .config => false
  | .bread _ _ => false
  | .fclear => true
  | .freset => true
  | .fpush _ => true
  | .fpushc _ => true

/-- The event a completed primitive appends, with what the environment answers in `s` (R124 to R129). -/
def primitiveEvent (s : State) : Instr → List BusEvent
  | .start => [.start]
  | .restart => [.restart]
  | .send b => [.tx b (s.ackLevel b)]
  | .recv => [.rx s.rxByte]
  | .mack v => [.mack v]
  | .stop => [.stop]
  | .config => []
  | .bread _ _ => []
  | .fclear => []
  | .freset => []
  | .fpush _ => []
  | .fpushc _ => []

/-! ## Composite commands as the primitives they stand for (R160, R163, R165) -/

/-- The primitives of a burst of `n` bytes: only the final byte is answered with level 1. -/
def burstPrimitives : Nat → List Instr
  | 0 => []
  | 1 => [.recv, .mack true]
  | n + 2 => .recv :: .mack false :: burstPrimitives (n + 1)

/-- BREAD r, c spelled in primitives (R165). -/
def breadPrimitives (r : Byte) (n : Nat) : List Instr :=
  [.start, .send 0xD6#8, .send r, .restart, .send 0xD7#8] ++ burstPrimitives n ++ [.stop]

/-- One register write spelled in primitives (R163). -/
def writePrimitives (r v : Byte) : List Instr := [.start, .send 0xD6#8, .send r, .send v, .stop]

/-- CONFIG spelled in primitives (R161). -/
def configPrimitives : List Instr :=
  writePrimitives 0x10#8 Config.cfgXlVal ++ writePrimitives 0x11#8 Config.cfgGVal ++ writePrimitives 0x12#8 Config.cfgIfVal

/-- A composite command spelled in primitives; a primitive stands for itself (R160). -/
def primitivesOf : Instr → List Instr
  | .config => configPrimitives
  | .bread r c => breadPrimitives r c.toNat
  | .start => [.start]
  | .restart => [.restart]
  | .send b => [.send b]
  | .recv => [.recv]
  | .mack v => [.mack v]
  | .stop => [.stop]
  | .fclear => []
  | .freset => []
  | .fpush _ => []
  | .fpushc _ => []

/-! ## What the environment answers to a sequence of primitives (R13) -/

/-- The bus after one more completed primitive, as far as the environment's answers depend on it: the trace, the peer
that has seen the event, the draw of the free answers (log 3). -/
def busAfter (i : Instr) (s : State) : State :=
  { s with trace := s.trace ++ primitiveEvent s i,
           env := { s.env with peer := (primitiveEvent s i).foldl BusPeer.observe s.env.peer },
           choice := s.choice + waitsOf i + 1 }

/-- The events of a sequence of primitives: every level and every byte in them is what the environment answers
(`State.ackLevel`, `State.rxByte`) on the bus as it stands after the primitives before. -/
def trafficOf : List Instr → State → List BusEvent
  | [], _ => []
  | i :: is, s => primitiveEvent s i ++ trafficOf is (busAfter i s)

/-- The acknowledge levels of the bytes sent, in order. -/
def sentLevels : List BusEvent → List Level
  | [] => []
  | .tx _ a :: es => a :: sentLevels es
  | .rx _ :: es => sentLevels es
  | .start :: es => sentLevels es
  | .restart :: es => sentLevels es
  | .mack _ :: es => sentLevels es
  | .stop :: es => sentLevels es

/-- The bytes received, in order. -/
def receivedBytes : List BusEvent → List Byte
  | [] => []
  | .rx d :: es => d :: receivedBytes es
  | .tx _ _ :: es => receivedBytes es
  | .start :: es => receivedBytes es
  | .restart :: es => receivedBytes es
  | .mack _ :: es => receivedBytes es
  | .stop :: es => receivedBytes es

/-- The effect of the events `es` on everything that records them: the trace, the peer on the wires, `ACKSTAT`, `NAKCNT`,
`RDATA` and the bytes of `RXBUF` from index 0 on (R27, R28, R29, R30); the error registers, the filter bank and the host
are as before. -/
structure Recorded (es : List BusEvent) (s t : State) : Prop where
  trace : t.trace = s.trace ++ es
  peer : t.env.peer = es.foldl BusPeer.observe s.env.peer
  ackstat : t.drv.ackstat = (sentLevels es).getLastD s.drv.ackstat
  nakcnt : t.drv.nakcnt.toNat = min 255 (s.drv.nakcnt.toNat + (sentLevels es).count true)
  rdata : t.drv.rdata = (receivedBytes es).getLastD s.drv.rdata
  rxbuf : ∀ j, t.rx.byte j = if j < (receivedBytes es).length then (receivedBytes es).getD j 0 else s.rx.byte j
  err : t.err = s.err
  fb : t.fb = s.fb
  host : t.host = s.host

/-! ## The samples of a window -/

/-- `x[n-j]` of the samples pushed so far, the last of them `x[n]`; 0 where `n-j` < 0 (R190). -/
def sampleBack (xs : List Sample) (j : Nat) : Int :=
  if j < xs.length then (xs.getD (xs.length - 1 - j) 0).toInt else 0

/-- The sum of the samples (R192). -/
def sampleSum (xs : List Sample) : Int := (xs.map BitVec.toInt).sum

/-- A fresh window and pushes of these samples (R196, R197). -/
def windowCommands (xs : List Sample) : List Instr := .freset :: xs.map .fpush

end Sys2Proof.Safety
end

