-- ==== Sys2Proof/Certificates/Slice0/Obligations.lean ====
section
/-! DEFINITION. The statements about ME433-I2CM, for the provers: encoding, the step with errors and reset, the
primitives, the composite commands, the filter bank, the host read port, the invariants. -/
open Sys2Proof Sys2Proof.Machine Sys2Proof.Safety

/-! ## Encoding -/

/-- For every command with legal operands, with every operand at every value its field admits, decoding the word the
encoder writes gives that command. (30_encoding.md section 1; 30_encoding.md section 2) -/
def Obligations.DecodeOfEncodeIsTheCommand : Prop :=
  ∀ i : Instr, i.wellFormed = true → decode (encode i) = .command i

/-- For every word: it decodes to ILLEGAL_OP exactly when its opcode is 0x0, 0x7, 0xA or 0xF; it decodes to a command
exactly when it is the word of that command and the operands are legal; it decodes to ILLEGAL_ARG exactly when its
opcode is assigned and it is the word of no command with legal operands; it never decodes to PROTO. (R93) -/
def Obligations.DecodeSplitsEveryWord : Prop :=
  ∀ w : Command,
    (decode w = .illegal .illegalOp ↔ (opField w).toNat ∈ [0x0, 0x7, 0xA, 0xF]) ∧
    (∀ i : Instr, decode w = .command i ↔ encode i = w ∧ i.wellFormed = true) ∧
    (decode w = .illegal .illegalArg ↔
      (opField w).toNat ∉ [0x0, 0x7, 0xA, 0xF] ∧ ∀ i : Instr, i.wellFormed = true → encode i ≠ w) ∧
    decode w ≠ .illegal .proto

/-- For every word w and command i: w AND the mask of i's row equals the match of i's row exactly when w is the word of
a command of the same mnemonic, whatever its operand fields hold. (30_encoding.md section 2) -/
def Obligations.MatchAndMaskSelectTheCommand : Prop :=
  ∀ (w : Command) (i : Instr),
    w &&& i.maskWord = i.matchWord ↔ ∃ j : Instr, j.mnemonic = i.mnemonic ∧ encode j = w

/-- START, SEND 0xD6, RECV, NACK, STOP, CONFIG, SAMPLE, FCLEAR, FRESET, FPUSH -1000 and FPUSHC 6 are read from the words
the spec gives them; the all-zero and all-one words are ILLEGAL_OP; BREAD with count 0 or 15 and FPUSHC 7 are
ILLEGAL_ARG. (95_test_vectors.md V1; 95_test_vectors.md V2) -/
def Obligations.WordsOfTheSpecDecode : Prop :=
  decode 0x100000#24 = .command .start ∧ decode 0x3000D6#24 = .command (.send 0xD6#8) ∧
    decode 0x400000#24 = .command .recv ∧ decode 0x500001#24 = .command (.mack true) ∧
    decode 0x600000#24 = .command .stop ∧ decode 0x800000#24 = .command .config ∧
    decode 0x90200E#24 = .command (.bread 0x20#8 14#8) ∧ decode 0xB00000#24 = .command .fclear ∧
    decode 0xC00000#24 = .command .freset ∧ decode 0xD0FC18#24 = .command (.fpush (BitVec.ofInt 16 (-1000))) ∧
    decode 0xE00006#24 = .command (.fpushc 6#3) ∧
    decode 0x000000#24 = .illegal .illegalOp ∧ decode 0xFFFFFF#24 = .illegal .illegalOp ∧
    decode 0x902000#24 = .illegal .illegalArg ∧ decode 0x90200F#24 = .illegal .illegalArg ∧
    decode 0xE00007#24 = .illegal .illegalArg

/-! ## The step, errors and reset -/

/-- When BUSY = 0 and the word the host presents decodes to the command i, the step is exec of i at the state whose host
has that word behind it, after which the host's command pointer is one further unless the command is stuck.
(10_state.md section 1; 30_encoding.md section 5) -/
def Obligations.StepRunsTheDecodedCommand : Prop :=
  ∀ (s : State) (w : Command) (rest : List HostAction) (i : Instr),
    s.host.todo = .command w :: rest → s.drv.busy = false → decode w = .command i →
    step s = retire (exec i s.popAction) ∧
    s.popAction = { s with host := ⟨rest, s.host.cp⟩ } ∧
    ∀ t : State, retire (.next t) =
      .next { t with host := if t.drv.busy then t.host else ⟨t.host.todo, t.host.cp + 1⟩ }

/-- When BUSY = 0 and no error is recorded, a presented word that decodes to an error, or to a command the phase table
refuses, sets ERRCODE to the error and ERRCMD to the word; the host goes on to its next action, one command further;
nothing else changes. (R224) -/
def Obligations.ErrorsAreRecordedPrecisely : Prop :=
  ∀ (s : State) (w : Command) (rest : List HostAction),
    s.host.todo = .command w :: rest → s.drv.busy = false → s.err.errcode = none →
    (∀ e, decode w = .illegal e →
      step s = .next { s with err := ⟨some e, w⟩, host := ⟨rest, s.host.cp + 1⟩ }) ∧
    (∀ i, decode w = .command i → phaseTable i s.drv.phase = none →
      step s = .next { s with err := ⟨some .proto, w⟩, host := ⟨rest, s.host.cp + 1⟩ })

/-- When an error is recorded and BUSY = 0, the block is ready for a word and a presented word, whatever it decodes to,
changes nothing but the host, which goes on one command further; ERRCODE and ERRCMD keep the first error. (R226) -/
def Obligations.ErrorStateIgnoresEveryWord : Prop :=
  ∀ (s : State) (w : Command) (rest : List HostAction),
    s.host.todo = .command w :: rest → s.drv.busy = false → s.err.errcode ≠ none →
    s.cmdReady = true ∧ step s = .next { s with host := ⟨rest, s.host.cp + 1⟩ }

/-- Every state with an error recorded is not final and has a next state: if the step is a reset, every register after
it has its reset value, so no error is recorded; if it is not, the error registers are unchanged, so no second error
occurs. (R227) -/
def Obligations.OnlyResetClearsTheError : Prop :=
  ∀ s : State, s.err.errcode ≠ none →
    ¬ Final s ∧
    ∃ t, step s = .next t ∧ (s.rst = true → ResetValues t) ∧ (s.rst = false → t.err = s.err)

/-- While BUSY = 1, a step in which the host does not assert reset leaves every register of the block, the trace, the
environment and the host as they are; the state is not final. That every state with BUSY = 1 is a stuck one, and
that a step there leaves all this alone, is the model's choice: a command that completes is one step (log 2), a wait
that has not proceeded never proceeds (log 5), and the host holds a word it presents meanwhile (log 26).
(60_exceptions.md section 4; 10_state.md section 1) -/
def Obligations.StuckBlockStaysStuck : Prop :=
  ∀ s : State, s.drv.busy = true → s.rst = false →
    s.cmdReady = false ∧ ¬ Final s ∧
    ∃ t, step s = .next t ∧ SameBlock s t ∧ t.trace = s.trace ∧ t.env = s.env ∧ t.host = s.host

/-- From a command boundary, a legal command in an environment that lets k waits proceed and no more (a policy of the
model, log 6), with n the command's number of waits (START 1, RESTART 1, SEND 9, RECV 8, MACK 1, STOP 2, CONFIG 90,
BREAD 31 + 9 c, a filter command 0): with k below n it is stuck: BUSY stays 1, no error is recorded, the filter bank
is unchanged, the trace has only grown, and a stuck primitive has appended no event and has changed neither PHASE
nor any flag; with k at least n it completes with no error and PHASE as the table says, and k - n waits are left, so
that it has made exactly n. (60_exceptions.md section 4; 41_imu_protocol.md section 2) -/
def Obligations.StuckAtAnUngrantedWait : Prop :=
  ∀ (i : Instr) (s : State) (k : Nat),
    Ready s → i.wellFormed = true → phaseTable i s.drv.phase ≠ none → s.env.waits = .stall k →
    ∃ t, exec i s = .next t ∧ t.err = s.err ∧ t.host = s.host ∧ (∃ es, t.trace = s.trace ++ es) ∧
      (k < waitsOf i → t.drv.busy = true ∧ t.fb = s.fb ∧
        (isPrimitive i = true → t.trace = s.trace ∧ t.rx = s.rx ∧
          t.drv = { s.drv with busy := true, sclO := t.drv.sclO, sdaO := t.drv.sdaO })) ∧
      (waitsOf i ≤ k → t.drv.busy = false ∧ phaseTable i s.drv.phase = some t.drv.phase ∧
        t.env.waits = .stall (k - waitsOf i))

/-- In every state, a step in which the host asserts reset gives every register of the block the value of the table of
reset values; the model's state after reset has those values too. (R42) -/
def Obligations.ResetGivesTheResetValues : Prop :=
  (∀ (s : State) (rest : List HostAction), s.host.todo = .reset :: rest →
      ∃ t, step s = .next t ∧ ResetValues t ∧ t.host.todo = rest) ∧
    ResetValues State.reset

/-- A reset step leaves the trace as it is; with BUSY = 0 it leaves the environment as it is; with BUSY = 1 the
environment after it is one of which nothing is known (the model's reading of R252, log 11). The way the host's
pointer is counted is not stated. (70_reset_and_hazards.md section 1) -/
def Obligations.ResetKeepsTraceAndSlaves : Prop :=
  ∀ (s : State) (rest : List HostAction), s.host.todo = .reset :: rest →
    ∃ t, step s = .next t ∧ t.trace = s.trace ∧
      (s.drv.busy = false → t.env = s.env) ∧ (s.drv.busy = true → t.env = Env.unknown)

/-- When the host has nothing to present and BUSY = 0, a step changes nothing. (60_exceptions.md section 7) -/
def Obligations.IdleBlockHoldsItsState : Prop :=
  ∀ s : State, s.host.todo = [] → s.drv.busy = false → step s = .next s

/-! ## The primitives -/

/-- From a command boundary in IDLE, if the environment grants its one wait, START answers a next state: one START event
appended, PHASE = ADDR, both drivers low, every other driver register as before; receive buffer, error registers,
sequencer, filter bank, host and every byte of the slave's memory unchanged. (40_i2c_primitives.md section 3;
40_i2c_primitives.md section 4) -/
def Obligations.StartCompletes : Prop :=
  ∀ s : State, Ready s → s.drv.phase = .idle → Grants 1 s →
    ∃ t, exec .start s = .next t ∧ t.trace = s.trace ++ [.start] ∧
      t.drv = { s.drv with phase := .addr, sclO := false, sdaO := false } ∧
      t.env.peer = s.env.peer.observe .start ∧ BusFrame s t ∧ SlaveMemoryKept s t

/-- From a command boundary in WR or RDEND, if the environment grants its one wait, RESTART answers a next state: one
RESTART event appended, PHASE = ADDR, both drivers low, every other driver register as before; receive buffer, error
registers, sequencer, filter bank, host and every byte of the slave's memory unchanged. (40_i2c_primitives.md
section 3; 40_i2c_primitives.md section 4) -/
def Obligations.RestartCompletes : Prop :=
  ∀ s : State, Ready s → s.drv.phase = .wr ∨ s.drv.phase = .rdend → Grants 1 s →
    ∃ t, exec .restart s = .next t ∧ t.trace = s.trace ++ [.restart] ∧
      t.drv = { s.drv with phase := .addr, sclO := false, sdaO := false } ∧
      t.env.peer = s.env.peer.observe .restart ∧ BusFrame s t ∧ SlaveMemoryKept s t

/-- From a command boundary in ADDR or WR, if the environment grants its nine waits, SEND b answers a next state: the
event TX(b, a) appended with a the level the environment answers; ACKSTAT = a; NAKCNT grown by one if a = 1 and held
at 255; PHASE = RD if it was ADDR and bit 0 of b is 1, else WR; SCL_O = 0, SDA_O = 1; BUSY and RDATA, receive
buffer, error registers, sequencer, filter bank and host unchanged. (40_i2c_primitives.md section 3; 10_state.md
section 3) -/
def Obligations.SendCompletes : Prop :=
  ∀ (b : Byte) (s : State), Ready s → s.drv.phase = .addr ∨ s.drv.phase = .wr → Grants 9 s →
    ∃ t, exec (.send b) s = .next t ∧ t.trace = s.trace ++ [.tx b (s.ackLevel b)] ∧
      t.drv = { s.drv with ackstat := s.ackLevel b, nakcnt := t.drv.nakcnt, sclO := false, sdaO := true,
                           phase := if s.drv.phase = .addr ∧ b.getLsbD 0 = true then .rd else .wr } ∧
      t.drv.nakcnt.toNat = min 255 (s.drv.nakcnt.toNat + if s.ackLevel b = true then 1 else 0) ∧
      t.env.peer = s.env.peer.observe (.tx b (s.ackLevel b)) ∧ BusFrame s t

/-- With the reference slave on the wires and its memory in canonical form, a completed SEND b stores b at the address
the slave's pointer holds exactly when the slave is taking data, and then every other byte of its memory reads as
before and its pointer is one further; in every other case every byte of its memory reads as before. (20_memory.md
section 3) -/
def Obligations.SendStoresAtTheSlavesPointer : Prop :=
  ∀ (b : Byte) (s : State) (d : RefSlave), Ready s → s.drv.phase = .addr ∨ s.drv.phase = .wr → Grants 9 s →
    s.env.peer = .reference d → Memory.wf d.mem = true →
    ∃ t d', exec (.send b) s = .next t ∧ t.env.peer = .reference d' ∧
      (d.sel = .wData → d'.ptr = d.ptr + 1 ∧
        ∀ a, Memory.read d'.mem a = if a = d.ptr.toNat then b else Memory.read d.mem a) ∧
      (d.sel ≠ .wData → ∀ a, Memory.read d'.mem a = Memory.read d.mem a)

/-- From a command boundary in RD, if the environment grants its eight waits, RECV answers a next state: the event RX(d)
appended with d the byte the environment answers; RDATA = d, PHASE = RDACK, SCL_O = 0, SDA_O = 1; BUSY, ACKSTAT and
NAKCNT as before; receive buffer (RXBUF and RXCNT), error registers, sequencer, filter bank, host and every byte of
the slave's memory unchanged. (40_i2c_primitives.md section 3) -/
def Obligations.RecvCompletes : Prop :=
  ∀ s : State, Ready s → s.drv.phase = .rd → Grants 8 s →
    ∃ t, exec .recv s = .next t ∧ t.trace = s.trace ++ [.rx s.rxByte] ∧
      t.drv = { s.drv with rdata := s.rxByte, phase := .rdack, sclO := false, sdaO := true } ∧
      t.env.peer = s.env.peer.observe (.rx s.rxByte) ∧ BusFrame s t ∧ SlaveMemoryKept s t

/-- From a command boundary in RDACK, if the environment grants its one wait, MACK v answers a next state: the event
MACK(v) appended; PHASE = RD for level 0, RDEND for level 1; SCL_O = 0, SDA_O = 1; BUSY, ACKSTAT, NAKCNT and RDATA
as before; receive buffer, error registers, sequencer, filter bank, host and every byte of the slave's memory
unchanged. (40_i2c_primitives.md section 3) -/
def Obligations.MackCompletes : Prop :=
  ∀ (v : Level) (s : State), Ready s → s.drv.phase = .rdack → Grants 1 s →
    ∃ t, exec (.mack v) s = .next t ∧ t.trace = s.trace ++ [.mack v] ∧
      t.drv = { s.drv with phase := if v = true then .rdend else .rd, sclO := false, sdaO := true } ∧
      t.env.peer = s.env.peer.observe (.mack v) ∧ BusFrame s t ∧ SlaveMemoryKept s t

/-- From a command boundary in WR or RDEND, if the environment grants its two waits, STOP answers a next state: one STOP
event appended, PHASE = IDLE, both drivers released, every other driver register as before; receive buffer, error
registers, sequencer, filter bank, host and every byte of the slave's memory unchanged. (40_i2c_primitives.md
section 3; 40_i2c_primitives.md section 4) -/
def Obligations.StopCompletes : Prop :=
  ∀ s : State, Ready s → s.drv.phase = .wr ∨ s.drv.phase = .rdend → Grants 2 s →
    ∃ t, exec .stop s = .next t ∧ t.trace = s.trace ++ [.stop] ∧
      t.drv = { s.drv with phase := .idle, sclO := true, sdaO := true } ∧
      t.env.peer = s.env.peer.observe .stop ∧ BusFrame s t ∧ SlaveMemoryKept s t

/-- From a command boundary, for every command with legal operands: where the table has PROTO the command, in every
environment, raises PROTO with its own word and nothing else changes; where the table has a phase, the command, if
the environment grants its waits, completes without an error and PHASE takes that value. From every phase at most
four legal primitives, the last of them STOP, lead to IDLE. (R121) -/
def Obligations.PhaseTableDecides : Prop :=
  (∀ (i : Instr) (s : State), Ready s → i.wellFormed = true →
      (phaseTable i s.drv.phase = none → exec i s = .next { s with err := ⟨some .proto, encode i⟩ }) ∧
      (∀ p, phaseTable i s.drv.phase = some p → Grants (waitsOf i) s →
        ∃ t, exec i s = .next t ∧ t.drv.phase = p ∧ t.drv.busy = false ∧ t.err = s.err ∧ Boundary t)) ∧
    ∀ p : Phase, ∃ is : List Instr, is.length ≤ 3 ∧ (∀ i ∈ is, isPrimitive i = true) ∧
      phaseAfterAll (is ++ [.stop]) p = some .idle

/-- From a command boundary, in every environment whatever its answers, a legal primitive answers a next state in which
either BUSY = 0, exactly its event is appended and seen by the peer on the wires, PHASE is the table's, ACKSTAT and
NAKCNT are as before unless it is SEND, which records the level the environment answers and counts a level 1 up to
255, RDATA is as before unless it is RECV, which takes the byte the environment answers, and the frame of a
primitive holds; or BUSY = 1 and nothing is appended, PHASE, flags, receive buffer, error registers and filter bank
are as before and the peer has seen nothing. (40_i2c_primitives.md section 1; 60_exceptions.md section 4;
10_state.md section 3) -/
def Obligations.PrimitivesInAnyEnvironment : Prop :=
  ∀ (i : Instr) (s : State), Ready s → isPrimitive i = true → phaseTable i s.drv.phase ≠ none →
    ∃ t, exec i s = .next t ∧
      ((t.drv.busy = false ∧ t.trace = s.trace ++ primitiveEvent s i ∧ phaseTable i s.drv.phase = some t.drv.phase ∧
          t.env.peer = (primitiveEvent s i).foldl BusPeer.observe s.env.peer ∧
          (∀ b, i = .send b → t.drv.ackstat = s.ackLevel b ∧
            t.drv.nakcnt.toNat = min 255 (s.drv.nakcnt.toNat + if s.ackLevel b = true then 1 else 0)) ∧
          ((∀ b, i ≠ .send b) → t.drv.ackstat = s.drv.ackstat ∧ t.drv.nakcnt = s.drv.nakcnt) ∧
          t.drv.rdata = (if i = .recv then s.rxByte else s.drv.rdata) ∧ BusFrame s t) ∨
       (t.drv.busy = true ∧ t.trace = s.trace ∧ t.rx = s.rx ∧ t.err = s.err ∧ t.fb = s.fb ∧ t.host = s.host ∧
          t.env.peer = s.env.peer ∧
          t.drv = { s.drv with busy := true, sclO := t.drv.sclO, sdaO := t.drv.sdaO }))

/-- For every command and every two states that differ only in ACKSTAT and NAKCNT, the command answers next states that
differ at most in ACKSTAT and NAKCNT. (60_exceptions.md section 1; 10_state.md section 9) -/
def Obligations.AcknowledgeFlagsAreNeverTested : Prop :=
  ∀ (i : Instr) (s : State) (a : Level) (n : BitVec 8),
    ∃ t t', exec i s = .next t ∧ exec i { s with drv := { s.drv with ackstat := a, nakcnt := n } } = .next t' ∧
      t' = { t with drv := { t.drv with ackstat := t'.drv.ackstat, nakcnt := t'.drv.nakcnt } }

/-- From a command boundary, for every bus command that completes in whatever environment: an observer who knows the
wires as PHASE leaves them reads from the command's waveform exactly the events the command appended to the trace,
and ends knowing the wires as the new PHASE leaves them. The observer is this model's: that it takes a bit the block
sampled as a slave's, that it holds the eight bits of a received byte until their acknowledge bit, and that it reads
RX before MACK is log 12, and the record of the waveform it reads is log 16, both the model's choice; R137 does not
say how an observer knows who drove a bit. (40_i2c_primitives.md section 4) -/
def Obligations.WiresReadBackAsTheTrace : Prop :=
  ∀ (i : Instr) (s t : State), Ready s → i.wellFormed = true → isFilter i = false → phaseTable i s.drv.phase ≠ none →
    exec i s = .next t → t.drv.busy = false →
    ∃ es, t.trace = s.trace ++ es ∧ s.wireView.read t.wave = (t.wireView, es)

/-! ## The composite commands -/

/-- From a command boundary in IDLE, if the environment grants its 90 waits, CONFIG answers a next state: the 15 events
of the writes of CFG_XL_VAL to 0x10, CFG_G_VAL to 0x11 and CFG_IF_VAL to 0x12 appended in this order, with nine
levels, each the one the environment answers on the bus as it stands after the primitives before it (its draw is the
model's, log 3); ACKSTAT is the ninth of them, NAKCNT grown by the number of levels 1 and held at 255; PHASE, the
drivers and RDATA as before; the peer on the wires has seen exactly these events; receive buffer, error registers,
sequencer, filter bank and host unchanged. (41_imu_protocol.md section 1) -/
def Obligations.ConfigWritesThreeRegisters : Prop :=
  ∀ s : State, Ready s → s.drv.phase = .idle → Grants (waitsOf .config) s →
    ∃ (t : State) (a : Fin 9 → Level), exec .config s = .next t ∧
      t.trace = s.trace ++ trafficOf configPrimitives s ∧
      trafficOf configPrimitives s = memWriteEvents 0x10#8 Config.cfgXlVal (a 0) (a 1) (a 2)
        ++ memWriteEvents 0x11#8 Config.cfgGVal (a 3) (a 4) (a 5)
        ++ memWriteEvents 0x12#8 Config.cfgIfVal (a 6) (a 7) (a 8) ∧
      t.drv = { s.drv with ackstat := a 8, nakcnt := t.drv.nakcnt } ∧
      t.drv.nakcnt.toNat = min 255 (s.drv.nakcnt.toNat + (List.ofFn a).count true) ∧
      t.env.peer = (t.trace.drop s.trace.length).foldl BusPeer.observe s.env.peer ∧ BusFrame s t

/-- With the reference slave at the IMU's address on the wires, its memory in canonical form and every wait proceeding,
CONFIG from IDLE leaves registers 0x10, 0x11, 0x12 of the slave with CFG_XL_VAL, CFG_G_VAL, CFG_IF_VAL, every other
register of it as before, its pointer at 0x13 and no byte counted as not acknowledged. (20_memory.md section 3;
41_imu_protocol.md section 1) -/
def Obligations.ConfigOnTheReferenceSlave : Prop :=
  ∀ (s : State) (d : RefSlave), Ready s → s.drv.phase = .idle → s.env = Env.withSlave d → d.a7 = 0b1101011#7 →
    Memory.wf d.mem = true →
    ∃ t d', exec .config s = .next t ∧ t.env.peer = .reference d' ∧
      (∀ a, Memory.read d'.mem a = if a = 0x10 then Config.cfgXlVal else if a = 0x11 then Config.cfgGVal
        else if a = 0x12 then Config.cfgIfVal else Memory.read d.mem a) ∧
      d'.ptr = 0x13#8 ∧ d'.sel = .none ∧ t.drv = { s.drv with ackstat := false } ∧ BusFrame s t

/-- From a command boundary in IDLE, for every start register and every count c of 1 to 14, if the environment grants
its 31 + 9 c waits, BREAD answers a next state: the events of the burst read appended, with the bytes and the three
levels, each the one the environment answers on the bus as it stands after the primitives before it (its draw is the
model's, log 3); RXBUF[0..c-1] hold the bytes in the order received and RXBUF[c..13] their old values; RXCNT = c;
RDATA is the last byte; ACKSTAT is the third level, NAKCNT grown by the number of levels 1 and held at 255; the peer
on the wires has seen exactly these events; PHASE and the drivers as before; error registers, sequencer, filter
bank, host and every byte of the slave's memory unchanged. (41_imu_protocol.md section 1; 10_state.md section 4) -/
def Obligations.BurstReadCompletes : Prop :=
  ∀ (r c : Byte) (s : State), Ready s → s.drv.phase = .idle → 1 ≤ c.toNat → c.toNat ≤ 14 →
    Grants (waitsOf (.bread r c)) s →
    ∃ (t : State) (ds : List Byte) (a0 a1 a2 : Level), exec (.bread r c) s = .next t ∧ ds.length = c.toNat ∧
      t.trace = s.trace ++ trafficOf (breadPrimitives r c.toNat) s ∧
      trafficOf (breadPrimitives r c.toNat) s = memReadEvents r ds a0 a1 a2 ∧
      (∀ i, t.rx.byte i = if i < c.toNat then ds.getD i 0 else s.rx.byte i) ∧ t.rx.rxcnt.toNat = c.toNat ∧
      t.drv = { s.drv with rdata := ds.getLastD 0, ackstat := a2, nakcnt := t.drv.nakcnt } ∧
      t.drv.nakcnt.toNat = min 255 (s.drv.nakcnt.toNat + [a0, a1, a2].count true) ∧
      t.env.peer = (t.trace.drop s.trace.length).foldl BusPeer.observe s.env.peer ∧
      t.err = s.err ∧ t.sq = s.sq ∧ t.fb = s.fb ∧ t.host = s.host ∧ Boundary t ∧ SlaveMemoryKept s t

/-- Against a simulated slave that answers a burst read with the bytes b0..b13 (and anything to the acknowledges), the
completed BREAD r, 14 leaves, for k = 0..6, CH[k] equal to the pattern b[2k] | (b[2k+1] << 8), which as a signed
number is b[2k] + 256 b[2k+1], less 65536 when that is 32768 or more. (41_imu_protocol.md section 3;
95_test_vectors.md T5) -/
def Obligations.SampleAssemblesSevenChannels : Prop :=
  ∀ (r : Byte) (s : State) (acks : List Level) (bs rest : List Byte), Ready s → s.drv.phase = .idle →
    bs.length = 14 → s.env = ⟨.prompt, .script acks (bs ++ rest)⟩ →
    ∃ t, exec (.bread r 14#8) s = .next t ∧ t.drv.busy = false ∧
      ∀ k, k < 7 →
        (t.rx.channel k).toNat = (bs.getD (2 * k) 0).toNat + 256 * (bs.getD (2 * k + 1) 0).toNat ∧
        (t.rx.channel k).toInt =
          (if (bs.getD (2 * k + 1) 0).toNat < 128 then (0 : Int) else -65536)
            + (bs.getD (2 * k) 0).toNat + 256 * (bs.getD (2 * k + 1) 0).toNat

/-- With the reference slave at the IMU's address on the wires and every wait proceeding, BREAD r, c from IDLE leaves
RXBUF[i] equal to the slave's register (r + i) mod 256 for every i < c, the slave's memory as before and its pointer
at r + c, and no byte counted as not acknowledged. (20_memory.md section 3; 41_imu_protocol.md section 1) -/
def Obligations.BurstReadOfTheReferenceSlave : Prop :=
  ∀ (r c : Byte) (s : State) (d : RefSlave), Ready s → s.drv.phase = .idle → 1 ≤ c.toNat → c.toNat ≤ 14 →
    s.env = Env.withSlave d → d.a7 = 0b1101011#7 →
    ∃ t, exec (.bread r c) s = .next t ∧ t.env.peer = .reference { d with ptr := r + c, sel := .none } ∧
      t.rx.rxcnt.toNat = c.toNat ∧ t.drv.ackstat = false ∧ t.drv.nakcnt = s.drv.nakcnt ∧
      ∀ i, i < c.toNat → t.rx.byte i = Memory.read d.mem ((r.toNat + i) % 256)

/-- From a command boundary in IDLE, for every start register and count, if the environment grants the waits, BREAD and
the primitives it stands for, issued one by one, end with the same driver registers, trace, environment, error
registers, sequencer, filter bank and host; the primitives leave the receive buffer as it was. (41_imu_protocol.md
section 1; 30_encoding.md section 5) -/
def Obligations.BurstReadIsItsPrimitives : Prop :=
  ∀ (r c : Byte) (s : State), Ready s → s.drv.phase = .idle → 1 ≤ c.toNat → c.toNat ≤ 14 →
    Grants (waitsOf (.bread r c)) s →
    ∃ t u, exec (.bread r c) s = .next t ∧ execAll (breadPrimitives r c.toNat) s = .next u ∧
      t.drv = u.drv ∧ t.trace = u.trace ∧ t.env = u.env ∧ t.err = u.err ∧ t.sq = u.sq ∧ t.fb = u.fb ∧
      t.host = u.host ∧ u.rx = s.rx

/-- From a command boundary in IDLE, if the environment grants the waits, CONFIG and the fifteen primitives it stands
for, issued one by one, end with the same registers of the block, trace, environment and host. (41_imu_protocol.md
section 1) -/
def Obligations.ConfigIsItsPrimitives : Prop :=
  ∀ s : State, Ready s → s.drv.phase = .idle → Grants (waitsOf .config) s →
    ∃ t u, exec .config s = .next t ∧ execAll configPrimitives s = .next u ∧
      SameBlock u t ∧ t.trace = u.trace ∧ t.env = u.env ∧ t.host = u.host

/-- With the reference slave at the IMU's address on the wires, its memory in canonical form and every wait proceeding,
START, SEND 0xD6, SEND r, SEND v, STOP from IDLE complete, append the five events of MemWrite(r, 1, v), each byte
acknowledged, and leave register r of the slave at v, every other register of it as before and its pointer at r + 1;
of the block only ACKSTAT may differ, and it is 0. (41_imu_protocol.md section 1; 30_encoding.md section 5;
95_test_vectors.md P1) -/
def Obligations.RegisterWriteInPrimitives : Prop :=
  ∀ (r v : Byte) (s : State) (d : RefSlave), Ready s → s.drv.phase = .idle → s.env = Env.withSlave d →
    d.a7 = 0b1101011#7 → Memory.wf d.mem = true →
    ∃ t d', execAll (writePrimitives r v) s = .next t ∧ t.env.peer = .reference d' ∧
      t.trace = s.trace ++ memWriteEvents r v false false false ∧
      (∀ a, Memory.read d'.mem a = if a = r.toNat then v else Memory.read d.mem a) ∧
      d'.ptr = r + 1#8 ∧ d'.sel = .none ∧ t.drv = { s.drv with ackstat := false } ∧ BusFrame s t

/-! ## The filter bank -/

/-- The word of FCLEAR is 0xB00000. When BUSY = 0 and no error is recorded, FCLEAR answers a next state in which SUM,
IDX, HIST, the output registers, OVALID and every slot of the four capture arrays are 0, ARMED = 0, FBSTAT reads 0,
and nothing but the filter bank has changed, whatever the phase; there a second FCLEAR and every FPUSH change
nothing. After reset FCLEAR changes nothing. (R195) -/
def Obligations.FclearClears : Prop :=
  encode .fclear = 0xB00000#24 ∧ exec .fclear State.reset = .next State.reset ∧
    ∀ s : State, s.drv.busy = false → s.err.errcode = none →
      ∃ t, exec .fclear s = .next t ∧ FilterZero t.fb ∧ t.fb.armed = false ∧ OnlyFilter s t ∧ t.choice = s.choice ∧
        t.hostRead 0x006#12 = 0#32 ∧ exec .fclear t = .next t ∧ ∀ x : Sample, exec (.fpush x) t = .next t

/-- The word of FRESET is 0xC00000. When BUSY = 0 and no error is recorded, FRESET answers a next state in which SUM,
IDX, HIST, the output registers, OVALID and every slot of the four capture arrays are 0, ARMED = 1, FBSTAT reads 1,
and nothing but the filter bank has changed, whatever the phase and whatever window was open; it is the state after
FCLEAR with ARMED = 1; a second FRESET changes nothing. (R196) -/
def Obligations.FresetArmsAFreshWindow : Prop :=
  encode .freset = 0xC00000#24 ∧
    ∀ s : State, s.drv.busy = false → s.err.errcode = none →
      ∃ t, exec .freset s = .next t ∧ FilterZero t.fb ∧ t.fb.armed = true ∧ OnlyFilter s t ∧ t.choice = s.choice ∧
        t.hostRead 0x006#12 = 1#32 ∧ exec .freset t = .next t ∧
        exec .fclear s = .next { t with fb := { t.fb with armed := false } }

/-- In a state that meets the invariant, with BUSY = 0, no error recorded and ARMED = 1, FPUSH x answers a next state in
which the filter bank is the one the pseudocode gives from the old one, every sum the exact integer, IDX advanced or
at 99 wrapped to 0 with ARMED cleared, slot IDX of the four capture arrays written and every other slot as before,
and nothing but the filter bank has changed. (42_filter_bank.md section 2; 42_filter_bank.md section 3) -/
def Obligations.FpushTakesTheSample : Prop :=
  ∀ (x : Sample) (s : State), Inv s → s.drv.busy = false → s.err.errcode = none → s.fb.armed = true →
    ∃ t, exec (.fpush x) s = .next t ∧ Pushed x s.fb t.fb ∧ OnlyFilter s t ∧ t.choice = s.choice

/-- In a state that meets the invariant, with BUSY = 0, no error recorded and ARMED = 1, FPUSHC k for k = 0..6 answers
the very next state FPUSH of CH[k] answers: the push of CH[k] = RXBUF[2k+1] ++ RXBUF[2k], nothing but the filter
bank changed. (42_filter_bank.md section 2) -/
def Obligations.FpushcPushesTheChannel : Prop :=
  ∀ (k : BitVec 3) (s : State), k.toNat ≤ 6 → Inv s → s.drv.busy = false → s.err.errcode = none → s.fb.armed = true →
    ∃ t, exec (.fpushc k) s = .next t ∧ exec (.fpush (s.rx.channel k.toNat)) s = .next t ∧
      Pushed (s.rx.byte (2 * k.toNat + 1) ++ s.rx.byte (2 * k.toNat)) s.fb t.fb ∧ OnlyFilter s t

/-- When BUSY = 0, no error is recorded and ARMED = 0, FPUSH with every sample and FPUSHC with every legal channel
answer the very state they started from. (R199) -/
def Obligations.PushWhileDisarmedChangesNothing : Prop :=
  ∀ s : State, s.drv.busy = false → s.err.errcode = none → s.fb.armed = false →
    (∀ x : Sample, exec (.fpush x) s = .next s) ∧ (∀ k : BitVec 3, k.toNat ≤ 6 → exec (.fpushc k) s = .next s)

/-- Every command answers a next state, in which: ACKSTAT and NAKCNT are unchanged unless it is SEND, CONFIG or BREAD;
the filter bank is unchanged unless it is a filter command, and a filter command changes neither the trace nor a bus
register; ARMED is raised only by FRESET, and lowered only by FCLEAR or by a push at IDX = 99; OVALID is raised only
by FPUSH or FPUSHC and lowered only by FCLEAR or FRESET; the error registers are unchanged unless BUSY was 0 and no
error was recorded, and then ERRCMD is the command's word. (10_state.md section 9; 60_exceptions.md section 1;
42_filter_bank.md section 2) -/
def Obligations.FlagsHaveTheirWriters : Prop :=
  ∀ (i : Instr) (s : State), ∃ t, exec i s = .next t ∧
    (t.drv.ackstat ≠ s.drv.ackstat ∨ t.drv.nakcnt ≠ s.drv.nakcnt →
      i = .config ∨ (∃ b, i = .send b) ∨ ∃ r c, i = .bread r c) ∧
    (t.fb ≠ s.fb → isFilter i = true) ∧
    (isFilter i = true → t.trace = s.trace ∧ t.drv = s.drv ∧ t.rx = s.rx ∧ t.sq = s.sq) ∧
    (s.fb.armed = false → t.fb.armed = true → i = .freset) ∧
    (s.fb.armed = true → t.fb.armed = false →
      i = .fclear ∨ (((∃ x, i = .fpush x) ∨ ∃ k, i = .fpushc k) ∧ s.fb.idx.toNat = 99)) ∧
    (s.fb.ovalid = false → t.fb.ovalid = true → (∃ x, i = .fpush x) ∨ ∃ k, i = .fpushc k) ∧
    (s.fb.ovalid = true → t.fb.ovalid = false → i = .fclear ∨ i = .freset) ∧
    (t.err ≠ s.err → s.drv.busy = false ∧ s.err.errcode = none ∧ t.err.errcmd = encode i)

/-- From a state with BUSY = 0 and no error recorded, FRESET and then FPUSH of every sample of a list of 1 to 100
samples complete, and with x[n] the last of them: MAF is the sum of x[0..n] over n+1; FIR is the sum of the six
decimal weights times x[n-j], x[k] taken as 0 for k < 0; IIR is 0.9 x[n-1] + 0.1 x[n]; XOUT is x[n] and OVALID is 1.
(42_filter_bank.md section 1; 42_filter_bank.md section 3; 95_test_vectors.md T2; 95_test_vectors.md T3;
95_test_vectors.md T4) -/
def Obligations.FiltersMatchTheirFormulas : Prop :=
  ∀ (s : State) (xs : List Sample), s.drv.busy = false → s.err.errcode = none → 1 ≤ xs.length → xs.length ≤ 100 →
    ∃ t, execAll (windowCommands xs) s = .next t ∧ OnlyFilter s t ∧ t.fb.ovalid = true ∧
      t.fb.maf = (sampleSum xs : ℚ) / (xs.length : ℚ) ∧
      t.fb.fir = 0.0264 * (sampleBack xs 0 : ℚ) + 0.1405 * (sampleBack xs 1 : ℚ) + 0.3331 * (sampleBack xs 2 : ℚ)
        + 0.3331 * (sampleBack xs 3 : ℚ) + 0.1405 * (sampleBack xs 4 : ℚ) + 0.0264 * (sampleBack xs 5 : ℚ) ∧
      t.fb.iir = 0.9 * (sampleBack xs 1 : ℚ) + 0.1 * (sampleBack xs 0 : ℚ) ∧
      t.fb.xout.toInt = sampleBack xs 0

/-- After FRESET and n+1 pushes of the constant X, n at most 99: FIRQ is 264 X, 1669 X, 5000 X, 8331 X, 9736 X for n =
0..4 and 10000 X from n = 5 on; IIRQ is X for n = 0 and 10 X from n = 1 on; MAFN is (n+1) X. So the FIR is X from n
= 5 on, the IIR is 0.1 X for n = 0, and the MAF is X for every n. (R204) -/
def Obligations.WarmUpOnAConstantInput : Prop :=
  ∀ (s : State) (x : Sample) (n : Nat), s.drv.busy = false → s.err.errcode = none → n ≤ 99 →
    ∃ t, execAll (windowCommands (List.replicate (n + 1) x)) s = .next t ∧
      t.fb.firq.toInt = (match n with
        | 0 => 264
        | 1 => 1669
        | 2 => 5000
        | 3 => 8331
        | 4 => 9736
        | _ => 10000) * x.toInt ∧
      t.fb.iirq.toInt = (if n = 0 then 1 else 10) * x.toInt ∧
      t.fb.mafn.toInt = (n + 1 : Int) * x.toInt ∧
      (5 ≤ n → t.fb.fir = x.toInt) ∧ (n = 0 → t.fb.iir = 0.1 * (x.toInt : ℚ)) ∧ t.fb.maf = x.toInt

/-- After FRESET and the pushes of a list of at most 100 samples: below 100 of them the window is armed and IDX is their
number; after the hundredth IDX = 0 and ARMED = 0; the capture slots hold the samples in order (slot i the i-th)
and, past them, 0; and once disarmed any further push changes nothing. (42_filter_bank.md section 2;
95_test_vectors.md T1; 95_test_vectors.md T6) -/
def Obligations.WindowTakesExactlyAHundredPushes : Prop :=
  ∀ (s : State) (xs : List Sample), s.drv.busy = false → s.err.errcode = none → xs.length ≤ 100 →
    ∃ t, execAll (windowCommands xs) s = .next t ∧ OnlyFilter s t ∧
      t.fb.armed = decide (xs.length < 100) ∧ t.fb.idx.toNat = (if xs.length < 100 then xs.length else 0) ∧
      t.fb.mafd.toNat = xs.length ∧
      (∀ i (h : i < 100), t.fb.capRaw[i] = xs.getD i 0) ∧
      (xs.length = 100 → ∀ ys : List Sample, execAll (ys.map .fpush) t = .next t)

/-- After FRESET and the pushes of a list of at most 100 samples, for every slot i already filled: CAP_MAFN[i],
CAP_FIRQ[i] and CAP_IIRQ[i] are the exact integers MAFN, 10000 FIR and 10 IIR of the samples up to the i-th.
(10_state.md section 7; 42_filter_bank.md section 2) -/
def Obligations.CaptureSlotsHoldTheOutputs : Prop :=
  ∀ (s : State) (xs : List Sample), s.drv.busy = false → s.err.errcode = none → xs.length ≤ 100 →
    ∃ t, execAll (windowCommands xs) s = .next t ∧
      ∀ i (h : i < 100), i < xs.length →
        t.fb.capMafn[i].toInt = sampleSum (xs.take (i + 1)) ∧
        t.fb.capFirq[i].toInt = 264 * sampleBack (xs.take (i + 1)) 0 + 1405 * sampleBack (xs.take (i + 1)) 1
          + 3331 * sampleBack (xs.take (i + 1)) 2 + 3331 * sampleBack (xs.take (i + 1)) 3
          + 1405 * sampleBack (xs.take (i + 1)) 4 + 264 * sampleBack (xs.take (i + 1)) 5 ∧
        t.fb.capIirq[i].toInt = 9 * sampleBack (xs.take (i + 1)) 1 + sampleBack (xs.take (i + 1)) 0

/-! ## The host read port -/

/-- Bit 0 of HostRead(0x000) is BUSY in every state; while BUSY = 0 bits 3:1 are the code of PHASE, bit 4 ACKSTAT, bit 5
whether an error is recorded, bit 6 SCL_O, bit 7 SDA_O, and bits 31:8 are zero; after reset the word is 0x000000C0.
(R39) -/
def Obligations.StatusWordLayout : Prop :=
  (∀ s : State, (s.hostRead 0x000#12).getLsbD 0 = s.drv.busy ∧
      (s.drv.busy = false →
        (s.hostRead 0x000#12).extractLsb' 1 3 = (match s.drv.phase with
          | .idle => 0#3
          | .addr => 1#3
          | .wr => 2#3
          | .rd => 3#3
          | .rdack => 4#3
          | .rdend => 5#3) ∧
        (s.hostRead 0x000#12).getLsbD 4 = s.drv.ackstat ∧
        (s.hostRead 0x000#12).getLsbD 5 = decide (s.err.errcode ≠ none) ∧
        (s.hostRead 0x000#12).getLsbD 6 = s.drv.sclO ∧ (s.hostRead 0x000#12).getLsbD 7 = s.drv.sdaO ∧
        (s.hostRead 0x000#12).extractLsb' 8 24 = 0#24)) ∧
    State.reset.hostRead 0x000#12 = 0x000000C0#32

/-- While BUSY = 0 bit 0 of HostRead(0x006) is ARMED, bit 1 OVALID, bits 8:2 IDX, bits 31:9 zero; after reset the word
is 0. (R40) -/
def Obligations.FbstatWordLayout : Prop :=
  (∀ s : State, s.drv.busy = false →
      (s.hostRead 0x006#12).getLsbD 0 = s.fb.armed ∧ (s.hostRead 0x006#12).getLsbD 1 = s.fb.ovalid ∧
      (s.hostRead 0x006#12).extractLsb' 2 7 = s.fb.idx ∧ (s.hostRead 0x006#12).extractLsb' 9 23 = 0#23) ∧
    State.reset.hostRead 0x006#12 = 0x00000000#32

/-- While BUSY = 0: ERRCODE, ERRCMD, RDATA, RXCNT, NAKCNT, MAFD and RXBUF read zero-extended, XOUT, MAFN, FIRQ, IIRQ,
SUM, HIST, CH and the four capture arrays read sign-extended, each at the address of the map, and every address the
map does not list reads 0. (20_memory.md section 4) -/
def Obligations.HostReadMapHolds : Prop :=
  ∀ s : State, s.drv.busy = false →
    (s.hostRead 0x001#12).toNat = (match s.err.errcode with
      | none => 0
      | some .illegalOp => 1
      | some .illegalArg => 2
      | some .proto => 3) ∧
    (s.hostRead 0x002#12).toNat = s.err.errcmd.toNat ∧ (s.hostRead 0x003#12).toNat = s.drv.rdata.toNat ∧
    (s.hostRead 0x004#12).toNat = s.rx.rxcnt.toNat ∧ (s.hostRead 0x005#12).toNat = s.drv.nakcnt.toNat ∧
    (s.hostRead 0x007#12).toInt = s.fb.xout.toInt ∧ (s.hostRead 0x008#12).toInt = s.fb.mafn.toInt ∧
    (s.hostRead 0x009#12).toNat = s.fb.mafd.toNat ∧ (s.hostRead 0x00A#12).toInt = s.fb.firq.toInt ∧
    (s.hostRead 0x00B#12).toInt = s.fb.iirq.toInt ∧ (s.hostRead 0x00C#12).toInt = s.fb.sum.toInt ∧
    (s.hostRead 0x00D#12).toInt = s.fb.hist1.toInt ∧ (s.hostRead 0x00E#12).toInt = s.fb.hist2.toInt ∧
    (s.hostRead 0x00F#12).toInt = s.fb.hist3.toInt ∧ (s.hostRead 0x010#12).toInt = s.fb.hist4.toInt ∧
    (s.hostRead 0x011#12).toInt = s.fb.hist5.toInt ∧
    (∀ i (h : i < 14), (s.hostRead (BitVec.ofNat 12 (0x020 + i))).toNat = s.rx.rxbuf[i].toNat) ∧
    (∀ k, k < 7 → (s.hostRead (BitVec.ofNat 12 (0x030 + k))).toInt = (s.rx.channel k).toInt) ∧
    (∀ i (h : i < 100), (s.hostRead (BitVec.ofNat 12 (0x100 + i))).toInt = s.fb.capRaw[i].toInt) ∧
    (∀ i (h : i < 100), (s.hostRead (BitVec.ofNat 12 (0x200 + i))).toInt = s.fb.capMafn[i].toInt) ∧
    (∀ i (h : i < 100), (s.hostRead (BitVec.ofNat 12 (0x300 + i))).toInt = s.fb.capFirq[i].toInt) ∧
    (∀ i (h : i < 100), (s.hostRead (BitVec.ofNat 12 (0x400 + i))).toInt = s.fb.capIirq[i].toInt) ∧
    (∀ a : HostAddr, (0x012 ≤ a.toNat ∧ a.toNat < 0x020) ∨ (0x02E ≤ a.toNat ∧ a.toNat < 0x030) ∨
        (0x037 ≤ a.toNat ∧ a.toNat < 0x100) ∨ (0x164 ≤ a.toNat ∧ a.toNat < 0x200) ∨
        (0x264 ≤ a.toNat ∧ a.toNat < 0x300) ∨ (0x364 ≤ a.toNat ∧ a.toNat < 0x400) ∨ 0x464 ≤ a.toNat →
      s.hostRead a = 0#32)

/-- For k = 0..6 the 16-bit pattern of CH[k] is RXBUF[2k] in its low byte and RXBUF[2k+1] in its high byte; after reset
every CH[k] is 0. (10_state.md section 4) -/
def Obligations.ChannelIsLittleEndian : Prop :=
  (∀ (s : State) (k : Nat) (h : k < 7),
      (s.rx.channel k).extractLsb' 0 8 = s.rx.rxbuf[2 * k] ∧ (s.rx.channel k).extractLsb' 8 8 = s.rx.rxbuf[2 * k + 1]) ∧
    ∀ k, k < 7 → State.reset.rx.channel k = 0#16

/-! ## Invariants -/

/-- For every state that meets the invariant (RXCNT at most 14; IDX at most 99, MAFD at most 100; OVALID = 0 implies
zero outputs; ARMED = 1 implies SUM is the sum of the captured samples and HIST the five last of them; with BUSY = 0
the drivers are those of PHASE and the sequencer is idle; with BUSY = 1 no error is recorded; the reference slave's
memory is canonical), every step that answers a next state answers one that meets it. (10_state.md section 11) -/
def Obligations.InvariantIsKept : Prop :=
  ∀ s t : State, Inv s → step s = .next t → Inv t

/-- The model's state after reset meets the invariant every step keeps. (10_state.md section 10; 10_state.md section 11) -/
def Obligations.ResetMeetsTheInvariant : Prop :=
  Inv State.reset

/-- For every state that meets the invariant and in whose trace STARTs and STOPs alternate, beginning with a START and
open exactly when PHASE is not IDLE, the same holds after every step that is not a reset. (40_i2c_primitives.md
section 2) -/
def Obligations.StartsAndStopsAlternate : Prop :=
  ∀ s t : State, Inv s → Paired s → step s = .next t → s.rst = false → Paired t

/-- In the model's state after reset the trace is empty and PHASE is IDLE, so STARTs and STOPs alternate in it.
(40_i2c_primitives.md section 2) -/
def Obligations.ResetStartsPaired : Prop :=
  Paired State.reset

/-- From a command boundary in IDLE, in every environment whatever its answers, CONFIG and BREAD with legal operands
answer a next state in which the first n of the primitives they stand for have been performed: exactly their events
are appended and seen by the peer on the wires, with the levels and bytes the environment answers on the bus as it
then stands (its draw is the model's, log 3); ACKSTAT is the last of the levels, NAKCNT has grown by the number of
levels 1 and is held at 255, RDATA is the last of the bytes, RXBUF holds the bytes from index 0 on and past them its
old values, RXCNT is their number for BREAD and as before for CONFIG; error registers, filter bank and host are
unchanged. Either n is all of them, BUSY = 0 and the block is at a command boundary in IDLE; or n is fewer and BUSY
= 1. (41_imu_protocol.md section 1; 41_imu_protocol.md section 2; 60_exceptions.md section 4; 00_scope.md section 5) -/
def Obligations.CompositesInAnyEnvironment : Prop :=
  ∀ (i : Instr) (s : State), Ready s → s.drv.phase = .idle → i.wellFormed = true → isPrimitive i = false →
    isFilter i = false →
    ∃ (t : State) (n : Nat), exec i s = .next t ∧ Recorded (trafficOf ((primitivesOf i).take n) s) s t ∧
      (i = .config → t.rx = s.rx) ∧
      (i ≠ .config → t.rx.rxcnt.toNat = (receivedBytes (trafficOf ((primitivesOf i).take n) s)).length) ∧
      ((n = (primitivesOf i).length ∧ t.drv.busy = false ∧ t.drv.phase = .idle ∧ Boundary t) ∨
       (n < (primitivesOf i).length ∧ t.drv.busy = true))
end

