-- ==== Sys2Proof/Laws/State.lean ====
section
/-! SUPPORT. What each field of the state is after each update: one lemma per field per update, so that no later proof
unfolds a record update. -/
namespace Sys2Proof.Laws
open Sys2Proof.Machine

@[simp] theorem setScl_drv (v : Level) (s : State) : (setScl v s).drv = { s.drv with sclO := v } := rfl
@[simp] theorem setScl_rx (v : Level) (s : State) : (setScl v s).rx = s.rx := rfl
@[simp] theorem setScl_err (v : Level) (s : State) : (setScl v s).err = s.err := rfl
@[simp] theorem setScl_sq (v : Level) (s : State) : (setScl v s).sq = s.sq := rfl
@[simp] theorem setScl_fb (v : Level) (s : State) : (setScl v s).fb = s.fb := rfl
@[simp] theorem setScl_trace (v : Level) (s : State) : (setScl v s).trace = s.trace := rfl
@[simp] theorem setScl_env (v : Level) (s : State) : (setScl v s).env = s.env := rfl
@[simp] theorem setScl_host (v : Level) (s : State) : (setScl v s).host = s.host := rfl
@[simp] theorem setScl_wave (v : Level) (s : State) : (setScl v s).wave = s.wave ++ [.drive v s.drv.sdaO] := rfl
@[simp] theorem setScl_choice (v : Level) (s : State) : (setScl v s).choice = s.choice := rfl

@[simp] theorem setSda_drv (v : Level) (s : State) : (setSda v s).drv = { s.drv with sdaO := v } := rfl
@[simp] theorem setSda_rx (v : Level) (s : State) : (setSda v s).rx = s.rx := rfl
@[simp] theorem setSda_err (v : Level) (s : State) : (setSda v s).err = s.err := rfl
@[simp] theorem setSda_sq (v : Level) (s : State) : (setSda v s).sq = s.sq := rfl
@[simp] theorem setSda_fb (v : Level) (s : State) : (setSda v s).fb = s.fb := rfl
@[simp] theorem setSda_trace (v : Level) (s : State) : (setSda v s).trace = s.trace := rfl
@[simp] theorem setSda_env (v : Level) (s : State) : (setSda v s).env = s.env := rfl
@[simp] theorem setSda_host (v : Level) (s : State) : (setSda v s).host = s.host := rfl
@[simp] theorem setSda_wave (v : Level) (s : State) : (setSda v s).wave = s.wave ++ [.drive s.drv.sclO v] := rfl
@[simp] theorem setSda_choice (v : Level) (s : State) : (setSda v s).choice = s.choice := rfl

@[simp] theorem passWait_drv (s : State) : (s.passWait).drv = s.drv := rfl
@[simp] theorem passWait_rx (s : State) : (s.passWait).rx = s.rx := rfl
@[simp] theorem passWait_err (s : State) : (s.passWait).err = s.err := rfl
@[simp] theorem passWait_sq (s : State) : (s.passWait).sq = s.sq := rfl
@[simp] theorem passWait_fb (s : State) : (s.passWait).fb = s.fb := rfl
@[simp] theorem passWait_trace (s : State) : (s.passWait).trace = s.trace := rfl
@[simp] theorem passWait_env (s : State) : (s.passWait).env = s.env.passed := rfl
@[simp] theorem passWait_host (s : State) : (s.passWait).host = s.host := rfl
@[simp] theorem passWait_wave (s : State) : (s.passWait).wave = s.wave ++ [.waited] := rfl
@[simp] theorem passWait_choice (s : State) : (s.passWait).choice = s.choice + 1 := rfl

@[simp] theorem sampled_drv (l : Level) (s : State) : (s.sampled l).drv = s.drv := rfl
@[simp] theorem sampled_rx (l : Level) (s : State) : (s.sampled l).rx = s.rx := rfl
@[simp] theorem sampled_err (l : Level) (s : State) : (s.sampled l).err = s.err := rfl
@[simp] theorem sampled_sq (l : Level) (s : State) : (s.sampled l).sq = s.sq := rfl
@[simp] theorem sampled_fb (l : Level) (s : State) : (s.sampled l).fb = s.fb := rfl
@[simp] theorem sampled_trace (l : Level) (s : State) : (s.sampled l).trace = s.trace := rfl
@[simp] theorem sampled_env (l : Level) (s : State) : (s.sampled l).env = s.env := rfl
@[simp] theorem sampled_host (l : Level) (s : State) : (s.sampled l).host = s.host := rfl
@[simp] theorem sampled_wave (l : Level) (s : State) : (s.sampled l).wave = s.wave ++ [.sample (s.sdaIn l)] := rfl
@[simp] theorem sampled_choice (l : Level) (s : State) : (s.sampled l).choice = s.choice := rfl

@[simp] theorem emit_drv (e : BusEvent) (s : State) : (emit e s).drv = s.drv := rfl
@[simp] theorem emit_rx (e : BusEvent) (s : State) : (emit e s).rx = s.rx := rfl
@[simp] theorem emit_err (e : BusEvent) (s : State) : (emit e s).err = s.err := rfl
@[simp] theorem emit_sq (e : BusEvent) (s : State) : (emit e s).sq = s.sq := rfl
@[simp] theorem emit_fb (e : BusEvent) (s : State) : (emit e s).fb = s.fb := rfl
@[simp] theorem emit_trace (e : BusEvent) (s : State) : (emit e s).trace = s.trace ++ [e] := rfl
@[simp] theorem emit_env (e : BusEvent) (s : State) : (emit e s).env = s.env.observe e := rfl
@[simp] theorem emit_host (e : BusEvent) (s : State) : (emit e s).host = s.host := rfl
@[simp] theorem emit_wave (e : BusEvent) (s : State) : (emit e s).wave = s.wave := rfl
@[simp] theorem emit_choice (e : BusEvent) (s : State) : (emit e s).choice = s.choice + 1 := rfl

@[simp] theorem setPhase_drv (p : Phase) (s : State) : (setPhase p s).drv = { s.drv with phase := p } := rfl
@[simp] theorem setPhase_rx (p : Phase) (s : State) : (setPhase p s).rx = s.rx := rfl
@[simp] theorem setPhase_err (p : Phase) (s : State) : (setPhase p s).err = s.err := rfl
@[simp] theorem setPhase_sq (p : Phase) (s : State) : (setPhase p s).sq = s.sq := rfl
@[simp] theorem setPhase_fb (p : Phase) (s : State) : (setPhase p s).fb = s.fb := rfl
@[simp] theorem setPhase_trace (p : Phase) (s : State) : (setPhase p s).trace = s.trace := rfl
@[simp] theorem setPhase_env (p : Phase) (s : State) : (setPhase p s).env = s.env := rfl
@[simp] theorem setPhase_host (p : Phase) (s : State) : (setPhase p s).host = s.host := rfl
@[simp] theorem setPhase_wave (p : Phase) (s : State) : (setPhase p s).wave = s.wave := rfl
@[simp] theorem setPhase_choice (p : Phase) (s : State) : (setPhase p s).choice = s.choice := rfl

@[simp] theorem recordAck_drv (a : Level) (s : State) : (recordAck a s).drv = { s.drv with ackstat := a, nakcnt := nakCount s.drv.nakcnt a } := rfl
@[simp] theorem recordAck_rx (a : Level) (s : State) : (recordAck a s).rx = s.rx := rfl
@[simp] theorem recordAck_err (a : Level) (s : State) : (recordAck a s).err = s.err := rfl
@[simp] theorem recordAck_sq (a : Level) (s : State) : (recordAck a s).sq = s.sq := rfl
@[simp] theorem recordAck_fb (a : Level) (s : State) : (recordAck a s).fb = s.fb := rfl
@[simp] theorem recordAck_trace (a : Level) (s : State) : (recordAck a s).trace = s.trace := rfl
@[simp] theorem recordAck_env (a : Level) (s : State) : (recordAck a s).env = s.env := rfl
@[simp] theorem recordAck_host (a : Level) (s : State) : (recordAck a s).host = s.host := rfl
@[simp] theorem recordAck_wave (a : Level) (s : State) : (recordAck a s).wave = s.wave := rfl
@[simp] theorem recordAck_choice (a : Level) (s : State) : (recordAck a s).choice = s.choice := rfl

@[simp] theorem beginBus_drv (s : State) : (beginBus s).drv = { s.drv with busy := true } := rfl
@[simp] theorem beginBus_rx (s : State) : (beginBus s).rx = s.rx := rfl
@[simp] theorem beginBus_err (s : State) : (beginBus s).err = s.err := rfl
@[simp] theorem beginBus_sq (s : State) : (beginBus s).sq = s.sq := rfl
@[simp] theorem beginBus_fb (s : State) : (beginBus s).fb = s.fb := rfl
@[simp] theorem beginBus_trace (s : State) : (beginBus s).trace = s.trace := rfl
@[simp] theorem beginBus_env (s : State) : (beginBus s).env = s.env := rfl
@[simp] theorem beginBus_host (s : State) : (beginBus s).host = s.host := rfl
@[simp] theorem beginBus_wave (s : State) : (beginBus s).wave = [] := rfl
@[simp] theorem beginBus_choice (s : State) : (beginBus s).choice = s.choice := rfl

@[simp] theorem endBus_drv (s : State) : (endBus s).drv = { s.drv with busy := false } := rfl
@[simp] theorem endBus_rx (s : State) : (endBus s).rx = s.rx := rfl
@[simp] theorem endBus_err (s : State) : (endBus s).err = s.err := rfl
@[simp] theorem endBus_sq (s : State) : (endBus s).sq = { s.sq with shreg := 0 } := rfl
@[simp] theorem endBus_fb (s : State) : (endBus s).fb = s.fb := rfl
@[simp] theorem endBus_trace (s : State) : (endBus s).trace = s.trace := rfl
@[simp] theorem endBus_env (s : State) : (endBus s).env = s.env := rfl
@[simp] theorem endBus_host (s : State) : (endBus s).host = s.host := rfl
@[simp] theorem endBus_wave (s : State) : (endBus s).wave = s.wave := rfl
@[simp] theorem endBus_choice (s : State) : (endBus s).choice = s.choice := rfl

@[simp] theorem shiftIn_drv (v : Level) (s : State) : (shiftIn v s).drv = s.drv := rfl
@[simp] theorem shiftIn_rx (v : Level) (s : State) : (shiftIn v s).rx = s.rx := rfl
@[simp] theorem shiftIn_err (v : Level) (s : State) : (shiftIn v s).err = s.err := rfl
@[simp] theorem shiftIn_sq (v : Level) (s : State) : (shiftIn v s).sq = { s.sq with shreg := s.sq.shreg.shiftConcat v } := rfl
@[simp] theorem shiftIn_fb (v : Level) (s : State) : (shiftIn v s).fb = s.fb := rfl
@[simp] theorem shiftIn_trace (v : Level) (s : State) : (shiftIn v s).trace = s.trace := rfl
@[simp] theorem shiftIn_env (v : Level) (s : State) : (shiftIn v s).env = s.env := rfl
@[simp] theorem shiftIn_host (v : Level) (s : State) : (shiftIn v s).host = s.host := rfl
@[simp] theorem shiftIn_wave (v : Level) (s : State) : (shiftIn v s).wave = s.wave := rfl
@[simp] theorem shiftIn_choice (v : Level) (s : State) : (shiftIn v s).choice = s.choice := rfl

@[simp] theorem countBit_drv (s : State) : (countBit s).drv = s.drv := rfl
@[simp] theorem countBit_rx (s : State) : (countBit s).rx = s.rx := rfl
@[simp] theorem countBit_err (s : State) : (countBit s).err = s.err := rfl
@[simp] theorem countBit_sq (s : State) : (countBit s).sq = { s.sq with bitcnt := s.sq.bitcnt + 1 } := rfl
@[simp] theorem countBit_fb (s : State) : (countBit s).fb = s.fb := rfl
@[simp] theorem countBit_trace (s : State) : (countBit s).trace = s.trace := rfl
@[simp] theorem countBit_env (s : State) : (countBit s).env = s.env := rfl
@[simp] theorem countBit_host (s : State) : (countBit s).host = s.host := rfl
@[simp] theorem countBit_wave (s : State) : (countBit s).wave = s.wave := rfl
@[simp] theorem countBit_choice (s : State) : (countBit s).choice = s.choice := rfl

@[simp] theorem loadShift_drv (b : Byte) (s : State) : (loadShift b s).drv = s.drv := rfl
@[simp] theorem loadShift_rx (b : Byte) (s : State) : (loadShift b s).rx = s.rx := rfl
@[simp] theorem loadShift_err (b : Byte) (s : State) : (loadShift b s).err = s.err := rfl
@[simp] theorem loadShift_sq (b : Byte) (s : State) : (loadShift b s).sq = { s.sq with shreg := b, bitcnt := 0 } := rfl
@[simp] theorem loadShift_fb (b : Byte) (s : State) : (loadShift b s).fb = s.fb := rfl
@[simp] theorem loadShift_trace (b : Byte) (s : State) : (loadShift b s).trace = s.trace := rfl
@[simp] theorem loadShift_env (b : Byte) (s : State) : (loadShift b s).env = s.env := rfl
@[simp] theorem loadShift_host (b : Byte) (s : State) : (loadShift b s).host = s.host := rfl
@[simp] theorem loadShift_wave (b : Byte) (s : State) : (loadShift b s).wave = s.wave := rfl
@[simp] theorem loadShift_choice (b : Byte) (s : State) : (loadShift b s).choice = s.choice := rfl

@[simp] theorem clearBitcnt_drv (s : State) : (clearBitcnt s).drv = s.drv := rfl
@[simp] theorem clearBitcnt_rx (s : State) : (clearBitcnt s).rx = s.rx := rfl
@[simp] theorem clearBitcnt_err (s : State) : (clearBitcnt s).err = s.err := rfl
@[simp] theorem clearBitcnt_sq (s : State) : (clearBitcnt s).sq = { s.sq with bitcnt := 0 } := rfl
@[simp] theorem clearBitcnt_fb (s : State) : (clearBitcnt s).fb = s.fb := rfl
@[simp] theorem clearBitcnt_trace (s : State) : (clearBitcnt s).trace = s.trace := rfl
@[simp] theorem clearBitcnt_env (s : State) : (clearBitcnt s).env = s.env := rfl
@[simp] theorem clearBitcnt_host (s : State) : (clearBitcnt s).host = s.host := rfl
@[simp] theorem clearBitcnt_wave (s : State) : (clearBitcnt s).wave = s.wave := rfl
@[simp] theorem clearBitcnt_choice (s : State) : (clearBitcnt s).choice = s.choice := rfl

@[simp] theorem toSeq_drv (q : SeqState) (s : State) : (toSeq q s).drv = s.drv := rfl
@[simp] theorem toSeq_rx (q : SeqState) (s : State) : (toSeq q s).rx = s.rx := rfl
@[simp] theorem toSeq_err (q : SeqState) (s : State) : (toSeq q s).err = s.err := rfl
@[simp] theorem toSeq_sq (q : SeqState) (s : State) : (toSeq q s).sq = { s.sq with seq := q } := rfl
@[simp] theorem toSeq_fb (q : SeqState) (s : State) : (toSeq q s).fb = s.fb := rfl
@[simp] theorem toSeq_trace (q : SeqState) (s : State) : (toSeq q s).trace = s.trace := rfl
@[simp] theorem toSeq_env (q : SeqState) (s : State) : (toSeq q s).env = s.env := rfl
@[simp] theorem toSeq_host (q : SeqState) (s : State) : (toSeq q s).host = s.host := rfl
@[simp] theorem toSeq_wave (q : SeqState) (s : State) : (toSeq q s).wave = s.wave := rfl
@[simp] theorem toSeq_choice (q : SeqState) (s : State) : (toSeq q s).choice = s.choice := rfl

@[simp] theorem storeByte_drv (s : State) : (storeByte s).drv = s.drv := rfl
@[simp] theorem storeByte_rx (s : State) : (storeByte s).rx = { rxbuf := s.rx.rxbuf.setIfInBounds s.rx.rxcnt.toNat s.drv.rdata, rxcnt := s.rx.rxcnt + 1 } := rfl
@[simp] theorem storeByte_err (s : State) : (storeByte s).err = s.err := rfl
@[simp] theorem storeByte_sq (s : State) : (storeByte s).sq = { s.sq with remain := s.sq.remain - 1 } := rfl
@[simp] theorem storeByte_fb (s : State) : (storeByte s).fb = s.fb := rfl
@[simp] theorem storeByte_trace (s : State) : (storeByte s).trace = s.trace := rfl
@[simp] theorem storeByte_env (s : State) : (storeByte s).env = s.env := rfl
@[simp] theorem storeByte_host (s : State) : (storeByte s).host = s.host := rfl
@[simp] theorem storeByte_wave (s : State) : (storeByte s).wave = s.wave := rfl
@[simp] theorem storeByte_choice (s : State) : (storeByte s).choice = s.choice := rfl

@[simp] theorem clearRegptr_drv (s : State) : (clearRegptr s).drv = s.drv := rfl
@[simp] theorem clearRegptr_rx (s : State) : (clearRegptr s).rx = s.rx := rfl
@[simp] theorem clearRegptr_err (s : State) : (clearRegptr s).err = s.err := rfl
@[simp] theorem clearRegptr_sq (s : State) : (clearRegptr s).sq = { s.sq with regptr := 0 } := rfl
@[simp] theorem clearRegptr_fb (s : State) : (clearRegptr s).fb = s.fb := rfl
@[simp] theorem clearRegptr_trace (s : State) : (clearRegptr s).trace = s.trace := rfl
@[simp] theorem clearRegptr_env (s : State) : (clearRegptr s).env = s.env := rfl
@[simp] theorem clearRegptr_host (s : State) : (clearRegptr s).host = s.host := rfl
@[simp] theorem clearRegptr_wave (s : State) : (clearRegptr s).wave = s.wave := rfl
@[simp] theorem clearRegptr_choice (s : State) : (clearRegptr s).choice = s.choice := rfl

@[simp] theorem latchBread_drv (r c : Byte) (s : State) : (latchBread r c s).drv = s.drv := rfl
@[simp] theorem latchBread_rx (r c : Byte) (s : State) : (latchBread r c s).rx = { s.rx with rxcnt := 0 } := rfl
@[simp] theorem latchBread_err (r c : Byte) (s : State) : (latchBread r c s).err = s.err := rfl
@[simp] theorem latchBread_sq (r c : Byte) (s : State) : (latchBread r c s).sq = { s.sq with seq := .start, regptr := r, remain := c.setWidth 4 } := rfl
@[simp] theorem latchBread_fb (r c : Byte) (s : State) : (latchBread r c s).fb = s.fb := rfl
@[simp] theorem latchBread_trace (r c : Byte) (s : State) : (latchBread r c s).trace = s.trace := rfl
@[simp] theorem latchBread_env (r c : Byte) (s : State) : (latchBread r c s).env = s.env := rfl
@[simp] theorem latchBread_host (r c : Byte) (s : State) : (latchBread r c s).host = s.host := rfl
@[simp] theorem latchBread_wave (r c : Byte) (s : State) : (latchBread r c s).wave = s.wave := rfl
@[simp] theorem latchBread_choice (r c : Byte) (s : State) : (latchBread r c s).choice = s.choice := rfl

@[simp] theorem latchConfig_drv (s : State) : (latchConfig s).drv = s.drv := rfl
@[simp] theorem latchConfig_rx (s : State) : (latchConfig s).rx = s.rx := rfl
@[simp] theorem latchConfig_err (s : State) : (latchConfig s).err = s.err := rfl
@[simp] theorem latchConfig_sq (s : State) : (latchConfig s).sq = { s.sq with seq := .cstart, cfgidx := 0, regptr := Config.regCtrlXl } := rfl
@[simp] theorem latchConfig_fb (s : State) : (latchConfig s).fb = s.fb := rfl
@[simp] theorem latchConfig_trace (s : State) : (latchConfig s).trace = s.trace := rfl
@[simp] theorem latchConfig_env (s : State) : (latchConfig s).env = s.env := rfl
@[simp] theorem latchConfig_host (s : State) : (latchConfig s).host = s.host := rfl
@[simp] theorem latchConfig_wave (s : State) : (latchConfig s).wave = s.wave := rfl
@[simp] theorem latchConfig_choice (s : State) : (latchConfig s).choice = s.choice := rfl

@[simp] theorem filterCommand_drv (g : FilterBank → FilterBank) (s : State) : (filterCommand g s).drv = s.drv := rfl
@[simp] theorem filterCommand_rx (g : FilterBank → FilterBank) (s : State) : (filterCommand g s).rx = s.rx := rfl
@[simp] theorem filterCommand_err (g : FilterBank → FilterBank) (s : State) : (filterCommand g s).err = s.err := rfl
@[simp] theorem filterCommand_sq (g : FilterBank → FilterBank) (s : State) : (filterCommand g s).sq = s.sq := rfl
@[simp] theorem filterCommand_fb (g : FilterBank → FilterBank) (s : State) : (filterCommand g s).fb = g s.fb := rfl
@[simp] theorem filterCommand_trace (g : FilterBank → FilterBank) (s : State) : (filterCommand g s).trace = s.trace := rfl
@[simp] theorem filterCommand_env (g : FilterBank → FilterBank) (s : State) : (filterCommand g s).env = s.env := rfl
@[simp] theorem filterCommand_host (g : FilterBank → FilterBank) (s : State) : (filterCommand g s).host = s.host := rfl
@[simp] theorem filterCommand_wave (g : FilterBank → FilterBank) (s : State) : (filterCommand g s).wave = s.wave := rfl
@[simp] theorem filterCommand_choice (g : FilterBank → FilterBank) (s : State) : (filterCommand g s).choice = s.choice := rfl

@[simp] theorem resetBlock_drv (s : State) : (resetBlock s).drv = Driver.reset := rfl
@[simp] theorem resetBlock_rx (s : State) : (resetBlock s).rx = RxBuffer.reset := rfl
@[simp] theorem resetBlock_err (s : State) : (resetBlock s).err = ErrorRegs.reset := rfl
@[simp] theorem resetBlock_sq (s : State) : (resetBlock s).sq = Sequencer.reset := rfl
@[simp] theorem resetBlock_fb (s : State) : (resetBlock s).fb = FilterBank.reset := rfl
@[simp] theorem resetBlock_trace (s : State) : (resetBlock s).trace = s.trace := rfl
@[simp] theorem resetBlock_env (s : State) : (resetBlock s).env = s.envAfterReset := rfl
@[simp] theorem resetBlock_host (s : State) : (resetBlock s).host = s.host := rfl
@[simp] theorem resetBlock_wave (s : State) : (resetBlock s).wave = [] := rfl
@[simp] theorem resetBlock_choice (s : State) : (resetBlock s).choice = s.choice + 1 := rfl

@[simp] theorem popAction_drv (s : State) : (s.popAction).drv = s.drv := rfl
@[simp] theorem popAction_rx (s : State) : (s.popAction).rx = s.rx := rfl
@[simp] theorem popAction_err (s : State) : (s.popAction).err = s.err := rfl
@[simp] theorem popAction_sq (s : State) : (s.popAction).sq = s.sq := rfl
@[simp] theorem popAction_fb (s : State) : (s.popAction).fb = s.fb := rfl
@[simp] theorem popAction_trace (s : State) : (s.popAction).trace = s.trace := rfl
@[simp] theorem popAction_env (s : State) : (s.popAction).env = s.env := rfl
@[simp] theorem popAction_host (s : State) : (s.popAction).host = { s.host with todo := s.host.todo.tail } := rfl
@[simp] theorem popAction_wave (s : State) : (s.popAction).wave = s.wave := rfl
@[simp] theorem popAction_choice (s : State) : (s.popAction).choice = s.choice := rfl

@[simp] theorem spin_drv (s : State) : (s.spin).drv = s.drv := rfl
@[simp] theorem spin_rx (s : State) : (s.spin).rx = s.rx := rfl
@[simp] theorem spin_err (s : State) : (s.spin).err = s.err := rfl
@[simp] theorem spin_sq (s : State) : (s.spin).sq = s.sq := rfl
@[simp] theorem spin_fb (s : State) : (s.spin).fb = s.fb := rfl
@[simp] theorem spin_trace (s : State) : (s.spin).trace = s.trace := rfl
@[simp] theorem spin_env (s : State) : (s.spin).env = s.env := rfl
@[simp] theorem spin_host (s : State) : (s.spin).host = s.host := rfl
@[simp] theorem spin_wave (s : State) : (s.spin).wave = s.wave := rfl
@[simp] theorem spin_choice (s : State) : (s.spin).choice = s.choice + 1 := rfl

@[simp] theorem hostReset_drv (s : State) : (hostReset s).drv = Driver.reset := rfl
@[simp] theorem hostReset_rx (s : State) : (hostReset s).rx = RxBuffer.reset := rfl
@[simp] theorem hostReset_err (s : State) : (hostReset s).err = ErrorRegs.reset := rfl
@[simp] theorem hostReset_sq (s : State) : (hostReset s).sq = Sequencer.reset := rfl
@[simp] theorem hostReset_fb (s : State) : (hostReset s).fb = FilterBank.reset := rfl
@[simp] theorem hostReset_trace (s : State) : (hostReset s).trace = s.trace := rfl
@[simp] theorem hostReset_env (s : State) : (hostReset s).env = s.envAfterReset := rfl
@[simp] theorem hostReset_host (s : State) : (hostReset s).host = { todo := s.host.todo.tail, cp := s.cpAfterReset } := rfl
@[simp] theorem hostReset_wave (s : State) : (hostReset s).wave = [] := rfl
@[simp] theorem hostReset_choice (s : State) : (hostReset s).choice = s.choice + 1 := rfl

@[simp] theorem presentWord_drv (w : Command) (s : State) : (presentWord w s).drv = s.drv := rfl
@[simp] theorem presentWord_rx (w : Command) (s : State) : (presentWord w s).rx = s.rx := rfl
@[simp] theorem presentWord_err (w : Command) (s : State) : (presentWord w s).err = s.err := rfl
@[simp] theorem presentWord_sq (w : Command) (s : State) : (presentWord w s).sq = s.sq := rfl
@[simp] theorem presentWord_fb (w : Command) (s : State) : (presentWord w s).fb = s.fb := rfl
@[simp] theorem presentWord_trace (w : Command) (s : State) : (presentWord w s).trace = s.trace := rfl
@[simp] theorem presentWord_env (w : Command) (s : State) : (presentWord w s).env = s.env := rfl
@[simp] theorem presentWord_host (w : Command) (s : State) : (presentWord w s).host = { s.host with todo := .command w :: s.host.todo } := rfl
@[simp] theorem presentWord_wave (w : Command) (s : State) : (presentWord w s).wave = s.wave := rfl
@[simp] theorem presentWord_choice (w : Command) (s : State) : (presentWord w s).choice = s.choice := rfl

@[simp] theorem raiseCmdError_drv (e : CmdError) (w : Command) (s : State) : (raiseCmdError e w s).drv = s.drv := by
  unfold raiseCmdError; split <;> rfl
@[simp] theorem raiseCmdError_rx (e : CmdError) (w : Command) (s : State) : (raiseCmdError e w s).rx = s.rx := by
  unfold raiseCmdError; split <;> rfl
@[simp] theorem raiseCmdError_err (e : CmdError) (w : Command) (s : State) :
    (raiseCmdError e w s).err = if s.errf then s.err else { errcode := some e, errcmd := w } := by
  unfold raiseCmdError; split <;> rfl
@[simp] theorem raiseCmdError_sq (e : CmdError) (w : Command) (s : State) : (raiseCmdError e w s).sq = s.sq := by
  unfold raiseCmdError; split <;> rfl
@[simp] theorem raiseCmdError_fb (e : CmdError) (w : Command) (s : State) : (raiseCmdError e w s).fb = s.fb := by
  unfold raiseCmdError; split <;> rfl
@[simp] theorem raiseCmdError_trace (e : CmdError) (w : Command) (s : State) : (raiseCmdError e w s).trace = s.trace := by
  unfold raiseCmdError; split <;> rfl
@[simp] theorem raiseCmdError_env (e : CmdError) (w : Command) (s : State) : (raiseCmdError e w s).env = s.env := by
  unfold raiseCmdError; split <;> rfl
@[simp] theorem raiseCmdError_host (e : CmdError) (w : Command) (s : State) : (raiseCmdError e w s).host = s.host := by
  unfold raiseCmdError; split <;> rfl
@[simp] theorem raiseCmdError_wave (e : CmdError) (w : Command) (s : State) : (raiseCmdError e w s).wave = s.wave := by
  unfold raiseCmdError; split <;> rfl
@[simp] theorem raiseCmdError_choice (e : CmdError) (w : Command) (s : State) : (raiseCmdError e w s).choice = s.choice := by
  unfold raiseCmdError; split <;> rfl

@[simp] theorem advanceCp_drv (s : State) : s.advanceCp.drv = s.drv := by
  unfold State.advanceCp; split <;> rfl
@[simp] theorem advanceCp_rx (s : State) : s.advanceCp.rx = s.rx := by
  unfold State.advanceCp; split <;> rfl
@[simp] theorem advanceCp_err (s : State) : s.advanceCp.err = s.err := by
  unfold State.advanceCp; split <;> rfl
@[simp] theorem advanceCp_sq (s : State) : s.advanceCp.sq = s.sq := by
  unfold State.advanceCp; split <;> rfl
@[simp] theorem advanceCp_fb (s : State) : s.advanceCp.fb = s.fb := by
  unfold State.advanceCp; split <;> rfl
@[simp] theorem advanceCp_trace (s : State) : s.advanceCp.trace = s.trace := by
  unfold State.advanceCp; split <;> rfl
@[simp] theorem advanceCp_env (s : State) : s.advanceCp.env = s.env := by
  unfold State.advanceCp; split <;> rfl
@[simp] theorem advanceCp_host (s : State) :
    s.advanceCp.host = if s.drv.busy then s.host else { s.host with cp := s.host.cp + 1 } := by
  unfold State.advanceCp; split <;> rfl
@[simp] theorem advanceCp_wave (s : State) : s.advanceCp.wave = s.wave := by
  unfold State.advanceCp; split <;> rfl
@[simp] theorem advanceCp_choice (s : State) : s.advanceCp.choice = s.choice := by
  unfold State.advanceCp; split <;> rfl

@[simp] theorem nextWrite_drv (s : State) : (nextWrite s).drv = s.drv := by
  unfold nextWrite; split <;> rfl
@[simp] theorem nextWrite_rx (s : State) : (nextWrite s).rx = s.rx := by
  unfold nextWrite; split <;> rfl
@[simp] theorem nextWrite_err (s : State) : (nextWrite s).err = s.err := by
  unfold nextWrite; split <;> rfl
@[simp] theorem nextWrite_sq (s : State) : (nextWrite s).sq = if s.sq.cfgidx.toNat < 2 then
    { s.sq with cfgidx := s.sq.cfgidx + 1, regptr := s.sq.regptr + 1, seq := .cstart }
    else { s.sq with cfgidx := 0, regptr := 0, seq := .idle } := by
  unfold nextWrite; split <;> rfl
@[simp] theorem nextWrite_fb (s : State) : (nextWrite s).fb = s.fb := by
  unfold nextWrite; split <;> rfl
@[simp] theorem nextWrite_trace (s : State) : (nextWrite s).trace = s.trace := by
  unfold nextWrite; split <;> rfl
@[simp] theorem nextWrite_env (s : State) : (nextWrite s).env = s.env := by
  unfold nextWrite; split <;> rfl
@[simp] theorem nextWrite_host (s : State) : (nextWrite s).host = s.host := by
  unfold nextWrite; split <;> rfl
@[simp] theorem nextWrite_wave (s : State) : (nextWrite s).wave = s.wave := by
  unfold nextWrite; split <;> rfl
@[simp] theorem nextWrite_choice (s : State) : (nextWrite s).choice = s.choice := by
  unfold nextWrite; split <;> rfl

end Sys2Proof.Laws
end

