-- ==== Sys2Proof/Laws/Run.lean ====
section
/-! SUPPORT. What a run on the wires can do, said once: the specification `Spec` of a piece of a bus command, its
composition, and the specification of `wait_until` (`40_i2c_primitives.md` R123). -/
namespace Sys2Proof.Laws
open Sys2Proof.Machine Sys2Proof.Safety

@[simp] theorem bind_done {α β : Type} (a : α) (s : State) (f : α → State → Run β) : (Run.done a s).bind f = f a s := rfl
@[simp] theorem bind_hang {α β : Type} (s : State) (f : α → State → Run β) : (Run.hang s : Run α).bind f = .hang s := rfl

/-- A waiting policy after `n` waits have proceeded. -/
def waitsAfter (n : Nat) : WaitPolicy → WaitPolicy
  | .free => .free
  | .prompt => .prompt
  | .stall k => .stall (k - n)

theorem waitsAfter_add (m n : Nat) (w : WaitPolicy) : waitsAfter n (waitsAfter m w) = waitsAfter (m + n) w := by
  cases w <;> simp [waitsAfter, Nat.sub_sub]

@[simp] theorem waitsAfter_zero (w : WaitPolicy) : waitsAfter 0 w = w := by cases w <;> rfl

theorem passed_eq (w : WaitPolicy) : w.passed = waitsAfter 1 w := by cases w <;> rfl

@[simp] theorem passed_waits (v : Env) : v.passed.waits = waitsAfter 1 v.waits := passed_eq v.waits
@[simp] theorem passed_peer (v : Env) : v.passed.peer = v.peer := rfl
@[simp] theorem observe_waits (v : Env) (e : BusEvent) : (v.observe e).waits = v.waits := rfl
@[simp] theorem observe_peer (v : Env) (e : BusEvent) : (v.observe e).peer = v.peer.observe e := rfl

/-- Everything a piece `r` of a bus command run from `s` can do when it makes `n` waits: if the environment grants them it
is done with the value `a` in the state `t`; it is done in no other way, and not with fewer waits granted; it hangs only in
states of `H`. -/
structure Spec {α : Type} (n : Nat) (s : State) (r : Run α) (a : α) (t : State) (H : State → Prop) : Prop where
  ok : Grants n s → r = .done a t
  done : ∀ a' t', r = .done a' t' → a' = a ∧ t' = t ∧ ∀ k, s.env.waits = .stall k → n ≤ k
  hang : ∀ t', r = .hang t' → H t'
  waits : t.env.waits = waitsAfter n s.env.waits

theorem grants_split {m n : Nat} {s t : State} (h : Grants (m + n) s) (ht : t.env.waits = waitsAfter m s.env.waits) :
    Grants m s ∧ Grants n t := by
  unfold Grants at *
  rw [ht]
  cases hw : s.env.waits with
  | free => simp only [hw] at h; simp only [waitsAfter]; omega
  | prompt => simp [waitsAfter]
  | stall k => simp only [hw] at h; simp only [waitsAfter]; omega

/-- One piece after the other. -/
theorem Spec.bind {α β : Type} {m n : Nat} {s t u : State} {r : Run α} {a : α} {f : α → State → Run β} {b : β}
    {H H' : State → Prop} (h : Spec m s r a t H) (h' : Spec n t (f a t) b u H') (hH : ∀ x, H' x → H x) :
    Spec (m + n) s (r.bind f) b u H where
  ok g := by
    obtain ⟨g1, g2⟩ := grants_split g h.waits
    rw [h.ok g1, bind_done, h'.ok g2]
  done b' u' e := by
    cases hr : r with
    | hang x => rw [hr] at e; cases e
    | done a' t' =>
      obtain ⟨rfl, rfl, hk⟩ := h.done a' t' hr
      rw [hr, bind_done] at e
      obtain ⟨hb, hu, hk'⟩ := h'.done b' u' e
      refine ⟨hb, hu, fun k hs => ?_⟩
      have h1 := hk k hs
      have h2 := hk' (k - m) (by rw [h.waits, hs, waitsAfter])
      omega
  hang x e := by
    cases hr : r with
    | hang y => rw [hr, bind_hang] at e; cases e; exact h.hang _ hr
    | done a' t' =>
      obtain ⟨rfl, rfl, -⟩ := h.done a' t' hr
      rw [hr, bind_done] at e
      exact hH _ (h'.hang x e)
  waits := by rw [h'.waits, h.waits, waitsAfter_add]

/-- A piece that waits for nothing. -/
theorem Spec.pure {α : Type} (a : α) (s t : State) (H : State → Prop) (hw : t.env.waits = s.env.waits) :
    Spec 0 s (.done a t) a t H where
  ok _ := rfl
  done a' t' e := by cases e; exact ⟨rfl, rfl, fun _ _ => Nat.zero_le _⟩
  hang x e := by cases e
  waits := by simp [hw]

/-- Updates before a piece that leave the environment's policy alone. -/
theorem Spec.before {α : Type} {n : Nat} {s s' t : State} {r : Run α} {a : α} {H : State → Prop}
    (h : Spec n s' r a t H) (hw : s'.env.waits = s.env.waits) : Spec n s r a t H where
  ok g := h.ok (by unfold Grants at *; rwa [hw])
  done a' t' e := by obtain ⟨h1, h2, h3⟩ := h.done a' t' e; exact ⟨h1, h2, fun k hk => h3 k (by rw [hw, hk])⟩
  hang := h.hang
  waits := by rw [h.waits, hw]

theorem Spec.weaken {α : Type} {n : Nat} {s t : State} {r : Run α} {a : α} {H H' : State → Prop}
    (h : Spec n s r a t H) (hH : ∀ x, H x → H' x) : Spec n s r a t H' :=
  { h with hang := fun x e => hH x (h.hang x e) }

/-- The same piece with its end state written in another way. -/
theorem Spec.congr {α : Type} {n : Nat} {s t t' : State} {r : Run α} {a a' : α} {H : State → Prop}
    (h : Spec n s r a t H) (ht : t = t') (ha : a = a') : Spec n s r a' t' H := by subst ht; subst ha; exact h

/-- `wait_until` with the block's own wires released (R123, R25). -/
theorem waitUntil_spec (p : WaitPoint) (s : State) (hw : s.wiresReleased p = true) :
    Spec 1 s (waitUntil p s) () s.passWait (fun x => x = s) where
  ok g := by
    unfold Grants at g
    have : s.releases p = true := by
      unfold State.releases
      cases h : s.env.waits with
      | free => simp [h] at g
      | prompt => rfl
      | stall k => simp only [h] at g; simp; omega
    simp [waitUntil, hw, this]
  done a' t' e := by
    unfold waitUntil at e
    split at e
    · rename_i h
      cases e
      refine ⟨rfl, rfl, fun k hk => ?_⟩
      simp only [Bool.and_eq_true] at h
      have := h.2
      unfold State.releases at this
      rw [hk] at this
      simp at this
      omega
    · cases e
  hang x e := by
    unfold waitUntil at e
    split at e <;> cases e
    rfl
  waits := by simp

end Sys2Proof.Laws
end

