-- ==== Sys2Proof/Laws/Wire.lean ====
section
/-! SUPPORT. What each wire-level operation does (`40_i2c_primitives.md` R130 to R135): its end state in closed form, the
number of its waits, and what it leaves alone when it hangs. -/
namespace Sys2Proof.Laws
open Sys2Proof.Machine Sys2Proof.Safety

/-- A wait inside a wire operation leaves everything alone but the drivers, the shift register, the bit counter and the
draw of the environment's waits. -/
structure WireOnly (s t : State) : Prop where
  rx : t.rx = s.rx
  err : t.err = s.err
  fb : t.fb = s.fb
  trace : t.trace = s.trace
  host : t.host = s.host
  drv : t.drv = { s.drv with sclO := t.drv.sclO, sdaO := t.drv.sdaO }
  sq : t.sq = { s.sq with shreg := t.sq.shreg, bitcnt := t.sq.bitcnt }
  peer : t.env.peer = s.env.peer

theorem WireOnly.trans {s t u : State} (h : WireOnly s t) (h' : WireOnly t u) : WireOnly s u where
  rx := h'.rx.trans h.rx
  err := h'.err.trans h.err
  fb := h'.fb.trans h.fb
  trace := h'.trace.trans h.trace
  host := h'.host.trans h.host
  drv := by rw [h'.drv, h.drv]
  sq := by rw [h'.sq, h.sq]
  peer := h'.peer.trans h.peer

theorem WireOnly.refl (s : State) : WireOnly s s := ⟨rfl, rfl, rfl, rfl, rfl, rfl, rfl, rfl⟩

/-- The closed form of a wire operation's end: drivers, shift register and bit counter as given, `n` waits passed, the
waveform grown by `w`. -/
def onWires (s : State) (scl sda : Level) (shreg : Byte) (bitcnt : BitVec 4) (n : Nat) (w : List WireOp) : State :=
  { s with drv := { s.drv with sclO := scl, sdaO := sda }, sq := { s.sq with shreg := shreg, bitcnt := bitcnt },
           env := { s.env with waits := waitsAfter n s.env.waits }, wave := s.wave ++ w, choice := s.choice + n }

theorem onWires_wireOnly (s : State) (scl sda : Level) (shreg : Byte) (bitcnt : BitVec 4) (n : Nat) (w : List WireOp) :
    WireOnly s (onWires s scl sda shreg bitcnt n w) := ⟨rfl, rfl, rfl, rfl, rfl, rfl, rfl, rfl⟩

theorem setScl_wireOnly (v : Level) (s : State) : WireOnly s (setScl v s) := ⟨rfl, rfl, rfl, rfl, rfl, rfl, rfl, rfl⟩
theorem setSda_wireOnly (v : Level) (s : State) : WireOnly s (setSda v s) := ⟨rfl, rfl, rfl, rfl, rfl, rfl, rfl, rfl⟩
theorem loadShift_wireOnly (b : Byte) (s : State) : WireOnly s (loadShift b s) := ⟨rfl, rfl, rfl, rfl, rfl, rfl, rfl, rfl⟩

/-- One wait and what follows it without waiting: the shape of every wire operation. -/
theorem wait_then {α : Type} {p : WaitPoint} {s s0 t : State} {g : State → α} {k : State → State} {v : α}
    (hr : s0.wiresReleased p = true) (h0 : WireOnly s s0) (hw : s0.env.waits = s.env.waits)
    (hk : k s0.passWait = t) (hg : g s0.passWait = v) (ht : t.env.waits = waitsAfter 1 s.env.waits) :
    Spec 1 s ((waitUntil p s0).bind fun _ x => .done (g x) (k x)) v t (WireOnly s) where
  ok gr := by
    have h := (Spec.before (waitUntil_spec p s0 hr) hw).ok gr
    rw [h, bind_done, hk, hg]
  done a' t' e := by
    cases h : waitUntil p s0 with
    | hang x => rw [h] at e; cases e
    | done u x =>
      obtain ⟨-, rfl, h3⟩ := (Spec.before (waitUntil_spec p s0 hr) hw).done u x h
      rw [h, bind_done] at e
      cases e
      exact ⟨hg, hk, h3⟩
  hang x e := by
    cases h : waitUntil p s0 with
    | done u y => rw [h] at e; cases e
    | hang y =>
      rw [h, bind_hang] at e
      cases e
      rw [(waitUntil_spec p s0 hr).hang _ h]
      exact h0
  waits := ht

/-! ## START and RESTART -/

/-- The waveform of a START condition entered with both wires released (R130). -/
def startWave : List WireOp := [.waited, .drive true false, .drive false false]

theorem wireStart_spec (s : State) (h1 : s.drv.sclO = true) (h2 : s.drv.sdaO = true) :
    Spec 1 s (wireStart s) () (onWires s false false s.sq.shreg s.sq.bitcnt 1 startWave) (WireOnly s) := by
  refine wait_then ?_ (.refl s) rfl ?_ rfl rfl
  · simp [State.wiresReleased, waitNeedsClock, waitNeedsData, h1, h2]
  · simp [setScl, setSda, State.passWait, onWires, Env.passed, passed_eq, startWave, h1]

/-- The waveform of a repeated START condition (R131). -/
def restartWave (scl : Level) : List WireOp :=
  [.drive scl true, .drive true true, .waited, .drive true false, .drive false false]

theorem wireRestart_spec (s : State) :
    Spec 1 s (wireRestart s) () (onWires s false false s.sq.shreg s.sq.bitcnt 1 (restartWave s.drv.sclO)) (WireOnly s) := by
  refine wait_then ?_ ((setSda_wireOnly _ _).trans (setScl_wireOnly _ _)) rfl ?_ rfl rfl
  · simp [State.wiresReleased, waitNeedsClock, waitNeedsData]
  · simp [setScl, setSda, State.passWait, onWires, Env.passed, passed_eq, restartWave]

/-! ## SEND -/

/-- The waveform of one bit the block sends (R132). -/
def sendBitWave (scl v : Level) : List WireOp := [.drive scl v, .drive true v, .waited, .drive false v]

/-- One data bit sent. -/
def sendBitDone (s : State) : State :=
  onWires s false (s.sq.shreg.getLsbD 7) (s.sq.shreg.shiftConcat false) (s.sq.bitcnt + 1) 1
    (sendBitWave s.drv.sclO (s.sq.shreg.getLsbD 7))

theorem wireSendBit_spec (s : State) : Spec 1 s (wireSendBit s) () (sendBitDone s) (WireOnly s) := by
  refine wait_then ?_ ((setSda_wireOnly _ _).trans (setScl_wireOnly _ _)) rfl ?_ rfl rfl
  · simp [State.wiresReleased, waitNeedsClock, waitNeedsData]
  · simp [setScl, setSda, shiftIn, countBit, State.passWait, sendBitDone, onWires, Env.passed, passed_eq, sendBitWave]

theorem wireSendBits_spec (n : Nat) (s : State) :
    Spec n s (wireSendBits n s) () (sendBitDone^[n] s) (WireOnly s) := by
  induction n generalizing s with
  | zero => exact Spec.pure () s s _ rfl
  | succ n ih =>
    have h := Spec.bind (f := fun _ s => wireSendBits n s) (wireSendBit_spec s) (ih (sendBitDone s))
      (fun x hx => (onWires_wireOnly _ _ _ _ _ _ _).trans hx)
    rw [Nat.add_comm] at h
    exact h

/-- The waveform of a sent byte and its acknowledge (R132). -/
def sendWave (scl : Level) (b : Byte) (a : Level) : List WireOp :=
  sendBitWave scl (b.getLsbD 7) ++ sendBitWave false (b.getLsbD 6) ++ sendBitWave false (b.getLsbD 5)
    ++ sendBitWave false (b.getLsbD 4) ++ sendBitWave false (b.getLsbD 3) ++ sendBitWave false (b.getLsbD 2)
    ++ sendBitWave false (b.getLsbD 1) ++ sendBitWave false (b.getLsbD 0)
    ++ [.drive false true, .drive true true, .waited, .sample a, .drive false true]

theorem wireSendAck_spec (a : Level) (s : State) :
    Spec 1 s (wireSendAck a s) a
      (onWires s false true s.sq.shreg 0 1
        [.drive s.drv.sclO true, .drive true true, .waited, .sample a, .drive false true]) (WireOnly s) := by
  refine wait_then ?_ ((setSda_wireOnly _ _).trans (setScl_wireOnly _ _)) rfl ?_ ?_ rfl
  · simp [State.wiresReleased, waitNeedsClock, waitNeedsData]
  · simp [setScl, setSda, clearBitcnt, State.sampled, State.sdaIn, State.passWait, onWires, Env.passed, passed_eq]
  · simp [State.sdaIn, setScl, setSda, State.passWait]

/-- The shift register after eight shifts holds nothing of the byte it was loaded with. -/
theorem shifted_out (b : Byte) :
    ((((((((b.shiftConcat false).shiftConcat false).shiftConcat false).shiftConcat false).shiftConcat false).shiftConcat
      false).shiftConcat false).shiftConcat false) = 0#8 := by
  apply BitVec.eq_of_getLsbD_eq
  intro k hk
  interval_cases k <;> simp

theorem sendBits_eight (b : Byte) (s : State) :
    sendBitDone^[8] (loadShift b s) = onWires s false (b.getLsbD 0) 0#8 8#4 8
      (sendBitWave s.drv.sclO (b.getLsbD 7) ++ sendBitWave false (b.getLsbD 6) ++ sendBitWave false (b.getLsbD 5)
        ++ sendBitWave false (b.getLsbD 4) ++ sendBitWave false (b.getLsbD 3) ++ sendBitWave false (b.getLsbD 2)
        ++ sendBitWave false (b.getLsbD 1) ++ sendBitWave false (b.getLsbD 0)) := by
  simp [Function.iterate_succ, sendBitDone, onWires, loadShift, shifted_out, waitsAfter_add]

/-- `wire_send(b)` (R132): nine waits; the level it returns is the one the slave drives. -/
theorem wireSend_spec (b : Byte) (a : Level) (s : State) :
    Spec 9 s (wireSend b a s) a (onWires s false true 0 0 9 (sendWave s.drv.sclO b a)) (WireOnly s) := by
  have h := Spec.before (s := s) (Spec.bind (f := fun _ s => wireSendAck a s)
    ((wireSendBits_spec 8 (loadShift b s)).weaken fun x hx => (loadShift_wireOnly b s).trans hx)
    (wireSendAck_spec a _) (fun x hx => WireOnly.trans (by rw [sendBits_eight]; exact onWires_wireOnly _ _ _ _ _ _ _) hx)) rfl
  refine h.congr ?_ rfl
  rw [sendBits_eight]
  simp [onWires, sendWave, waitsAfter_add]

/-! ## RECV -/

/-- The waveform of one bit the block samples (R133). -/
def recvBitWave (sda v : Level) : List WireOp := [.drive true sda, .waited, .sample (sda && v), .drive false sda]

/-- One bit received. -/
def recvBitDone (d : Byte) (s : State) : State :=
  onWires s false s.drv.sdaO (s.sq.shreg.shiftConcat (s.drv.sdaO && d.getMsbD s.sq.bitcnt.toNat)) (s.sq.bitcnt + 1) 1
    (recvBitWave s.drv.sdaO (d.getMsbD s.sq.bitcnt.toNat))

theorem wireRecvBit_spec (d : Byte) (s : State) : Spec 1 s (wireRecvBit d s) () (recvBitDone d s) (WireOnly s) := by
  refine wait_then ?_ (setScl_wireOnly _ _) rfl ?_ rfl rfl
  · simp [State.wiresReleased, waitNeedsClock, waitNeedsData]
  · simp [setScl, shiftIn, countBit, State.sampled, State.sdaIn, State.passWait, recvBitDone, onWires, Env.passed,
      passed_eq, recvBitWave]

theorem wireRecvBits_spec (d : Byte) (n : Nat) (s : State) :
    Spec n s (wireRecvBits d n s) () ((recvBitDone d)^[n] s) (WireOnly s) := by
  induction n generalizing s with
  | zero => exact Spec.pure () s s _ rfl
  | succ n ih =>
    have h := Spec.bind (f := fun _ s => wireRecvBits d n s) (wireRecvBit_spec d s) (ih (recvBitDone d s))
      (fun x hx => (onWires_wireOnly _ _ _ _ _ _ _).trans hx)
    rw [Nat.add_comm] at h
    exact h

/-- The byte that eight sampled bits of `d` shift into. -/
theorem shifted_in (d : Byte) :
    (((((((((0#8).shiftConcat (d.getMsbD 0)).shiftConcat (d.getMsbD 1)).shiftConcat (d.getMsbD 2)).shiftConcat
      (d.getMsbD 3)).shiftConcat (d.getMsbD 4)).shiftConcat (d.getMsbD 5)).shiftConcat (d.getMsbD 6)).shiftConcat
      (d.getMsbD 7)) = d := by
  apply BitVec.eq_of_getLsbD_eq
  intro k hk
  interval_cases k <;> simp [BitVec.getMsbD]

/-- The waveform of a received byte (R133). -/
def recvWave (scl : Level) (d : Byte) : List WireOp :=
  .drive scl true :: (recvBitWave true (d.getMsbD 0) ++ recvBitWave true (d.getMsbD 1) ++ recvBitWave true (d.getMsbD 2)
    ++ recvBitWave true (d.getMsbD 3) ++ recvBitWave true (d.getMsbD 4) ++ recvBitWave true (d.getMsbD 5)
    ++ recvBitWave true (d.getMsbD 6) ++ recvBitWave true (d.getMsbD 7))

theorem recvBits_eight (d : Byte) (s : State) :
    (recvBitDone d)^[8] (loadShift 0 (setSda true s)) = onWires s false true d 8#4 8 (recvWave s.drv.sclO d) := by
  have h := shifted_in d
  simp only [Function.iterate_succ, Function.iterate_zero, Function.comp, id, recvBitDone, onWires, loadShift, setSda,
    waitsAfter_add, recvWave, Bool.true_and, List.append_assoc, List.cons_append, List.nil_append]
  refine Eq.trans ?_ (congrArg (fun x => onWires s false true x 8#4 8 _) h)
  simp [onWires]

/-- `wire_recv()` while the slave sends `d` (R133): eight waits; it returns `d`. -/
theorem wireRecv_spec (d : Byte) (s : State) :
    Spec 8 s (wireRecv d s) d (onWires s false true d 0 8 (recvWave s.drv.sclO d)) (WireOnly s) := by
  have h := Spec.before (s := s) (Spec.bind (n := 0) (f := fun _ s => Run.done s.sq.shreg (clearBitcnt s))
    ((wireRecvBits_spec d 8 (loadShift 0 (setSda true s))).weaken fun x hx =>
      ((setSda_wireOnly true s).trans (loadShift_wireOnly 0 _)).trans hx)
    (Spec.pure _ _ _ (WireOnly s) rfl) (fun _ h => h)) rfl
  refine h.congr ?_ ?_
  · rw [recvBits_eight]; simp [onWires, clearBitcnt]
  · rw [recvBits_eight]; simp [onWires]

/-! ## MACK and STOP -/

/-- The waveform of the master's acknowledge bit (R134). -/
def mackWave (scl v : Level) : List WireOp :=
  [.drive scl v, .drive true v, .waited, .drive false v, .drive false true]

theorem wireMack_spec (v : Level) (s : State) :
    Spec 1 s (wireMack v s) () (onWires s false true s.sq.shreg s.sq.bitcnt 1 (mackWave s.drv.sclO v)) (WireOnly s) := by
  refine wait_then ?_ ((setSda_wireOnly _ _).trans (setScl_wireOnly _ _)) rfl ?_ rfl rfl
  · simp [State.wiresReleased, waitNeedsClock, waitNeedsData]
  · simp [setScl, setSda, State.passWait, onWires, Env.passed, passed_eq, mackWave]

/-- The waveform of a STOP condition (R135). -/
def stopWave (scl : Level) : List WireOp :=
  [.drive scl false, .drive true false, .waited, .drive true true, .waited]

theorem wireStop_spec (s : State) :
    Spec 2 s (wireStop s) () (onWires s true true s.sq.shreg s.sq.bitcnt 2 (stopWave s.drv.sclO)) (WireOnly s) := by
  have h1 := (waitUntil_spec .stopClock (setScl true (setSda false s))
    (by simp [State.wiresReleased, waitNeedsClock, waitNeedsData])).weaken (H' := WireOnly s) fun x e =>
      e ▸ (setSda_wireOnly false s).trans (setScl_wireOnly true _)
  have h2 := (Spec.before (s := (setScl true (setSda false s)).passWait)
    (waitUntil_spec .stopData (setSda true (setScl true (setSda false s)).passWait)
      (by simp [State.wiresReleased, waitNeedsClock, waitNeedsData])) rfl).weaken (H' := WireOnly s) fun x e =>
      e ▸ ⟨rfl, rfl, rfl, rfl, rfl, rfl, rfl, rfl⟩
  have h := Spec.before (s := s) (Spec.bind (f := fun _ s => waitUntil .stopData (setSda true s)) h1 h2 fun _ h => h) rfl
  refine h.congr ?_ rfl
  simp [setScl, setSda, State.passWait, onWires, Env.passed, passed_eq, stopWave, waitsAfter_add]

end Sys2Proof.Laws
end

