-- ==== Sys2Proof/Laws/Primitives.lean ====
section
/-! SUPPORT. What each primitive does once it is legal (`40_i2c_primitives.md` R124 to R129), in closed form, and what a
presented command does (`60_exceptions.md` R223): cited in place of unfolding them. -/
namespace Sys2Proof.Laws
open Sys2Proof.Machine Sys2Proof.Safety

/-- The closed form of a primitive's end: the driver registers, shift register and bit counter as given, `n` waits
passed, the event `e` on the bus, the waveform grown by `w`. -/
def primDone (s : State) (drv : Driver) (shreg : Byte) (bitcnt : BitVec 4) (n : Nat) (w : List WireOp) (e : BusEvent) :
    State :=
  { s with drv := drv, sq := { s.sq with shreg := shreg, bitcnt := bitcnt }, trace := s.trace ++ [e],
           env := ⟨waitsAfter n s.env.waits, s.env.peer.observe e⟩, wave := s.wave ++ w, choice := s.choice + n + 1 }

/-- A wire operation, then updates that wait for nothing. -/
theorem wire_then {α : Type} {n : Nat} {s u t : State} {r : Run α} {a : α} {k : α → State → State}
    (h : Spec n s r a u (WireOnly s)) (hk : k a u = t) (ht : t.env.waits = waitsAfter n s.env.waits) :
    Spec n s (r.bind fun a x => .done () (k a x)) () t (WireOnly s) := by
  have h' := Spec.bind (n := 0) (f := fun a x => Run.done () (k a x)) h
    (Spec.pure () u (k a u) (WireOnly s) (by rw [hk, ht, h.waits])) (fun _ h => h)
  exact h'.congr hk rfl

/-- START in closed form. -/
def startDone (s : State) : State :=
  primDone s { s.drv with phase := .addr, sclO := false, sdaO := false } s.sq.shreg s.sq.bitcnt 1 startWave .start

theorem doStart_spec (s : State) (h1 : s.drv.sclO = true) (h2 : s.drv.sdaO = true) :
    Spec 1 s (doStart s) () (startDone s) (WireOnly s) := by
  refine wire_then (wireStart_spec s h1 h2) ?_ rfl
  simp [startDone, primDone, onWires, setPhase, emit, Env.observe]

/-- RESTART in closed form. -/
def restartDone (s : State) : State :=
  primDone s { s.drv with phase := .addr, sclO := false, sdaO := false } s.sq.shreg s.sq.bitcnt 1
    (restartWave s.drv.sclO) .restart

theorem doRestart_spec (s : State) : Spec 1 s (doRestart s) () (restartDone s) (WireOnly s) := by
  refine wire_then (wireRestart_spec s) ?_ rfl
  simp [restartDone, primDone, onWires, setPhase, emit, Env.observe]

/-- SEND b in closed form. -/
def sendDone (b : Byte) (s : State) : State :=
  primDone s { s.drv with phase := phaseAfterSend s.drv.phase b, sclO := false, sdaO := true, ackstat := s.ackLevel b,
                          nakcnt := nakCount s.drv.nakcnt (s.ackLevel b) } 0 0 9
    (sendWave s.drv.sclO b (s.ackLevel b)) (.tx b (s.ackLevel b))

theorem doSend_spec (b : Byte) (s : State) : Spec 9 s (doSend b s) () (sendDone b s) (WireOnly s) := by
  refine wire_then (wireSend_spec b (s.ackLevel b) s) ?_ rfl
  simp [sendDone, primDone, onWires, setPhase, emit, Env.observe, recordAck]

/-- RECV in closed form. -/
def recvDone (s : State) : State :=
  primDone s { s.drv with phase := .rdack, sclO := false, sdaO := true, rdata := s.rxByte } s.rxByte 0 8
    (recvWave s.drv.sclO s.rxByte) (.rx s.rxByte)

theorem doRecv_spec (s : State) : Spec 8 s (doRecv s) () (recvDone s) (WireOnly s) := by
  refine wire_then (wireRecv_spec s.rxByte s) ?_ rfl
  simp [recvDone, primDone, onWires, setPhase, emit, Env.observe]

/-- MACK v in closed form. -/
def mackDone (v : Level) (s : State) : State :=
  primDone s { s.drv with phase := if v then .rdend else .rd, sclO := false, sdaO := true } s.sq.shreg s.sq.bitcnt 1
    (mackWave s.drv.sclO v) (.mack v)

theorem doMack_spec (v : Level) (s : State) : Spec 1 s (doMack v s) () (mackDone v s) (WireOnly s) := by
  refine wire_then (wireMack_spec v s) ?_ rfl
  simp [mackDone, primDone, onWires, setPhase, emit, Env.observe]

/-- STOP in closed form. -/
def stopDone (s : State) : State :=
  primDone s { s.drv with phase := .idle, sclO := true, sdaO := true } s.sq.shreg s.sq.bitcnt 2
    (stopWave s.drv.sclO) .stop

theorem doStop_spec (s : State) : Spec 2 s (doStop s) () (stopDone s) (WireOnly s) := by
  refine wire_then (wireStop_spec s) ?_ rfl
  simp [stopDone, primDone, onWires, setPhase, emit, Env.observe]

/-! ## A bus command, a presented command -/

/-- Everything a bus command can do: complete in the closed form, or be stuck in a state its waits may hang in. -/
theorem busCommand_cases {n : Nat} {r : State → Run Unit} {s t : State} {H : State → Prop}
    (h : Spec n (beginBus s) (r (beginBus s)) () t H) :
    (busCommand r s = endBus t ∧ ∀ k, s.env.waits = .stall k → n ≤ k) ∨ H (busCommand r s) := by
  unfold busCommand
  cases hr : r (beginBus s) with
  | hang x => exact .inr (h.hang x hr)
  | done a x =>
    obtain ⟨-, rfl, hk⟩ := h.done a x hr
    exact .inl ⟨rfl, hk⟩

/-- A bus command whose waits are all granted completes. -/
theorem busCommand_granted {n : Nat} {r : State → Run Unit} {s t : State} {H : State → Prop}
    (h : Spec n (beginBus s) (r (beginBus s)) () t H) (g : Grants n s) : busCommand r s = endBus t := by
  unfold busCommand
  rw [h.ok g]

/-- A command that is accepted and legal has its effect (R223). -/
theorem command_legal {i : Instr} {f : State → State} {s : State} (hb : s.drv.busy = false) (he : s.err.errcode = none)
    (hw : i.wellFormed = true) (hl : Instr.legalIn i s.drv.phase = true) : command i f s = .next (f s) := by
  simp [command, hb, State.errf, he, hw, hl]

/-- Everything a presented command can do (R21, R223, R224, R226): nothing, one of the two errors, or its effect. -/
theorem command_cases (i : Instr) (f : State → State) (s : State) :
    (command i f s = .next s ∧ (s.drv.busy = true ∨ s.err.errcode ≠ none)) ∨
    (s.drv.busy = false ∧ s.err.errcode = none ∧
      ((i.wellFormed = false ∧ command i f s = .next { s with err := ⟨some .illegalArg, encode i⟩ }) ∨
       (i.wellFormed = true ∧ Instr.legalIn i s.drv.phase = false
          ∧ command i f s = .next { s with err := ⟨some .proto, encode i⟩ }) ∨
       (i.wellFormed = true ∧ Instr.legalIn i s.drv.phase = true ∧ command i f s = .next (f s)))) := by
  unfold command
  by_cases hb : s.drv.busy = true
  · left; simp [hb]
  · simp only [Bool.not_eq_true] at hb
    by_cases he : s.err.errcode = none
    · right
      refine ⟨hb, he, ?_⟩
      have hf : s.errf = false := by simp [State.errf, he]
      cases hw : i.wellFormed
      · left; simp [hb, hf, raiseCmdError]
      · right
        cases hl : Instr.legalIn i s.drv.phase
        · left; simp [hb, hf, raiseCmdError]
        · right; simp [hb, hf]
    · left
      have hf : s.errf = true := by
        unfold State.errf
        cases h : s.err.errcode with
        | none => exact absurd h he
        | some e => rfl
      simp [hb, hf, he]

end Sys2Proof.Laws
end

