-- ==== Sys2Proof/Laws/Sequencer.lean ====
section
/-! SUPPORT. What the sequencer of `41_imu_protocol.md` R169 does: each state in closed form, what holds throughout a
composite command, and how many states and waits one has. -/
namespace Sys2Proof.Laws
open Sys2Proof.Machine Sys2Proof.Safety

/-- One state of the sequencer in closed form: its primitive, then the move of the table R169. -/
def seqAfter (s : State) : State :=
  match s.sq.seq with
  | .idle => s
  | .start => toSeq .addrW (startDone s)
  | .addrW => toSeq .reg (sendDone imuWrite s)
  | .reg => toSeq .restart (sendDone s.sq.regptr s)
  | .restart => toSeq .addrR (restartDone s)
  | .addrR => toSeq .recv (sendDone imuRead s)
  | .recv => toSeq .mack (storeByte (recvDone s))
  | .mack => toSeq (if s.sq.remain = 0 then .stop else .recv) (mackDone (s.sq.remain == 0) s)
  | .stop => toSeq .idle (clearRegptr (stopDone s))
  | .cstart => toSeq .caddr (startDone s)
  | .caddr => toSeq .creg (sendDone imuWrite s)
  | .creg => toSeq .cval (sendDone s.sq.regptr s)
  | .cval => toSeq .cstop (sendDone (cfgVal s.sq.cfgidx) s)
  | .cstop => nextWrite (stopDone s)

/-- The waits of one state's primitive (R228). -/
def seqWaits : SeqState → Nat
  | .idle => 0
  | .start => 1
  | .addrW => 9
  | .reg => 9
  | .restart => 1
  | .addrR => 9
  | .recv => 8
  | .mack => 1
  | .stop => 2
  | .cstart => 1
  | .caddr => 9
  | .creg => 9
  | .cval => 9
  | .cstop => 2

theorem seqStep_spec (s : State)
    (h : s.sq.seq = .start ∨ s.sq.seq = .cstart → s.drv.sclO = true ∧ s.drv.sdaO = true) :
    Spec (seqWaits s.sq.seq) s (seqStep s) () (seqAfter s) (WireOnly s) := by
  unfold seqStep seqAfter
  cases hq : s.sq.seq
  case idle => exact Spec.pure () s s _ rfl
  case start => exact wire_then (doStart_spec s (h (.inl hq)).1 (h (.inl hq)).2) rfl rfl
  case addrW => exact wire_then (doSend_spec _ s) rfl rfl
  case reg => exact wire_then (doSend_spec _ s) rfl rfl
  case restart => exact wire_then (doRestart_spec s) rfl rfl
  case addrR => exact wire_then (doSend_spec _ s) rfl rfl
  case recv => exact wire_then (doRecv_spec s) rfl rfl
  case mack => exact wire_then (doMack_spec _ s) rfl rfl
  case stop => exact wire_then (doStop_spec s) rfl rfl
  case cstart => exact wire_then (doStart_spec s (h (.inr hq)).1 (h (.inr hq)).2) rfl rfl
  case caddr => exact wire_then (doSend_spec _ s) rfl rfl
  case creg => exact wire_then (doSend_spec _ s) rfl rfl
  case cval => exact wire_then (doSend_spec _ s) rfl rfl
  case cstop => exact wire_then (doStop_spec s) rfl (by simp [stopDone, primDone, seqWaits])

/-! ## What holds throughout a composite command -/

/-- The phase in which the sequencer enters a state (R160: every primitive it performs is legal). -/
def phaseAt : SeqState → Phase
  | .idle => .idle
  | .start => .idle
  | .addrW => .addr
  | .reg => .wr
  | .restart => .wr
  | .addrR => .addr
  | .recv => .rd
  | .mack => .rdack
  | .stop => .rdend
  | .cstart => .idle
  | .caddr => .addr
  | .creg => .wr
  | .cval => .wr
  | .cstop => .wr

/-- The sequencer still has bytes to receive in every state of BREAD up to `S_RECV`. -/
def wantsByte : SeqState → Bool
  | .start => true
  | .addrW => true
  | .reg => true
  | .restart => true
  | .addrR => true
  | .recv => true
  | .idle => false
  | .mack => false
  | .stop => false
  | .cstart => false
  | .caddr => false
  | .creg => false
  | .cval => false
  | .cstop => false

/-- What never changes in a composite command, and how the peer follows the trace. -/
structure SeqKeeps (s t : State) : Prop where
  busy : t.drv.busy = s.drv.busy
  err : t.err = s.err
  fb : t.fb = s.fb
  host : t.host = s.host
  events : ∃ es, t.trace = s.trace ++ es ∧ t.env.peer = es.foldl BusPeer.observe s.env.peer

theorem SeqKeeps.refl (s : State) : SeqKeeps s s := ⟨rfl, rfl, rfl, rfl, [], by simp, rfl⟩

theorem SeqKeeps.trans {s t u : State} (h : SeqKeeps s t) (h' : SeqKeeps t u) : SeqKeeps s u where
  busy := h'.busy.trans h.busy
  err := h'.err.trans h.err
  fb := h'.fb.trans h.fb
  host := h'.host.trans h.host
  events := by
    obtain ⟨es, h1, h2⟩ := h.events
    obtain ⟨es', h3, h4⟩ := h'.events
    exact ⟨es ++ es', by rw [h3, h1, List.append_assoc], by rw [h4, h2, List.foldl_append]⟩

theorem WireOnly.seqKeeps {s t : State} (h : WireOnly s t) : SeqKeeps s t :=
  ⟨by rw [h.drv], h.err, h.fb, h.host, [], by simp [h.trace], h.peer⟩

theorem seqAfter_keeps (s : State) : SeqKeeps s (seqAfter s) := by
  unfold seqAfter
  cases s.sq.seq
  case idle => exact .refl s
  case start => exact ⟨rfl, rfl, rfl, rfl, [_], rfl, rfl⟩
  case addrW => exact ⟨rfl, rfl, rfl, rfl, [_], rfl, rfl⟩
  case reg => exact ⟨rfl, rfl, rfl, rfl, [_], rfl, rfl⟩
  case restart => exact ⟨rfl, rfl, rfl, rfl, [_], rfl, rfl⟩
  case addrR => exact ⟨rfl, rfl, rfl, rfl, [_], rfl, rfl⟩
  case recv => exact ⟨rfl, rfl, rfl, rfl, [_], rfl, rfl⟩
  case mack => exact ⟨rfl, rfl, rfl, rfl, [_], rfl, rfl⟩
  case stop => exact ⟨rfl, rfl, rfl, rfl, [_], rfl, rfl⟩
  case cstart => exact ⟨rfl, rfl, rfl, rfl, [_], rfl, rfl⟩
  case caddr => exact ⟨rfl, rfl, rfl, rfl, [_], rfl, rfl⟩
  case creg => exact ⟨rfl, rfl, rfl, rfl, [_], rfl, rfl⟩
  case cval => exact ⟨rfl, rfl, rfl, rfl, [_], rfl, rfl⟩
  case cstop => exact ⟨by simp [stopDone, primDone], by simp [stopDone, primDone], by simp [stopDone, primDone],
      by simp [stopDone, primDone], [.stop], by simp [stopDone, primDone], by simp [stopDone, primDone]⟩

/-- What holds whenever the sequencer enters a state. -/
structure SeqInv (s : State) : Prop where
  phase : s.drv.phase = phaseAt s.sq.seq
  scl : s.drv.sclO = sclOf s.drv.phase
  sda : s.drv.sdaO = sdaOf s.drv.phase
  room : s.sq.remain.toNat = 0 ∨ s.rx.rxcnt.toNat + s.sq.remain.toNat ≤ 14
  wants : wantsByte s.sq.seq = true → 0 < s.sq.remain.toNat
  writes : s.sq.cfgidx.toNat ≤ 2

theorem toNat_sub_one (r : BitVec 4) (h : 0 < r.toNat) : (r - 1).toNat = r.toNat - 1 := by
  have := r.isLt
  rw [BitVec.toNat_sub]
  simp
  omega

theorem toNat_add_one (r : BitVec 4) (h : r.toNat < 15) : (r + 1).toNat = r.toNat + 1 := by
  rw [BitVec.toNat_add]
  simp
  omega

theorem toNat_cfgidx_add_one (r : BitVec 2) (h : r.toNat < 2) : (r + 1).toNat = r.toNat + 1 := by
  rw [BitVec.toNat_add]
  simp
  omega

theorem seqAfter_inv (s : State) (h : SeqInv s) : SeqInv (seqAfter s) := by
  obtain ⟨hp, hc, hd, hr, hw, hi⟩ := h
  unfold seqAfter
  cases hq : s.sq.seq <;> rw [hq] at hp hw
  case idle => exact ⟨by rw [hq]; exact hp, hc, hd, hr, by rw [hq]; exact hw, hi⟩
  case start => exact ⟨rfl, rfl, rfl, hr, fun _ => hw rfl, hi⟩
  case addrW => exact ⟨by simp [sendDone, primDone, hp, phaseAt, phaseAfterSend]; decide,
      by simp [sendDone, primDone, hp, phaseAt, phaseAfterSend, sclOf]; decide,
      by simp [sendDone, primDone, hp, phaseAt, phaseAfterSend, sdaOf]; decide, hr, fun _ => hw rfl, hi⟩
  case reg => exact ⟨by simp [sendDone, primDone, hp, phaseAt, phaseAfterSend],
      by simp [sendDone, primDone, hp, phaseAt, phaseAfterSend, sclOf],
      by simp [sendDone, primDone, hp, phaseAt, phaseAfterSend, sdaOf], hr, fun _ => hw rfl, hi⟩
  case restart => exact ⟨rfl, rfl, rfl, hr, fun _ => hw rfl, hi⟩
  case addrR => exact ⟨by simp [sendDone, primDone, hp, phaseAt, phaseAfterSend]; decide,
      by simp [sendDone, primDone, hp, phaseAt, phaseAfterSend, sclOf]; decide,
      by simp [sendDone, primDone, hp, phaseAt, phaseAfterSend, sdaOf]; decide, hr, fun _ => hw rfl, hi⟩
  case recv =>
    have h0 : 0 < s.sq.remain.toNat := hw rfl
    refine ⟨rfl, rfl, rfl, ?_, (fun h => by cases h), hi⟩
    have h1 : (toSeq .mack (storeByte (recvDone s))).rx.rxcnt = s.rx.rxcnt + 1 := rfl
    have h2 : (toSeq .mack (storeByte (recvDone s))).sq.remain = s.sq.remain - 1 := rfl
    have hr' : s.rx.rxcnt.toNat + s.sq.remain.toNat ≤ 14 := by omega
    rw [h1, h2, toNat_sub_one _ h0, toNat_add_one _ (by omega)]
    omega
  case mack =>
    by_cases h0 : s.sq.remain = 0
    · have e : (s.sq.remain == 0) = true := by simpa using h0
      simp only [if_pos h0, e]
      exact ⟨rfl, rfl, rfl, hr, (fun h => by cases h), hi⟩
    · have e : (s.sq.remain == 0) = false := by simpa using h0
      simp only [if_neg h0, e]
      refine ⟨rfl, rfl, rfl, hr, fun _ => ?_, hi⟩
      have : s.sq.remain.toNat ≠ 0 := fun h => h0 (BitVec.eq_of_toNat_eq (by simpa using h))
      show 0 < s.sq.remain.toNat
      omega
  case stop => exact ⟨rfl, rfl, rfl, hr, (fun h => by cases h), hi⟩
  case cstart => exact ⟨rfl, rfl, rfl, hr, (fun h => by cases h), hi⟩
  case caddr => exact ⟨by simp [sendDone, primDone, hp, phaseAt, phaseAfterSend]; decide,
      by simp [sendDone, primDone, hp, phaseAt, phaseAfterSend, sclOf]; decide,
      by simp [sendDone, primDone, hp, phaseAt, phaseAfterSend, sdaOf]; decide, hr, (fun h => by cases h), hi⟩
  case creg => exact ⟨by simp [sendDone, primDone, hp, phaseAt, phaseAfterSend],
      by simp [sendDone, primDone, hp, phaseAt, phaseAfterSend, sclOf],
      by simp [sendDone, primDone, hp, phaseAt, phaseAfterSend, sdaOf], hr, (fun h => by cases h), hi⟩
  case cval => exact ⟨by simp [sendDone, primDone, hp, phaseAt, phaseAfterSend],
      by simp [sendDone, primDone, hp, phaseAt, phaseAfterSend, sclOf],
      by simp [sendDone, primDone, hp, phaseAt, phaseAfterSend, sdaOf], hr, (fun h => by cases h), hi⟩
  case cstop =>
    show SeqInv (nextWrite (stopDone s))
    have h2 : (stopDone s).sq.cfgidx = s.sq.cfgidx := rfl
    unfold nextWrite
    by_cases hlt : (stopDone s).sq.cfgidx.toNat < 2
    · rw [if_pos hlt]
      refine ⟨rfl, rfl, rfl, hr, (fun h => by cases h), ?_⟩
      show ((stopDone s).sq.cfgidx + 1).toNat ≤ 2
      rw [toNat_cfgidx_add_one _ hlt]
      omega
    · rw [if_neg hlt]
      exact ⟨rfl, rfl, rfl, hr, (fun h => by cases h), Nat.zero_le _⟩

/-- The receive buffer's count stays in its range (R45). -/
theorem seqAfter_rxcnt (s : State) (h : SeqInv s) (hx : s.rx.rxcnt.toNat ≤ 14) : (seqAfter s).rx.rxcnt.toNat ≤ 14 := by
  unfold seqAfter
  cases hq : s.sq.seq
  case recv =>
    have h0 : 0 < s.sq.remain.toNat := h.wants (by rw [hq]; rfl)
    have hr := h.room
    have h1 : (toSeq .mack (storeByte (recvDone s))).rx.rxcnt = s.rx.rxcnt + 1 := rfl
    rw [h1, toNat_add_one _ (by omega)]
    omega
  case cstop =>
    show (nextWrite (stopDone s)).rx.rxcnt.toNat ≤ 14
    unfold nextWrite
    split <;> exact hx
  all_goals exact hx

/-! ## To the end of a composite command -/

/-- How many states the sequencer still enters. -/
def seqStates (s : State) : Nat :=
  let r := s.sq.remain.toNat
  let w := 2 - s.sq.cfgidx.toNat
  match s.sq.seq with
  | .idle => 0
  | .start => 2 * r + 6
  | .addrW => 2 * r + 5
  | .reg => 2 * r + 4
  | .restart => 2 * r + 3
  | .addrR => 2 * r + 2
  | .recv => 2 * r + 1
  | .mack => 2 * r + 2
  | .stop => 1
  | .cstart => 5 * w + 5
  | .caddr => 5 * w + 4
  | .creg => 5 * w + 3
  | .cval => 5 * w + 2
  | .cstop => 5 * w + 1

/-- How many waits the sequencer still makes (R228). -/
def seqWaitsLeft (s : State) : Nat :=
  let r := s.sq.remain.toNat
  let w := 2 - s.sq.cfgidx.toNat
  match s.sq.seq with
  | .idle => 0
  | .start => 9 * r + 31
  | .addrW => 9 * r + 30
  | .reg => 9 * r + 21
  | .restart => 9 * r + 12
  | .addrR => 9 * r + 11
  | .recv => 9 * r + 2
  | .mack => 9 * r + 3
  | .stop => 2
  | .cstart => 30 * w + 30
  | .caddr => 30 * w + 29
  | .creg => 30 * w + 20
  | .cval => 30 * w + 11
  | .cstop => 30 * w + 2

theorem seqAfter_measures (s : State) (h : SeqInv s) (hq : s.sq.seq ≠ .idle) :
    seqStates s = seqStates (seqAfter s) + 1 ∧ seqWaitsLeft s = seqWaits s.sq.seq + seqWaitsLeft (seqAfter s) := by
  obtain ⟨hp, hc, hd, hr, hw, hi⟩ := h
  cases hs : s.sq.seq <;> rw [hs] at hw
  case idle => exact absurd hs hq
  case recv =>
    have h0 : 0 < s.sq.remain.toNat := hw rfl
    have h2 : (seqAfter s).sq.remain = s.sq.remain - 1 := by simp [seqAfter, hs, recvDone, primDone]
    have h3 : (seqAfter s).sq.seq = .mack := by simp [seqAfter, hs]
    simp only [seqStates, seqWaitsLeft, hs, h3, h2, toNat_sub_one _ h0, seqWaits]
    omega
  case mack =>
    have h2 : (seqAfter s).sq.remain = s.sq.remain := by simp [seqAfter, hs, mackDone, primDone]
    by_cases h0 : s.sq.remain = 0
    · have h3 : (seqAfter s).sq.seq = .stop := by simp [seqAfter, hs, h0]
      simp [seqStates, seqWaitsLeft, hs, h3, h0, seqWaits]
    · have h3 : (seqAfter s).sq.seq = .recv := by simp only [seqAfter, hs, toSeq_sq, if_neg h0]
      simp only [seqStates, seqWaitsLeft, hs, h3, h2, seqWaits]
      exact ⟨trivial, by omega⟩
  case cstop =>
    by_cases hlt : s.sq.cfgidx.toNat < 2
    · have h2 : (seqAfter s).sq.cfgidx = s.sq.cfgidx + 1 := by simp [seqAfter, hs, stopDone, primDone, hlt]
      have h3 : (seqAfter s).sq.seq = .cstart := by simp [seqAfter, hs, stopDone, primDone, hlt]
      simp only [seqStates, seqWaitsLeft, hs, h3, h2, toNat_cfgidx_add_one _ hlt, seqWaits]
      omega
    · have h3 : (seqAfter s).sq.seq = .idle := by simp [seqAfter, hs, stopDone, primDone, hlt]
      simp only [seqStates, seqWaitsLeft, hs, h3, seqWaits]
      omega
  all_goals
    simp [seqStates, seqWaitsLeft, seqAfter, hs, seqWaits, startDone, sendDone, restartDone, stopDone, primDone]
    try omega

/-- The sequencer's states in closed form, up to `S_IDLE`. -/
def seqEnd : Nat → State → State
  | 0, s => s
  | n + 1, s => if s.sq.seq = .idle then s else seqEnd n (seqAfter s)

/-- What a composite command may hang in: a wait of the primitive of some state the sequencer has entered (R175). -/
def SeqHang (s x : State) : Prop := ∃ n, n < seqStates s ∧ WireOnly (seqEnd n s) x

theorem runSeq_spec (n : Nat) (s : State) (h : SeqInv s) (hn : seqStates s ≤ n) :
    Spec (seqWaitsLeft s) s (runSeq n s) () (seqEnd n s) (SeqHang s) := by
  induction n generalizing s with
  | zero =>
    have hq : s.sq.seq = .idle := by
      by_contra hne
      have := (seqAfter_measures s h hne).1
      omega
    have : seqWaitsLeft s = 0 := by simp [seqWaitsLeft, hq]
    rw [this]
    exact Spec.pure () s s _ rfl
  | succ n ih =>
    unfold runSeq seqEnd
    by_cases hq : s.sq.seq = .idle
    · have : seqWaitsLeft s = 0 := by simp [seqWaitsLeft, hq]
      rw [this, if_pos hq, if_pos hq]
      exact Spec.pure () s s _ rfl
    · obtain ⟨h1, h2⟩ := seqAfter_measures s h hq
      rw [if_neg hq, if_neg hq, h2]
      have hstep := (seqStep_spec s (fun hs => by
        have hp := h.phase
        have hscl := h.scl
        have hsda := h.sda
        rcases hs with hs | hs <;> rw [hs] at hp <;> rw [hp] at hscl hsda <;> exact ⟨hscl, hsda⟩)).weaken
          (H' := SeqHang s) fun x hx => ⟨0, by omega, hx⟩
      refine Spec.bind (f := fun _ s => runSeq n s) hstep (ih (seqAfter s) (seqAfter_inv s h) (by omega)) ?_
      rintro x ⟨k, hlt, hk⟩
      exact ⟨k + 1, by omega, by rw [seqEnd, if_neg hq]; exact hk⟩

theorem seqEnd_keeps (n : Nat) (s : State) : SeqKeeps s (seqEnd n s) := by
  induction n generalizing s with
  | zero => exact .refl s
  | succ n ih =>
    unfold seqEnd
    split
    · exact .refl s
    · exact (seqAfter_keeps s).trans (ih _)

theorem seqEnd_seqInv (n : Nat) (s : State) (h : SeqInv s) : SeqInv (seqEnd n s) := by
  induction n generalizing s with
  | zero => exact h
  | succ n ih =>
    unfold seqEnd
    split
    · exact h
    · exact ih _ (seqAfter_inv s h)

theorem seqEnd_inv (n : Nat) (s : State) (h : SeqInv s) (hn : seqStates s ≤ n) :
    SeqInv (seqEnd n s) ∧ (seqEnd n s).sq.seq = .idle := by
  induction n generalizing s with
  | zero =>
    refine ⟨h, ?_⟩
    by_contra hne
    have := (seqAfter_measures s h hne).1
    have hx : (seqEnd 0 s) = s := rfl
    omega
  | succ n ih =>
    unfold seqEnd
    by_cases hq : s.sq.seq = .idle
    · rw [if_pos hq]; exact ⟨h, hq⟩
    · rw [if_neg hq]
      have := (seqAfter_measures s h hq).1
      exact ih _ (seqAfter_inv s h) (by omega)

theorem seqEnd_rxcnt (n : Nat) (s : State) (h : SeqInv s) (hx : s.rx.rxcnt.toNat ≤ 14) :
    (seqEnd n s).rx.rxcnt.toNat ≤ 14 := by
  induction n generalizing s with
  | zero => exact hx
  | succ n ih =>
    unfold seqEnd
    split
    · exact hx
    · exact ih _ (seqAfter_inv s h) (seqAfter_rxcnt s h hx)

/-! ## The sequencer's registers at the end -/

/-- The states of CONFIG (R170). -/
def inConfig : SeqState → Bool
  | .cstart => true
  | .caddr => true
  | .creg => true
  | .cval => true
  | .cstop => true
  | .idle => false
  | .start => false
  | .addrW => false
  | .reg => false
  | .restart => false
  | .addrR => false
  | .recv => false
  | .mack => false
  | .stop => false

/-- The sequencer's registers that are 0 whenever the sequencer enters a state (R23, R33). -/
structure SeqIdleRegs (s : State) : Prop where
  bitcnt : s.sq.bitcnt = 0
  remain : wantsByte s.sq.seq = false → s.sq.seq ≠ .mack → s.sq.remain = 0
  cfgidx : inConfig s.sq.seq = false → s.sq.cfgidx = 0
  regptr : s.sq.seq = .idle → s.sq.regptr = 0

theorem seqAfter_idleRegs (s : State) (h : SeqIdleRegs s) : SeqIdleRegs (seqAfter s) := by
  obtain ⟨hb, hr, hc, hp⟩ := h
  unfold seqAfter
  cases hq : s.sq.seq <;> rw [hq] at hr hc hp
  case idle =>
    exact ⟨hb, fun _ _ => hr rfl (by decide), fun _ => hc rfl, fun _ => hp rfl⟩
  case start => exact ⟨hb, (fun h => by cases h), fun _ => hc rfl, fun h => by cases h⟩
  case addrW => exact ⟨rfl, (fun h => by cases h), fun _ => hc rfl, fun h => by cases h⟩
  case reg => exact ⟨rfl, (fun h => by cases h), fun _ => hc rfl, fun h => by cases h⟩
  case restart => exact ⟨hb, (fun h => by cases h), fun _ => hc rfl, fun h => by cases h⟩
  case addrR => exact ⟨rfl, (fun h => by cases h), fun _ => hc rfl, fun h => by cases h⟩
  case recv => exact ⟨rfl, fun _ h => absurd rfl h, fun _ => hc rfl, fun h => by cases h⟩
  case mack =>
    by_cases h0 : s.sq.remain = 0
    · rw [if_pos h0]
      exact ⟨hb, fun _ _ => h0, fun _ => hc rfl, fun h => by cases h⟩
    · rw [if_neg h0]
      exact ⟨hb, (fun h => by cases h), fun _ => hc rfl, fun h => by cases h⟩
  case stop => exact ⟨hb, fun _ _ => hr rfl (by decide), fun _ => hc rfl, fun _ => rfl⟩
  case cstart => exact ⟨hb, fun _ _ => hr rfl (by decide), (fun h => by cases h), fun h => by cases h⟩
  case caddr => exact ⟨rfl, fun _ _ => hr rfl (by decide), (fun h => by cases h), fun h => by cases h⟩
  case creg => exact ⟨rfl, fun _ _ => hr rfl (by decide), (fun h => by cases h), fun h => by cases h⟩
  case cval => exact ⟨rfl, fun _ _ => hr rfl (by decide), (fun h => by cases h), fun h => by cases h⟩
  case cstop =>
    show SeqIdleRegs (nextWrite (stopDone s))
    unfold nextWrite
    split
    · exact ⟨hb, fun _ _ => hr rfl (by decide), (fun h => by cases h), fun h => by cases h⟩
    · exact ⟨hb, fun _ _ => hr rfl (by decide), fun _ => rfl, fun _ => rfl⟩

theorem seqEnd_idleRegs (n : Nat) (s : State) (h : SeqIdleRegs s) : SeqIdleRegs (seqEnd n s) := by
  induction n generalizing s with
  | zero => exact h
  | succ n ih =>
    unfold seqEnd
    split
    · exact h
    · exact ih _ (seqAfter_idleRegs s h)

/-- A completed composite command ends at a command boundary in `IDLE`. -/
theorem endBus_seqEnd_boundary (n : Nat) (s : State) (h : SeqInv s) (h' : SeqIdleRegs s) (hn : seqStates s ≤ n) :
    Boundary (endBus (seqEnd n s)) ∧ (endBus (seqEnd n s)).drv.phase = .idle := by
  obtain ⟨hi, hq⟩ := seqEnd_inv n s h hn
  obtain ⟨hb, hr, hc, hp⟩ := seqEnd_idleRegs n s h'
  have hph : (seqEnd n s).drv.phase = .idle := by rw [hi.phase, hq]; rfl
  refine ⟨⟨rfl, hi.scl, hi.sda, ?_⟩, hph⟩
  have h1 := hr (by rw [hq]; rfl) (by rw [hq]; decide)
  have h2 := hc (by rw [hq]; rfl)
  have h3 := hp hq
  rw [endBus_sq]
  rcases hs : (seqEnd n s).sq with ⟨q, rp, rm, ci, sh, bc⟩
  rw [hs] at hq h1 h2 h3 hb
  simp only at hq h1 h2 h3 hb
  subst hq h1 h2 h3 hb
  rfl

end Sys2Proof.Laws
end

