-- ==== Sys2Proof/Laws/Commands.lean ====
section
/-! SUPPORT. Every command is the checks of `60_exceptions.md` R223 around an effect; the legality test is the phase table
R121; the state of the machine after a step by what the host does. -/
namespace Sys2Proof.Laws
open Sys2Proof.Machine Sys2Proof.Safety

/-- What a command does once it has passed every check. -/
def effect : Instr → State → State
  | .start => busCommand doStart
  | .restart => busCommand doRestart
  | .send b => busCommand (doSend b)
  | .recv => busCommand doRecv
  | .mack v => busCommand (doMack v)
  | .stop => busCommand doStop
  | .config => busCommand fun s => runSeq seqFuel (latchConfig s)
  | .bread r c => busCommand fun s => runSeq seqFuel (latchBread r c s)
  | .fclear => filterCommand fun _ => FilterBank.reset
  | .freset => filterCommand fun _ => { FilterBank.reset with armed := true }
  | .fpush x => filterCommand fun f => f.push x
  | .fpushc k => fun s => filterCommand (fun f => f.push (s.rx.channel k.toNat)) s

/-- Every command is its checks around its effect (R223). -/
theorem exec_eq_command (i : Instr) (s : State) : exec i s = command i (effect i) s := by
  cases i
  case start => simp only [exec, execStart, effect]
  case restart => simp only [exec, execRestart, effect]
  case send b => simp only [exec, execSend, effect]
  case recv => simp only [exec, execRecv, effect]
  case mack v => simp only [exec, execMack, effect]
  case stop => simp only [exec, execStop, effect]
  case config => simp only [exec, execConfig, effect]
  case bread r c => simp only [exec, execBread, effect]
  case fclear => simp only [exec, execFclear, effect]
  case freset => simp only [exec, execFreset, effect]
  case fpush x => simp only [exec, execFpush, effect]
  case fpushc k => simp only [exec, execFpushc, effect, command]

/-- The legality test reads the phase table (R121, R160, R205). -/
theorem legalIn_eq_isSome (i : Instr) (p : Phase) : Instr.legalIn i p = (phaseTable i p).isSome := by
  cases i <;> cases p <;> rfl

/-- A command answers a next state, always. -/
theorem exec_next (i : Instr) (s : State) : ∃ t, exec i s = .next t := by
  rw [exec_eq_command]
  exact ⟨_, rfl⟩

/-- A step in which the host presents a word while `BUSY` = 0 (R21). -/
theorem step_word {s : State} {w : Command} {rest : List HostAction} (h : s.host.todo = .command w :: rest)
    (hb : s.drv.busy = false) : step s = retire (execWord w s.popAction) := by
  simp [step, State.rst, State.cmdWord, h, hb]

/-- A step in which the host asserts reset (R250). -/
theorem step_reset {s : State} {rest : List HostAction} (h : s.host.todo = .reset :: rest) :
    step s = .next (hostReset s) := by
  simp [step, State.rst, h]

/-! ## The composite commands at their beginning -/

/-- BREAD as its table row `S_IDLE` leaves it. -/
theorem latchBread_begin (r c : Byte) (s : State) (hr : Boundary s) (hp : s.drv.phase = .idle) (h1 : 1 ≤ c.toNat)
    (h2 : c.toNat ≤ 14) :
    SeqInv (latchBread r c (beginBus s)) ∧ SeqIdleRegs (latchBread r c (beginBus s)) ∧
      seqStates (latchBread r c (beginBus s)) = 2 * c.toNat + 6 ∧
      seqWaitsLeft (latchBread r c (beginBus s)) = 9 * c.toNat + 31 := by
  have e : (c.setWidth 4).toNat = c.toNat := by simp; omega
  refine ⟨⟨by simp [hp, phaseAt], by simp [hr.scl], by simp [hr.sda], .inr ?_, fun _ => ?_, ?_⟩,
    ⟨by simp [hr.sqIdle, Sequencer.reset], (fun h => by cases h), fun _ => by simp [hr.sqIdle, Sequencer.reset],
      fun h => by cases h⟩, ?_, ?_⟩
  · simp only [latchBread_rx, latchBread_sq, e]; simpa using h2
  · simp only [latchBread_sq, e]; omega
  · simp [hr.sqIdle, Sequencer.reset]
  · simp only [seqStates, latchBread_sq, e]
  · simp only [seqWaitsLeft, latchBread_sq, e]

/-- CONFIG as its table row `S_IDLE` leaves it. -/
theorem latchConfig_begin (s : State) (hr : Boundary s) (hp : s.drv.phase = .idle) :
    SeqInv (latchConfig (beginBus s)) ∧ SeqIdleRegs (latchConfig (beginBus s)) ∧
      seqStates (latchConfig (beginBus s)) = 15 ∧ seqWaitsLeft (latchConfig (beginBus s)) = 90 := by
  refine ⟨⟨by simp [hp, phaseAt], by simp [hr.scl], by simp [hr.sda], .inl ?_, (fun h => by cases h), Nat.zero_le _⟩,
    ⟨by simp [hr.sqIdle, Sequencer.reset], fun _ _ => by simp [hr.sqIdle, Sequencer.reset], (fun h => by cases h),
      fun h => by cases h⟩, rfl, rfl⟩
  simp [hr.sqIdle, Sequencer.reset]

end Sys2Proof.Laws
end

