-- ==== Sys2Proof/Laws/Encoding.lean ====
section
/-! SUPPORT. The bits of a command word and of its argument, once, so that no later proof unfolds an append. -/
namespace Sys2Proof.Laws

theorem getLsbD_commandWord (op : BitVec 4) (arg : BitVec 16) (k : Nat) :
    (commandWord op arg).getLsbD k
      = if k < 16 then arg.getLsbD k else if k < 20 then false else op.getLsbD (k - 20) := by
  have h : (commandWord op arg).getLsbD k = ((op ++ 0#4) ++ arg : BitVec (4 + 4 + 16)).getLsbD k := rfl
  rw [h, BitVec.getLsbD_append, BitVec.getLsbD_append]
  by_cases h1 : k < 16
  · simp [h1]
  · by_cases h2 : k < 20
    · have : k - 16 < 4 := by omega
      simp [h1, h2, this]
    · have : ¬ k - 16 < 4 := by omega
      have e : k - 16 - 4 = k - 20 := by omega
      simp only [h1, h2, this, e, if_false]

theorem getLsbD_byteArg (b : Byte) (k : Nat) :
    ((0#8 ++ b : BitVec (8 + 8)) : BitVec 16).getLsbD k = (decide (k < 8) && b.getLsbD k) := by
  rw [BitVec.getLsbD_append]; by_cases h : k < 8 <;> simp [h]

theorem getLsbD_twoBytes (r c : Byte) (k : Nat) :
    ((r ++ c : BitVec (8 + 8)) : BitVec 16).getLsbD k = if k < 8 then c.getLsbD k else r.getLsbD (k - 8) := by
  rw [BitVec.getLsbD_append]

theorem toNat_commandWord (op : BitVec 4) (arg : BitVec 16) :
    (commandWord op arg).toNat = op.toNat * 2 ^ 20 + arg.toNat := by
  have h : (commandWord op arg).toNat = (((op ++ 0#4) ++ arg : BitVec (4 + 4 + 16))).toNat := rfl
  have ha : arg.toNat < 2 ^ 16 := arg.isLt
  rw [h, BitVec.toNat_append, BitVec.toNat_append, ← Nat.shiftLeft_add_eq_or_of_lt ha]
  simp only [Nat.shiftLeft_eq, BitVec.toNat_ofNat]
  norm_num
  omega

theorem toNat_byteArg (b : Byte) : ((0#8 ++ b : BitVec (8 + 8)) : BitVec 16).toNat = b.toNat := by
  rw [BitVec.toNat_append]; simp

theorem toNat_twoBytes (r c : Byte) : ((r ++ c : BitVec (8 + 8)) : BitVec 16).toNat = r.toNat * 2 ^ 8 + c.toNat := by
  rw [BitVec.toNat_append, ← Nat.shiftLeft_add_eq_or_of_lt c.isLt, Nat.shiftLeft_eq]

/-! ## The fields of a word as numbers (R90, R92) -/

theorem toNat_opField (w : Command) : (opField w).toNat = w.toNat / 2 ^ 20 := by
  have := w.isLt
  simp only [opField, BitVec.extractLsb'_toNat, Nat.shiftRight_eq_div_pow]
  omega

theorem toNat_zField (w : Command) : (zField w).toNat = w.toNat / 2 ^ 16 % 16 := by
  simp [zField, BitVec.extractLsb'_toNat, Nat.shiftRight_eq_div_pow]

theorem toNat_argField (w : Command) : (argField w).toNat = w.toNat % 2 ^ 16 := by
  simp [argField, BitVec.extractLsb'_toNat]

theorem toNat_argHi (w : Command) : (argHi w).toNat = w.toNat / 2 ^ 8 % 256 := by
  simp [argHi, BitVec.extractLsb'_toNat, Nat.shiftRight_eq_div_pow]

theorem toNat_argLo (w : Command) : (argLo w).toNat = w.toNat % 256 := by
  simp [argLo, BitVec.extractLsb'_toNat]

end Sys2Proof.Laws
end

