-- ==== Sys2Proof/Laws/Memory.lean ====
section
/-! SUPPORT. A slave's memory: reading after writing, and the canonical form, which every write keeps. -/
namespace Sys2Proof.Laws
open Sys2Proof.Machine

/-- Below the first address it lists, a canonical memory reads as unlisted. -/
theorem read_of_lt (m : Memory) (a lo : Nat) (hw : Memory.wfFrom lo m = true) (h : a < lo) :
    Memory.read m a = Memory.unlisted := by
  induction m generalizing lo with
  | nil => rfl
  | cons e m ih =>
    obtain ⟨k', v'⟩ := e
    simp only [Memory.wfFrom, Bool.and_eq_true, decide_eq_true_eq] at hw
    have hne : k' ≠ a := by omega
    simp only [Memory.read, hne, if_false]
    exact ih (k' + 1) hw.2 (by omega)

/-- In a canonical memory the byte written is the byte read back, and every other byte is as before. -/
theorem read_write (m : Memory) (lo a : Nat) (v : Byte) (b : Nat) (hw : Memory.wfFrom lo m = true) :
    Memory.read (Memory.write m a v) b = if b = a then v else Memory.read m b := by
  induction m generalizing lo with
  | nil =>
    unfold Memory.write Memory.cons
    by_cases hv : v = Memory.unlisted <;> by_cases hb : b = a <;>
      simp [hv, hb, Memory.read, eq_comm]
    intro h; exact absurd h.symm hb
  | cons e m ih =>
    obtain ⟨k, w⟩ := e
    have hw' := hw
    simp only [Memory.wfFrom, Bool.and_eq_true, decide_eq_true_eq] at hw
    unfold Memory.write
    by_cases h1 : a < k
    · have hun : Memory.read ((k, w) :: m) a = Memory.unlisted :=
        read_of_lt ((k, w) :: m) a k (by simp [Memory.wfFrom, hw.1.1.2, hw.1.2, hw.2]) h1
      simp only [h1, if_true, Memory.cons]
      by_cases hv : v = Memory.unlisted
      · by_cases hb : b = a
        · simp [hv, hb, hun]
        · simp [hv, hb]
      · by_cases hb : b = a
        · simp [hv, hb, Memory.read]
        · simp [hv, hb, Memory.read, Ne.symm hb]
    · by_cases h2 : a = k
      · subst h2
        have hun : Memory.read m a = Memory.unlisted := read_of_lt m a (a + 1) hw.2 (by omega)
        simp only [lt_irrefl, if_false, if_true, Memory.cons]
        by_cases hv : v = Memory.unlisted
        · by_cases hb : b = a
          · simp [hv, hb, hun]
          · simp [hv, hb, Memory.read, Ne.symm hb]
        · by_cases hb : b = a
          · simp [hv, hb, Memory.read]
          · simp [hv, hb, Memory.read, Ne.symm hb]
      · simp only [h1, h2, if_false, Memory.read, ih (k + 1) hw.2]
        by_cases hb : b = a
        · simp [hb]; intro h; omega
        · simp [hb]

/-- A write at an address of the register space keeps the canonical form. -/
theorem write_wfFrom (m : Memory) (lo a : Nat) (v : Byte) (hlo : lo ≤ a) (ha : a < 256)
    (hw : Memory.wfFrom lo m = true) : Memory.wfFrom lo (Memory.write m a v) = true := by
  induction m generalizing lo with
  | nil =>
    unfold Memory.write Memory.cons
    by_cases hv : v = Memory.unlisted <;> simp [hv, Memory.wfFrom, hlo, ha]
  | cons e m ih =>
    obtain ⟨k, w⟩ := e
    simp only [Memory.wfFrom, Bool.and_eq_true, decide_eq_true_eq] at hw
    obtain ⟨⟨⟨hk, hk'⟩, hw1⟩, hw2⟩ := hw
    unfold Memory.write
    by_cases h1 : a < k
    · simp only [h1, if_true, Memory.cons]
      by_cases hv : v = Memory.unlisted
      · simp [hv, Memory.wfFrom, hk, hk', hw2]; simpa using hw1
      · have : a + 1 ≤ k := h1
        simp only [hv, if_false, Memory.wfFrom, hlo, ha, hk', hw1, hw2, this]; simp [hv]
    · by_cases h2 : a = k
      · subst h2
        simp only [lt_irrefl, if_false, if_true, Memory.cons]
        by_cases hv : v = Memory.unlisted
        · simp only [hv, if_true]
          clear ih
          cases m with
          | nil => rfl
          | cons e m =>
            obtain ⟨k2, w2⟩ := e
            simp only [Memory.wfFrom, Bool.and_eq_true, decide_eq_true_eq] at hw2 ⊢
            exact ⟨⟨⟨by omega, hw2.1.1.2⟩, hw2.1.2⟩, hw2.2⟩
        · simp only [hv, if_false, Memory.wfFrom, hlo, ha, hw2]; simp [hv]
      · simp only [h1, h2, if_false, Memory.wfFrom, hk, hk', hw1]
        simpa using ih (k + 1) (by omega) hw2

/-- Every memory operation keeps the canonical form: a write does. -/
theorem write_wf (m : Memory) (a : Byte) (v : Byte) (hw : Memory.wf m = true) :
    Memory.wf (Memory.write m a.toNat v) = true :=
  write_wfFrom m 0 a.toNat v (Nat.zero_le _) a.isLt hw

/-- A memory with nothing listed is canonical. -/
theorem nil_wf : Memory.wf [] = true := rfl

/-- Every bus event keeps the canonical form of the reference slave's memory. -/
theorem refSlave_observe_wf (d : RefSlave) (e : BusEvent) (hw : Memory.wf d.mem = true) :
    Memory.wf (d.observe e).mem = true := by
  cases e <;> simp only [RefSlave.observe, RefSlave.onTx, RefSlave.onRx, hw]
  · cases d.sel <;> simp only [hw]
    · split <;> simp [hw]
    · exact write_wf _ _ _ hw
  · cases d.sel <;> simp only [hw]

end Sys2Proof.Laws
end

