-- ==== Sys2Proof/Laws/PerInstr.lean ====
section
/-! SUPPORT. Facts stated per instruction: the encoder against the match and mask table (`30_encoding.md` R95). -/
namespace Sys2Proof.Laws

/-- The word of a command shows the table's `match` under the table's `mask` (R95). -/
def MatchMask.Statement (i : Instr) : Prop := encode i &&& i.maskWord = i.matchWord

theorem MatchMask.start : MatchMask.Statement .start := by unfold MatchMask.Statement; decide
theorem MatchMask.restart : MatchMask.Statement .restart := by unfold MatchMask.Statement; decide
theorem MatchMask.send (b : Byte) : MatchMask.Statement (.send b) := by
  apply BitVec.eq_of_getLsbD_eq
  intro k hk
  rw [BitVec.getLsbD_and, encode, getLsbD_commandWord, getLsbD_byteArg]
  interval_cases k <;> simp [Instr.maskWord, Instr.matchWord]
theorem MatchMask.recv : MatchMask.Statement .recv := by unfold MatchMask.Statement; decide
theorem MatchMask.mack (v : Level) : MatchMask.Statement (.mack v) := by unfold MatchMask.Statement; cases v <;> decide
theorem MatchMask.stop : MatchMask.Statement .stop := by unfold MatchMask.Statement; decide
theorem MatchMask.config : MatchMask.Statement .config := by unfold MatchMask.Statement; decide
theorem MatchMask.bread (r c : Byte) : MatchMask.Statement (.bread r c) := by
  apply BitVec.eq_of_getLsbD_eq
  intro k hk
  rw [BitVec.getLsbD_and, encode, getLsbD_commandWord, getLsbD_twoBytes]
  interval_cases k <;> simp [Instr.maskWord, Instr.matchWord]
theorem MatchMask.fclear : MatchMask.Statement .fclear := by unfold MatchMask.Statement; decide
theorem MatchMask.freset : MatchMask.Statement .freset := by unfold MatchMask.Statement; decide
theorem MatchMask.fpush (x : Sample) : MatchMask.Statement (.fpush x) := by
  apply BitVec.eq_of_getLsbD_eq
  intro k hk
  rw [BitVec.getLsbD_and, encode, getLsbD_commandWord]
  interval_cases k <;> simp [Instr.maskWord, Instr.matchWord]
theorem MatchMask.fpushc (k : BitVec 3) : MatchMask.Statement (.fpushc k) := by
  unfold MatchMask.Statement; revert k; decide

end Sys2Proof.Laws
end

