-- ==== Sys2Proof/Laws/Traffic.lean ====
section
/-! SUPPORT. The sequencer of `41_imu_protocol.md` R169 against the primitives it performs (R160): which primitives are
still to come, and what the events of those already performed have left in the registers. -/
namespace Sys2Proof.Laws
open Sys2Proof.Machine Sys2Proof.Safety

/-! ## The environment's answers depend on the bus alone -/

/-- Two states whose buses the environment cannot tell apart. -/
structure SameBus (s t : State) : Prop where
  trace : t.trace = s.trace
  peer : t.env.peer = s.env.peer
  choice : t.choice = s.choice

theorem SameBus.ackLevel {s t : State} (h : SameBus s t) (b : Byte) : t.ackLevel b = s.ackLevel b := by
  unfold State.ackLevel
  rw [h.trace, h.peer, h.choice]

theorem SameBus.rxByte {s t : State} (h : SameBus s t) : t.rxByte = s.rxByte := by
  unfold State.rxByte
  rw [h.trace, h.peer, h.choice]

theorem SameBus.event {s t : State} (h : SameBus s t) (i : Instr) : primitiveEvent t i = primitiveEvent s i := by
  cases i <;> simp only [primitiveEvent, h.ackLevel, h.rxByte]

theorem SameBus.after {s t : State} (h : SameBus s t) (i : Instr) : SameBus (busAfter i s) (busAfter i t) where
  trace := by simp only [busAfter, h.trace, h.event]
  peer := by simp only [busAfter, h.peer, h.event]
  choice := by simp only [busAfter, h.choice]

theorem SameBus.traffic {s t : State} (h : SameBus s t) (is : List Instr) : trafficOf is t = trafficOf is s := by
  induction is generalizing s t with
  | nil => rfl
  | cons i is ih => rw [trafficOf, trafficOf, h.event, ih (h.after i)]

/-! ## The primitives still to come -/

theorem burstPrimitives_succ (n : Nat) : burstPrimitives (n + 1) = .recv :: .mack (n == 0) :: burstPrimitives n := by
  cases n <;> rfl

/-- The writes of CONFIG after the present one. -/
def laterWrites : Nat → Byte → BitVec 2 → List Instr
  | 0, _, _ => []
  | n + 1, r, i => writePrimitives (r + 1) (cfgVal (i + 1)) ++ laterWrites n (r + 1) (i + 1)

/-- The primitives the sequencer has still to perform (R169). -/
def seqPrims (s : State) : List Instr :=
  let r := s.sq.regptr
  let burst := burstPrimitives s.sq.remain.toNat ++ [.stop]
  let later := laterWrites (2 - s.sq.cfgidx.toNat) r s.sq.cfgidx
  let v := cfgVal s.sq.cfgidx
  match s.sq.seq with
  | .idle => []
  | .start => [.start, .send 0xD6#8, .send r, .restart, .send 0xD7#8] ++ burst
  | .addrW => [.send 0xD6#8, .send r, .restart, .send 0xD7#8] ++ burst
  | .reg => [.send r, .restart, .send 0xD7#8] ++ burst
  | .restart => [.restart, .send 0xD7#8] ++ burst
  | .addrR => .send 0xD7#8 :: burst
  | .recv => burst
  | .mack => .mack (s.sq.remain == 0) :: burst
  | .stop => [.stop]
  | .cstart => [.start, .send 0xD6#8, .send r, .send v, .stop] ++ later
  | .caddr => [.send 0xD6#8, .send r, .send v, .stop] ++ later
  | .creg => [.send r, .send v, .stop] ++ later
  | .cval => [.send v, .stop] ++ later
  | .cstop => .stop :: later

/-- What the events `es` have left in the registers, the receive buffer filled from `RXCNT` on. -/
structure RecordedFrom (es : List BusEvent) (s t : State) : Prop where
  trace : t.trace = s.trace ++ es
  peer : t.env.peer = es.foldl BusPeer.observe s.env.peer
  ackstat : t.drv.ackstat = (sentLevels es).getLastD s.drv.ackstat
  nakcnt : t.drv.nakcnt.toNat = min 255 (s.drv.nakcnt.toNat + (sentLevels es).count true)
  rdata : t.drv.rdata = (receivedBytes es).getLastD s.drv.rdata
  rxcnt : t.rx.rxcnt.toNat = s.rx.rxcnt.toNat + (receivedBytes es).length
  rxbuf : ∀ j, t.rx.byte j = if s.rx.rxcnt.toNat ≤ j ∧ j < s.rx.rxcnt.toNat + (receivedBytes es).length
    then (receivedBytes es).getD (j - s.rx.rxcnt.toNat) 0 else s.rx.byte j
  err : t.err = s.err
  fb : t.fb = s.fb
  host : t.host = s.host

theorem sentLevels_append (es fs : List BusEvent) : sentLevels (es ++ fs) = sentLevels es ++ sentLevels fs := by
  induction es with
  | nil => rfl
  | cons e es ih => cases e <;> simp [sentLevels, ih]

theorem receivedBytes_append (es fs : List BusEvent) :
    receivedBytes (es ++ fs) = receivedBytes es ++ receivedBytes fs := by
  induction es with
  | nil => rfl
  | cons e es ih => cases e <;> simp [receivedBytes, ih]

theorem getLastD_append {α : Type} (xs ys : List α) (d : α) : (xs ++ ys).getLastD d = ys.getLastD (xs.getLastD d) := by
  cases ys with
  | nil => simp
  | cons y ys => rw [List.getLastD_eq_getLast?, List.getLast?_append]; simp [List.getLastD_eq_getLast?, List.getLast?_cons]

theorem RecordedFrom.refl (s : State) : RecordedFrom [] s s where
  trace := by simp
  peer := rfl
  ackstat := rfl
  nakcnt := by have := s.drv.nakcnt.isLt; simp [sentLevels]; omega
  rdata := rfl
  rxcnt := rfl
  rxbuf j := by rw [if_neg]; simp [receivedBytes]
  err := rfl
  fb := rfl
  host := rfl

theorem RecordedFrom.trans {es fs : List BusEvent} {s t u : State} (h : RecordedFrom es s t) (h' : RecordedFrom fs t u) :
    RecordedFrom (es ++ fs) s u where
  trace := by rw [h'.trace, h.trace, List.append_assoc]
  peer := by rw [h'.peer, h.peer, List.foldl_append]
  ackstat := by rw [h'.ackstat, h.ackstat, sentLevels_append, getLastD_append]
  nakcnt := by rw [h'.nakcnt, h.nakcnt, sentLevels_append, List.count_append]; omega
  rdata := by rw [h'.rdata, h.rdata, receivedBytes_append, getLastD_append]
  rxcnt := by rw [h'.rxcnt, h.rxcnt, receivedBytes_append, List.length_append]; omega
  rxbuf j := by
    rw [h'.rxbuf, h.rxbuf, h.rxcnt, receivedBytes_append, List.length_append]
    by_cases h1 : j < s.rx.rxcnt.toNat
    · rw [if_neg (by omega), if_neg (by omega), if_neg (by omega)]
    · by_cases h2 : j < s.rx.rxcnt.toNat + (receivedBytes es).length
      · rw [if_neg (by omega), if_pos (by omega), if_pos (by omega), List.getD_append _ _ _ _ (by omega)]
      · by_cases h3 : j < s.rx.rxcnt.toNat + (receivedBytes es).length + (receivedBytes fs).length
        · rw [if_pos (by omega), if_pos (by omega), List.getD_append_right _ _ _ _ (by omega), Nat.sub_sub]
        · rw [if_neg (by omega), if_neg (by omega), if_neg (by omega)]
  err := h'.err.trans h.err
  fb := h'.fb.trans h.fb
  host := h'.host.trans h.host

theorem toNat_nakCount (n : BitVec 8) (a : Level) : (nakCount n a).toNat = min 255 (n.toNat + [a].count true) := by
  revert n a; decide

/-- A wait that hangs records nothing. -/
theorem WireOnly.recordedFrom {s t : State} (h : WireOnly s t) : RecordedFrom [] s t :=
  { RecordedFrom.refl s with
    trace := by simp [h.trace]
    peer := h.peer
    ackstat := by rw [h.drv]; rfl
    nakcnt := by rw [h.drv]; exact (RecordedFrom.refl s).nakcnt
    rdata := by rw [h.drv]; rfl
    rxcnt := by rw [h.rx]; rfl
    rxbuf := by rw [h.rx]; exact (RecordedFrom.refl s).rxbuf
    err := h.err
    fb := h.fb
    host := h.host }

/-- A primitive with neither an acknowledge level nor a received byte. -/
theorem recordedFrom_plain {e : BusEvent} {s t : State} (h1 : sentLevels [e] = []) (h2 : receivedBytes [e] = [])
    (trace : t.trace = s.trace ++ [e]) (peer : t.env.peer = s.env.peer.observe e) (ack : t.drv.ackstat = s.drv.ackstat)
    (nak : t.drv.nakcnt = s.drv.nakcnt) (rd : t.drv.rdata = s.drv.rdata) (rx : t.rx = s.rx) (err : t.err = s.err)
    (fb : t.fb = s.fb) (host : t.host = s.host) : RecordedFrom [e] s t where
  trace := trace
  peer := peer
  ackstat := by rw [h1, ack]; rfl
  nakcnt := by rw [h1, nak]; exact (RecordedFrom.refl s).nakcnt
  rdata := by rw [h2, rd]; rfl
  rxcnt := by rw [h2, rx]; rfl
  rxbuf := by rw [h2, rx]; exact (RecordedFrom.refl s).rxbuf
  err := err
  fb := fb
  host := host

/-- A sent byte. -/
theorem recordedFrom_send (b : Byte) (s : State) (q : SeqState) :
    RecordedFrom [.tx b (s.ackLevel b)] s (toSeq q (sendDone b s)) where
  trace := rfl
  peer := rfl
  ackstat := rfl
  nakcnt := toNat_nakCount _ _
  rdata := rfl
  rxcnt := rfl
  rxbuf := (RecordedFrom.refl s).rxbuf
  err := rfl
  fb := rfl
  host := rfl

/-- A received byte, stored. -/
theorem recordedFrom_recv (s : State) (q : SeqState) (h : s.rx.rxcnt.toNat < 14) :
    RecordedFrom [.rx s.rxByte] s (toSeq q (storeByte (recvDone s))) where
  trace := rfl
  peer := rfl
  ackstat := rfl
  nakcnt := (RecordedFrom.refl s).nakcnt
  rdata := rfl
  rxcnt := toNat_add_one s.rx.rxcnt (by omega)
  rxbuf j := by
    show ((s.rx.rxbuf.setIfInBounds s.rx.rxcnt.toNat s.rxByte)[j]?).getD 0#8 = _
    have hl : (receivedBytes [BusEvent.rx s.rxByte]).length = 1 := rfl
    by_cases hj : j = s.rx.rxcnt.toNat
    · subst hj
      rw [if_pos (by omega)]
      simp [h, receivedBytes]
    · rw [if_neg (by omega), Vector.getElem?_setIfInBounds_ne (fun e => hj e.symm)]
      rfl
  err := rfl
  fb := rfl
  host := rfl

/-- One state of the sequencer performs the next of the primitives to come: its event is recorded, and the bus is as that
primitive leaves it. -/
theorem seqAfter_recorded (s : State) (h : SeqInv s) (hq : s.sq.seq ≠ .idle) :
    ∃ i, seqPrims s = i :: seqPrims (seqAfter s) ∧ RecordedFrom (primitiveEvent s i) s (seqAfter s) ∧
      SameBus (busAfter i s) (seqAfter s) := by
  cases hs : s.sq.seq
  case idle => exact absurd hs hq
  case start =>
    refine ⟨.start, ?_, ?_, ?_⟩
    · simp [seqPrims, seqAfter, hs, startDone, primDone]
    · simp only [seqAfter, hs]
      exact recordedFrom_plain rfl rfl rfl rfl rfl rfl rfl rfl rfl rfl rfl
    · simp only [seqAfter, hs]
      exact ⟨rfl, rfl, rfl⟩
  case addrW =>
    refine ⟨.send 0xD6#8, ?_, ?_, ?_⟩
    · simp [seqPrims, seqAfter, hs, sendDone, primDone]
    · simp only [seqAfter, hs]
      exact recordedFrom_send _ s _
    · simp only [seqAfter, hs]
      exact ⟨rfl, rfl, rfl⟩
  case reg =>
    refine ⟨.send s.sq.regptr, ?_, ?_, ?_⟩
    · simp [seqPrims, seqAfter, hs, sendDone, primDone]
    · simp only [seqAfter, hs]
      exact recordedFrom_send _ s _
    · simp only [seqAfter, hs]
      exact ⟨rfl, rfl, rfl⟩
  case restart =>
    refine ⟨.restart, ?_, ?_, ?_⟩
    · simp [seqPrims, seqAfter, hs, restartDone, primDone]
    · simp only [seqAfter, hs]
      exact recordedFrom_plain rfl rfl rfl rfl rfl rfl rfl rfl rfl rfl rfl
    · simp only [seqAfter, hs]
      exact ⟨rfl, rfl, rfl⟩
  case addrR =>
    refine ⟨.send 0xD7#8, ?_, ?_, ?_⟩
    · simp [seqPrims, seqAfter, hs, sendDone, primDone]
    · simp only [seqAfter, hs]
      exact recordedFrom_send _ s _
    · simp only [seqAfter, hs]
      exact ⟨rfl, rfl, rfl⟩
  case recv =>
    have h0 : 0 < s.sq.remain.toNat := h.wants (by rw [hs]; rfl)
    have hr := h.room
    refine ⟨.recv, ?_, ?_, ?_⟩
    · have e : (seqAfter s).sq.remain = s.sq.remain - 1 := by simp [seqAfter, hs, recvDone, primDone]
      have e2 : (seqAfter s).sq.seq = .mack := by simp [seqAfter, hs]
      have e3 := toNat_sub_one s.sq.remain h0
      obtain ⟨n, hn⟩ : ∃ n, s.sq.remain.toNat = n + 1 := ⟨s.sq.remain.toNat - 1, by omega⟩
      simp only [seqPrims, hs, e2, e, e3, hn, burstPrimitives_succ]
      have e5 : (n == 0) = (s.sq.remain - 1 == 0) := by
        rw [Bool.eq_iff_iff, beq_iff_eq, beq_iff_eq, ← BitVec.toNat_inj, e3, hn]
        rfl
      rw [e5]
      rfl
    · simp only [seqAfter, hs]
      exact recordedFrom_recv s _ (by omega)
    · simp only [seqAfter, hs]
      exact ⟨rfl, rfl, rfl⟩
  case mack =>
    refine ⟨.mack (s.sq.remain == 0), ?_, ?_, ?_⟩
    · by_cases h0 : s.sq.remain = 0
      · simp [seqPrims, seqAfter, hs, h0, burstPrimitives]
      · have e1 : (seqAfter s).sq.seq = .recv := by simp only [seqAfter, hs, if_neg h0]; rfl
        have e2 : (seqAfter s).sq.remain = s.sq.remain := by simp only [seqAfter, hs]; rfl
        simp only [seqPrims, hs, e1, e2]
    · simp only [seqAfter, hs]
      exact recordedFrom_plain rfl rfl rfl rfl rfl rfl rfl rfl rfl rfl rfl
    · simp only [seqAfter, hs]
      exact ⟨rfl, rfl, rfl⟩
  case stop =>
    refine ⟨.stop, ?_, ?_, ?_⟩
    · simp [seqPrims, seqAfter, hs]
    · simp only [seqAfter, hs]
      exact recordedFrom_plain rfl rfl rfl rfl rfl rfl rfl rfl rfl rfl rfl
    · simp only [seqAfter, hs]
      exact ⟨rfl, rfl, rfl⟩
  case cstart =>
    refine ⟨.start, ?_, ?_, ?_⟩
    · simp [seqPrims, seqAfter, hs, startDone, primDone]
    · simp only [seqAfter, hs]
      exact recordedFrom_plain rfl rfl rfl rfl rfl rfl rfl rfl rfl rfl rfl
    · simp only [seqAfter, hs]
      exact ⟨rfl, rfl, rfl⟩
  case caddr =>
    refine ⟨.send 0xD6#8, ?_, ?_, ?_⟩
    · simp [seqPrims, seqAfter, hs, sendDone, primDone]
    · simp only [seqAfter, hs]
      exact recordedFrom_send _ s _
    · simp only [seqAfter, hs]
      exact ⟨rfl, rfl, rfl⟩
  case creg =>
    refine ⟨.send s.sq.regptr, ?_, ?_, ?_⟩
    · simp [seqPrims, seqAfter, hs, sendDone, primDone]
    · simp only [seqAfter, hs]
      exact recordedFrom_send _ s _
    · simp only [seqAfter, hs]
      exact ⟨rfl, rfl, rfl⟩
  case cval =>
    refine ⟨.send (cfgVal s.sq.cfgidx), ?_, ?_, ?_⟩
    · simp [seqPrims, seqAfter, hs, sendDone, primDone]
    · simp only [seqAfter, hs]
      exact recordedFrom_send _ s _
    · simp only [seqAfter, hs]
      exact ⟨rfl, rfl, rfl⟩
  case cstop =>
    by_cases hlt : (stopDone s).sq.cfgidx.toNat < 2
    · refine ⟨.stop, ?_, ?_, ?_⟩
      · have hlt' : s.sq.cfgidx.toNat < 2 := hlt
        obtain ⟨n, hn⟩ : ∃ n, 2 - s.sq.cfgidx.toNat = n + 1 := ⟨1 - s.sq.cfgidx.toNat, by omega⟩
        have e1 : (seqAfter s).sq.seq = .cstart := by simp [seqAfter, hs, nextWrite, hlt]
        have e2 : (seqAfter s).sq.cfgidx = s.sq.cfgidx + 1 := by
          simp only [seqAfter, hs, nextWrite, if_pos hlt]; rfl
        have e3 : (seqAfter s).sq.regptr = s.sq.regptr + 1 := by
          simp only [seqAfter, hs, nextWrite, if_pos hlt]; rfl
        have e4 : 2 - (s.sq.cfgidx + 1).toNat = n := by rw [toNat_cfgidx_add_one _ hlt']; omega
        simp only [seqPrims, hs, e1, e2, e3, e4, hn]
        rfl
      · simp only [seqAfter, hs, nextWrite, if_pos hlt]
        exact recordedFrom_plain rfl rfl rfl rfl rfl rfl rfl rfl rfl rfl rfl
      · simp only [seqAfter, hs, nextWrite, if_pos hlt]
        exact ⟨rfl, rfl, rfl⟩
    · refine ⟨.stop, ?_, ?_, ?_⟩
      · have e1 : (seqAfter s).sq.seq = .idle := by simp only [seqAfter, hs, nextWrite, if_neg hlt]
        have hlt' : ¬ s.sq.cfgidx.toNat < 2 := hlt
        have e2 : 2 - s.sq.cfgidx.toNat = 0 := by omega
        simp only [seqPrims, hs, e1, e2]
        rfl
      · simp only [seqAfter, hs, nextWrite, if_neg hlt]
        exact recordedFrom_plain rfl rfl rfl rfl rfl rfl rfl rfl rfl rfl rfl
      · simp only [seqAfter, hs, nextWrite, if_neg hlt]
        exact ⟨rfl, rfl, rfl⟩

/-- After `n` states the sequencer has performed the first `n` of the primitives it had to perform. -/
theorem seqEnd_recorded (n : Nat) (s : State) (h : SeqInv s) :
    RecordedFrom (trafficOf ((seqPrims s).take n) s) s (seqEnd n s) := by
  induction n generalizing s with
  | zero => exact .refl s
  | succ n ih =>
    unfold seqEnd
    by_cases hq : s.sq.seq = .idle
    · rw [if_pos hq, show seqPrims s = [] by simp [seqPrims, hq]]
      exact .refl s
    · obtain ⟨i, h1, h2, h3⟩ := seqAfter_recorded s h hq
      rw [if_neg hq, h1, List.take_succ_cons, trafficOf, ← h3.traffic]
      exact h2.trans (ih _ (seqAfter_inv s h))

/-- As many primitives are to come as states. -/
theorem length_seqPrims (s : State) (h : SeqInv s) : (seqPrims s).length = seqStates s := by
  generalize hn : seqStates s = n
  induction n generalizing s with
  | zero =>
    have hq : s.sq.seq = .idle := by
      by_contra hne
      have := (seqAfter_measures s h hne).1
      omega
    simp [seqPrims, hq]
  | succ n ih =>
    have hq : s.sq.seq ≠ .idle := fun hq => by simp [seqStates, hq] at hn
    obtain ⟨i, h1, -, -⟩ := seqAfter_recorded s h hq
    have := (seqAfter_measures s h hq).1
    rw [h1, List.length_cons, ih _ (seqAfter_inv s h) (by omega)]

/-- CONFIG has the fifteen primitives of R161 to perform. -/
theorem seqPrims_latchConfig (s : State) : seqPrims (latchConfig s) = configPrimitives := rfl

/-- BREAD has the primitives of R165 to perform. -/
theorem seqPrims_latchBread (r c : Byte) (s : State) (h : c.toNat ≤ 14) :
    seqPrims (latchBread r c s) = breadPrimitives r c.toNat := by
  have e : (c.setWidth 4).toNat = c.toNat := by simp; omega
  simp only [seqPrims, latchBread_sq, e, breadPrimitives, List.append_assoc]

end Sys2Proof.Laws
end

