-- ==== Sys2Proof/Machine/Assembler.lean ====
section
/-! DEFINITION. The assembler's line syntax (`30_encoding.md` R99) with the pseudo-commands of R104: a line of characters
to the commands it stands for (DESIGN CHOICE: blanks, digit case and numbers out of range, log 25). -/
namespace Sys2Proof.Machine

/-- The value of a digit character. -/
def digitValue (c : Char) : Option Nat :=
  let n := c.toNat
  if 48 ≤ n && n ≤ 57 then some (n - 48)
  else if 65 ≤ n && n ≤ 70 then some (n - 55)
  else if 97 ≤ n && n ≤ 102 then some (n - 87)
  else none

/-- Digits in a base, most significant first, after the value read so far. -/
def digitsValue (base : Nat) : Nat → List Char → Option Nat
  | acc, [] => some acc
  | acc, c :: cs =>
    match digitValue c with
    | some d => if d < base then digitsValue base (acc * base + d) cs else none
    | none => none

/-- An unsigned number: decimal, `0x` hexadecimal or `0b` binary. -/
def unsignedNumber : List Char → Option Nat
  | [] => none
  | ['0', 'x'] => none
  | ['0', 'b'] => none
  | '0' :: 'x' :: ds => digitsValue 16 0 ds
  | '0' :: 'b' :: ds => digitsValue 2 0 ds
  | ds => digitsValue 10 0 ds

/-- An operand field of `w` bits. -/
def fieldOperand (w : Nat) (cs : List Char) : Option (BitVec w) :=
  match unsignedNumber cs with
  | some n => if n < 2 ^ w then some (BitVec.ofNat w n) else none
  | none => none

/-- FPUSH's operand: a signed decimal, or a 16-bit pattern. -/
def sampleOperand : List Char → Option Sample
  | [] => none
  | ['-'] => none
  | '-' :: ds =>
    match digitsValue 10 0 ds with
    | some n => if n ≤ 32768 then some (BitVec.ofInt 16 (-(n : Int))) else none
    | none => none
  | ds => fieldOperand 16 ds

/-- White space within a line. -/
def isBlank (c : Char) : Bool := c == ' ' || c == '\t'

/-- The line without its comment, which `;` starts. -/
def dropComment (cs : List Char) : List Char := cs.takeWhile fun c => c != ';'

/-- Without white space at both ends. -/
def trimBlanks (cs : List Char) : List Char := ((cs.dropWhile isBlank).reverse.dropWhile isBlank).reverse

/-- The operands: the text after the mnemonic, separated by commas. -/
def splitOperands (cs : List Char) : List (List Char) :=
  if (trimBlanks cs).isEmpty then [] else (cs.splitOn ',').map trimBlanks

/-- A line's mnemonic and operands as the commands they stand for, the operands placed in their fields. -/
def assembleParts (mnemonic : List Char) (ops : List (List Char)) : Option (List Instr) :=
  match String.ofList mnemonic, ops with
  | "START", [] => some [.start]
  | "RESTART", [] => some [.restart]
  | "SEND", [b] => (fieldOperand 8 b).map fun b => [.send b]
  | "RECV", [] => some [.recv]
  | "MACK", [v] => (fieldOperand 1 v).map fun v => [.mack (v.getLsbD 0)]
  | "STOP", [] => some [.stop]
  | "CONFIG", [] => some [.config]
  | "BREAD", [r, c] => (fieldOperand 8 r).bind fun r => (fieldOperand 8 c).map fun c => [.bread r c]
  | "FCLEAR", [] => some [.fclear]
  | "FRESET", [] => some [.freset]
  | "FPUSH", [x] => (sampleOperand x).map fun x => [.fpush x]
  | "FPUSHC", [k] => (fieldOperand 3 k).map fun k => [.fpushc k]
  | "ACK", [] => some (Pseudo.expand .ack)
  | "NACK", [] => some (Pseudo.expand .nack)
  | "SAMPLE", [] => some (Pseudo.expand .sample)
  | "SPUSH", [] => some (Pseudo.expand .spush)
  | "WRREG", [r, v] => (fieldOperand 8 r).bind fun r => (fieldOperand 8 v).map fun v => Pseudo.expand (.wrreg r v)
  | "RDREG", [r] => (fieldOperand 8 r).map fun r => Pseudo.expand (.rdreg r)
  | "WHOAMI", [] => some (Pseudo.expand .whoami)
  | _, _ => none

/-- A line: a mnemonic in capitals, then its operands; a line with nothing but a comment stands for no command. -/
def assembleLine (line : List Char) : Option (List Instr) :=
  let cs := trimBlanks (dropComment line)
  if cs.isEmpty then some [] else assembleParts (cs.takeWhile fun c => !isBlank c) (splitOperands (cs.dropWhile fun c => !isBlank c))

/-- A line's command words (R99). -/
def assembleWords (line : List Char) : Option (List Command) := (assembleLine line).map fun is => is.map encode

end Sys2Proof.Machine
end

