-- ==== Sys2Proof/Tests/Slice0.lean ====
section
/-! SUPPORT. Tests of the model against the spec: well-formedness, a word of every command written out bit by bit from
`30_encoding.md` R95, one or two small steps per command with the values of `95_test_vectors.md`, and for every statement
that has hypotheses a witness that meets them all. -/
namespace Sys2Proof.Tests
open Sys2Proof Sys2Proof.Machine Sys2Proof.Safety

/-! ## Ill-formed terms are refused (R92, R96) -/

theorem test_count_zero_refused : (Instr.bread 0x20#8 0#8).wellFormed = false := by decide
theorem test_count_fifteen_refused : (Instr.bread 0x20#8 15#8).wellFormed = false := by decide
theorem test_count_fourteen_accepted : (Instr.bread 0x20#8 14#8).wellFormed = true := by decide
theorem test_channel_seven_refused : (Instr.fpushc 7#3).wellFormed = false := by decide
theorem test_channel_six_accepted : (Instr.fpushc 6#3).wellFormed = true := by decide

/-! ## Every command's word, bit 23 first (R95 with operands) -/

theorem test_decode_start : decode 0b000100000000000000000000#24 = .command .start := by decide
theorem test_decode_restart : decode 0b001000000000000000000000#24 = .command .restart := by decide
theorem test_decode_send : decode 0b001100000000000011010110#24 = .command (.send 0xD6#8) := by decide
theorem test_decode_recv : decode 0b010000000000000000000000#24 = .command .recv := by decide
theorem test_decode_ack : decode 0b010100000000000000000000#24 = .command (.mack false) := by decide
theorem test_decode_nack : decode 0b010100000000000000000001#24 = .command (.mack true) := by decide
theorem test_decode_stop : decode 0b011000000000000000000000#24 = .command .stop := by decide
theorem test_decode_config : decode 0b100000000000000000000000#24 = .command .config := by decide
theorem test_decode_bread : decode 0b100100000010000000001110#24 = .command (.bread 0x20#8 14#8) := by decide
theorem test_decode_fclear : decode 0b101100000000000000000000#24 = .command .fclear := by decide
theorem test_decode_freset : decode 0b110000000000000000000000#24 = .command .freset := by decide
theorem test_decode_fpush : decode 0b110100001111111100111000#24 = .command (.fpush (BitVec.ofInt 16 (-200))) := by decide
theorem test_decode_fpushc : decode 0b111000000000000000000110#24 = .command (.fpushc 6#3) := by decide
/-- The bad words of V1: opcode first, then every bit that must be zero. -/
theorem test_decode_bad_words :
    [0x000000#24, 0xFFFFFF#24, 0x700000#24, 0xA00001#24, 0x730000#24].map decode
        = List.replicate 5 (.illegal .illegalOp) ∧
      [0x110000#24, 0x100001#24, 0x300100#24, 0x500002#24, 0x902000#24, 0x90200F#24, 0x910001#24, 0xE00007#24, 0xE00008#24,
        0xD10000#24, 0x800001#24, 0xC00100#24].map decode = List.replicate 12 (.illegal .illegalArg) := by decide
/-- The table's numbering of a word's bits (the host's question). -/
theorem test_decodeTableWord : decodeTableWord 24 0x90200E = some (.bread 0x20#8 14#8) ∧ decodeTableWord 24 0 = none := by
  decide

/-! ## The assembler (V2) -/

theorem test_assemble_wrreg :
    assembleWords "WRREG 0x10, 0x5A".toList = some [0x100000#24, 0x3000D6#24, 0x300010#24, 0x30005A#24, 0x600000#24] := by
  decide
theorem test_assemble_fpush : assembleWords "  FPUSH -1000 ; a sample".toList = some [0xD0FC18#24] := by decide
theorem test_assemble_whoami : assembleWords "WHOAMI".toList = some [0x900F01#24] := by decide
theorem test_assemble_bad : assembleWords "SEND 256".toList = none ∧ assembleWords "HALT".toList = none := by decide

/-! ## Small states -/

/-- The IMU as the reference slave (R68). -/
def imu (m : Memory) (sel : SlaveSel) : RefSlave := ⟨0b1101011#7, m, 0x20#8, sel⟩

/-- A peer that answers everything from a script. -/
def scripted : BusPeer := .script [true, false] [0x3C#8, 0xA5#8]

/-- After reset, but with `PHASE` forced (the convention of V3), its drivers, and this environment. -/
def readyAt (p : Phase) (v : Env) : State :=
  { State.reset with drv := { Driver.reset with phase := p, sclO := sclOf p, sdaO := sdaOf p }, env := v }

/-- The registers of `readyAt` make a command boundary without error. -/
theorem ready_readyAt (p : Phase) (v : Env) : Ready (readyAt p v) := ⟨⟨rfl, rfl, rfl, rfl⟩, rfl⟩

/-- `s` with these actions the host has still to take. -/
def withHost (s : State) (todo : List HostAction) : State := { s with host := ⟨todo, 0⟩ }

/-- `s` with the filter armed and nothing captured. -/
def armed (s : State) : State := { s with fb := { FilterBank.reset with armed := true } }

/-- Something read off the state a command answers. -/
def after {α : Type} (i : Instr) (s : State) (f : State → α) : Option α :=
  match exec i s with
  | .next t => some (f t)
  | .fault _ => none
  | .refused _ => none

/-- Something read off the state a step answers. -/
def afterStep {α : Type} (s : State) (f : State → α) : Option α :=
  match step s with
  | .next t => some (f t)
  | .fault _ => none
  | .refused _ => none

/-- The reference environment with an empty IMU. -/
def calm : Env := Env.withSlave (imu [] .none)

/-! ## One step of each primitive (V10, V11, V12, V13, V14) -/

theorem test_start : after .start (readyAt .idle calm) (fun t => (t.trace, t.status, t.wave))
    = some ([.start], 0x00000002#32, [.waited, .drive true false, .drive false false]) := by decide
theorem test_restart : after .restart (readyAt .wr calm) (fun t => (t.trace, t.status, t.wave))
    = some ([.restart], 0x00000002#32,
        [.drive false true, .drive true true, .waited, .drive true false, .drive false false]) := by decide
theorem test_send_address : after (.send 0xD6#8) (readyAt .addr (Env.withSlave (imu [] .addr))) (fun t => (t.trace, t.status))
    = some ([.tx 0xD6#8 false], 0x00000084#32) := by decide
/-- V12: a not-acknowledged byte is counted, up to 255. -/
theorem test_send_saturates :
    after (.send 0xD6#8)
        { readyAt .addr ⟨.prompt, scripted⟩ with drv := { (readyAt .addr calm).drv with nakcnt := 255#8 } }
        (fun t => (t.drv.ackstat, t.drv.nakcnt, t.drv.phase, t.err.errcode)) = some (true, 255#8, .wr, none) := by decide
theorem test_recv : after .recv (readyAt .rd (Env.withSlave (imu [(0x20, 0x3C#8)] .r)))
      (fun t => (t.trace, t.drv.rdata, t.status, t.rx.rxcnt)) = some ([.rx 0x3C#8], 0x3C#8, 0x00000088#32, 0#4) := by decide
theorem test_recv_unanswered : after .recv (readyAt .rd calm) (fun t => (t.trace, t.drv.rdata))
    = some ([.rx 0xFF#8], 0xFF#8) := by decide
theorem test_mack_one : after (.mack true) (readyAt .rdack calm) (fun t => (t.trace, t.status, t.wave))
    = some ([.mack true], 0x0000008A#32,
        [.drive false true, .drive true true, .waited, .drive false true, .drive false true]) := by decide
theorem test_mack_zero : after (.mack false) (readyAt .rdack calm) (fun t => (t.drv.phase, t.wave))
    = some (.rd, [.drive false false, .drive true false, .waited, .drive false false, .drive false true]) := by decide
theorem test_stop : after .stop (readyAt .wr calm) (fun t => (t.trace, t.status, t.wave))
    = some ([.stop], 0x000000C0#32,
        [.drive false false, .drive true false, .waited, .drive true true, .waited]) := by decide
theorem test_stop_refused_after_start : after .stop (readyAt .addr calm) (fun t => (t.err, t.drv.phase, t.trace))
    = some (⟨some .proto, 0x600000#24⟩, .addr, []) := by decide
/-- V15: the clock held low during the third bit of a SEND. -/
theorem test_send_stuck : after (.send 0xD6#8) (readyAt .addr ⟨.stall 2, scripted⟩)
      (fun t => (t.drv.busy, t.sq.bitcnt, t.drv.sclO, t.trace)) = some (true, 2#4, true, []) := by decide

/-! ## The composite commands (V21, V23, V24, V25) -/

theorem test_bread_one : after (.bread 0x20#8 1#8) (readyAt .idle (Env.withSlave (imu [(0x20, 0x34#8)] .none)))
      (fun t => (t.trace, t.rx.rxcnt, t.rx.byte 0, t.status))
    = some ([.start, .tx 0xD6#8 false, .tx 0x20#8 false, .restart, .tx 0xD7#8 false, .rx 0x34#8, .mack true, .stop], 1#4,
        0x34#8, 0x000000C0#32) := by decide
theorem test_bread_wraps : after (.bread 0xFF#8 2#8)
      (readyAt .idle (Env.withSlave (imu [(0x00, 0xBB#8), (0xFF, 0xAA#8)] .none)))
      (fun t => (t.rx.byte 0, t.rx.byte 1, t.env.peer))
    = some (0xAA#8, 0xBB#8, .reference ⟨0b1101011#7, [(0x00, 0xBB#8), (0xFF, 0xAA#8)], 0x01#8, .none⟩) := by decide
/-- V24 without the three open values. -/
theorem test_config_trace : after .config (readyAt .idle calm)
      (fun t => (t.trace.length, [0, 1, 2, 4, 7, 12].map fun i => t.trace[i]?, t.status))
    = some (15, [some .start, some (.tx 0xD6#8 false), some (.tx 0x10#8 false), some .stop, some (.tx 0x11#8 false),
        some (.tx 0x12#8 false)], 0x000000C0#32) := by decide +kernel
theorem test_config_refused : after .config (readyAt .wr calm) (fun t => (t.err, t.trace))
    = some (⟨some .proto, 0x800000#24⟩, []) := by decide

/-! ## The filter bank (V32, V41, V42) -/

theorem test_fclear : after .fclear (armed (readyAt .rd calm)) (fun t => (t.fbstat, t.drv.phase)) = some (0#32, .rd) := by
  decide
theorem test_freset : after .freset State.reset (fun t => (t.fbstat, t.fb.hist1, t.fb.capRaw[0]))
    = some (1#32, 0#16, 0#16) := by decide
theorem test_fpush : after (.fpush (BitVec.ofInt 16 (-200)))
      { armed State.reset with fb := { (armed State.reset).fb with idx := 1#7, hist1 := 100#16, sum := 100#32 } }
      (fun t => (t.fb.mafn.toInt, t.fb.mafd.toNat, t.fb.firq.toInt, t.fb.iirq.toInt, t.fb.idx.toNat, t.fb.hist2.toInt))
    = some (-100, 2, 87700, 700, 2, 100) := by decide
theorem test_fpush_disarmed : after (.fpush 1234#16) State.reset (fun t => (t.fbstat, t.fb.xout)) = some (0#32, 0#16) := by
  decide
/-- The example of R198. -/
theorem test_fpushc : after (.fpushc 6#3)
      { armed State.reset with rx := ⟨(Vector.replicate 14 0#8 |>.set 12 0x18#8).set 13 0xFC#8, 14#4⟩ }
      (fun t => (t.fb.xout.toInt, t.fb.firq.toInt, t.hostRead 0x00A#12, t.fb.capRaw[0].toInt))
    = some (-1000, -264000, 0xFFFBF8C0#32, -1000) := by decide

/-! ## The step (V1, V50, V51) -/

theorem test_step_illegal_op : afterStep (State.reset.withFetchWord 24 0x730000) (fun t => (t.err, t.host.cp, t.status))
    = some (⟨some .illegalOp, 0x730000#24⟩, 1, 0x000000E0#32) := by decide
theorem test_step_reset_midway :
    afterStep (withHost (readyAt .rd (Env.withSlave (imu [] .r))) [.reset])
      (fun t => (t.status, t.trace, t.env.peer, t.host)) = some (0x000000C0#32, [], .reference (imu [] .r), ⟨[], 0⟩) := by decide

/-! ## Witnesses: for every statement with hypotheses, a state and operands that meet them all -/

/-- One word for the host to present. -/
def presenting (w : Command) (s : State) : State := withHost s [.command w]

/-- The error state of V50. -/
def failed : State := { State.reset with err := ⟨some .illegalOp, 0x700000#24⟩ }

/-- A block stuck in a START. -/
def stuck : State := { readyAt .idle calm with drv := { Driver.reset with busy := true } }

theorem witness_DecodeOfEncodeIsTheCommand :
    (Instr.bread 0xFF#8 14#8).wellFormed = true ∧ (Instr.fpushc 6#3).wellFormed = true := by decide

theorem witness_DecodeSplitsEveryWord :
    (opField 0xFFFFFF#24).toNat ∈ [0x0, 0x7, 0xA, 0xF] ∧ encode (.bread 0x20#8 14#8) = 0x90200E#24 ∧
      decode 0x90200F#24 = .illegal .illegalArg := by decide

theorem witness_MatchAndMaskSelectTheCommand :
    0x500001#24 &&& (Instr.mack false).maskWord = (Instr.mack false).matchWord ∧
      0x500002#24 &&& (Instr.mack false).maskWord ≠ (Instr.mack false).matchWord := by decide

theorem witness_StepRunsTheDecodedCommand :
    (presenting 0x100000#24 (readyAt .idle calm)).host.todo = .command 0x100000#24 :: [] ∧
      (presenting 0x100000#24 (readyAt .idle calm)).drv.busy = false ∧ decode 0x100000#24 = .command .start := by decide

/-- Both clauses: a word that decodes to an error, and a command the phase refuses. -/
theorem witness_ErrorsAreRecordedPrecisely :
    ((presenting 0x730000#24 State.reset).host.todo = .command 0x730000#24 :: [] ∧
      (presenting 0x730000#24 State.reset).drv.busy = false ∧ (presenting 0x730000#24 State.reset).err.errcode = none ∧
      decode 0x730000#24 = .illegal .illegalOp) ∧
    ((presenting 0x600000#24 State.reset).host.todo = .command 0x600000#24 :: [] ∧
      decode 0x600000#24 = .command .stop ∧ phaseTable .stop (presenting 0x600000#24 State.reset).drv.phase = none) := by
  decide

theorem witness_ErrorStateIgnoresEveryWord :
    (presenting 0xC00000#24 failed).host.todo = .command 0xC00000#24 :: [] ∧
      (presenting 0xC00000#24 failed).drv.busy = false ∧ (presenting 0xC00000#24 failed).err.errcode ≠ none := by decide

/-- Both clauses: with a reset at the step, and without. -/
theorem witness_OnlyResetClearsTheError :
    failed.err.errcode ≠ none ∧ (withHost failed [.reset]).err.errcode ≠ none ∧ failed.rst = false ∧
      (withHost failed [.reset]).rst = true := by decide

theorem witness_StuckBlockStaysStuck : stuck.drv.busy = true ∧ stuck.rst = false := by decide

/-- A primitive at its last stuck point (R228: SEND has nine), and a composite command at its last. -/
theorem witness_StuckAtAnUngrantedWait :
    (Ready (readyAt .addr ⟨.stall 8, scripted⟩) ∧ (Instr.send 0x4A#8).wellFormed = true ∧
      phaseTable (.send 0x4A#8) (readyAt .addr ⟨.stall 8, scripted⟩).drv.phase ≠ none ∧
      (readyAt .addr ⟨.stall 8, scripted⟩).env.waits = .stall 8 ∧ 8 < waitsOf (.send 0x4A#8)) ∧
    (Ready (readyAt .idle ⟨.stall 156, scripted⟩) ∧ (Instr.bread 0x20#8 14#8).wellFormed = true ∧
      phaseTable (.bread 0x20#8 14#8) (readyAt .idle ⟨.stall 156, scripted⟩).drv.phase ≠ none ∧
      (readyAt .idle ⟨.stall 156, scripted⟩).env.waits = .stall 156 ∧ 156 < waitsOf (.bread 0x20#8 14#8)) ∧
    (Ready (readyAt .addr ⟨.stall 9, scripted⟩) ∧
      phaseTable (.send 0x4A#8) (readyAt .addr ⟨.stall 9, scripted⟩).drv.phase ≠ none ∧
      (readyAt .addr ⟨.stall 9, scripted⟩).env.waits = .stall 9 ∧ waitsOf (.send 0x4A#8) ≤ 9) ∧
    (Ready (readyAt .idle ⟨.stall 157, scripted⟩) ∧
      phaseTable (.bread 0x20#8 14#8) (readyAt .idle ⟨.stall 157, scripted⟩).drv.phase ≠ none ∧
      (readyAt .idle ⟨.stall 157, scripted⟩).env.waits = .stall 157 ∧ waitsOf (.bread 0x20#8 14#8) ≤ 157) :=
  ⟨⟨ready_readyAt _ _, by decide, by decide, by decide, by decide⟩,
    ⟨ready_readyAt _ _, by decide, by decide, by decide, by decide⟩,
    ⟨ready_readyAt _ _, by decide, rfl, le_refl 9⟩, ready_readyAt _ _, by decide, rfl, le_refl 157⟩

theorem witness_ResetGivesTheResetValues : (withHost failed [.reset]).host.todo = .reset :: [] := by decide

/-- Both clauses: a reset at a command boundary, and one in the middle of a command. -/
theorem witness_ResetKeepsTraceAndSlaves :
    ((withHost (readyAt .rd calm) [.reset]).host.todo = .reset :: [] ∧ (withHost (readyAt .rd calm) [.reset]).drv.busy = false) ∧
    ((withHost stuck [.reset]).host.todo = .reset :: [] ∧ (withHost stuck [.reset]).drv.busy = true) := by decide

theorem witness_IdleBlockHoldsItsState : (readyAt .wr calm).host.todo = [] ∧ (readyAt .wr calm).drv.busy = false := by decide

theorem witness_StartCompletes :
    Ready (readyAt .idle ⟨.stall 1, scripted⟩) ∧ (readyAt .idle ⟨.stall 1, scripted⟩).drv.phase = .idle ∧
      Grants 1 (readyAt .idle ⟨.stall 1, scripted⟩) := ⟨ready_readyAt _ _, rfl, le_refl 1⟩

theorem witness_RestartCompletes :
    (Ready (readyAt .wr calm) ∧ (readyAt .wr calm).drv.phase = .wr ∧ Grants 1 (readyAt .wr calm)) ∧
    (Ready (readyAt .rdend calm) ∧ (readyAt .rdend calm).drv.phase = .rdend ∧ Grants 1 (readyAt .rdend calm)) :=
  ⟨⟨ready_readyAt _ _, rfl, trivial⟩, ready_readyAt _ _, rfl, trivial⟩

/-- In both phases; the counter at its bound. -/
theorem witness_SendCompletes :
    (Ready (readyAt .addr ⟨.stall 9, scripted⟩) ∧ (readyAt .addr ⟨.stall 9, scripted⟩).drv.phase = .addr ∧
      Grants 9 (readyAt .addr ⟨.stall 9, scripted⟩)) ∧
    (Ready { readyAt .wr calm with drv := { (readyAt .wr calm).drv with nakcnt := 255#8 } } ∧
      (readyAt .wr calm).drv.phase = .wr ∧ Grants 9 (readyAt .wr calm)) :=
  ⟨⟨ready_readyAt _ _, rfl, le_refl 9⟩, ⟨⟨rfl, rfl, rfl, rfl⟩, rfl⟩, rfl, trivial⟩

/-- Both clauses: the slave takes data, and it does not. -/
theorem witness_SendStoresAtTheSlavesPointer :
    (Ready (readyAt .wr (Env.withSlave (imu [(0x20, 1#8)] .wData))) ∧
      Grants 9 (readyAt .wr (Env.withSlave (imu [(0x20, 1#8)] .wData))) ∧
      (readyAt .wr (Env.withSlave (imu [(0x20, 1#8)] .wData))).env.peer = .reference (imu [(0x20, 1#8)] .wData) ∧
      Memory.wf (imu [(0x20, 1#8)] .wData).mem = true ∧ (imu [(0x20, 1#8)] .wData).sel = .wData) ∧
    (Ready (readyAt .addr (Env.withSlave (imu [] .addr))) ∧ Grants 9 (readyAt .addr (Env.withSlave (imu [] .addr))) ∧
      Memory.wf (imu [] .addr).mem = true ∧ (imu [] .addr).sel ≠ .wData) :=
  ⟨⟨ready_readyAt _ _, trivial, rfl, by decide, rfl⟩, ready_readyAt _ _, trivial, rfl, by decide⟩

theorem witness_RecvCompletes :
    Ready (readyAt .rd ⟨.stall 8, scripted⟩) ∧ (readyAt .rd ⟨.stall 8, scripted⟩).drv.phase = .rd ∧
      Grants 8 (readyAt .rd ⟨.stall 8, scripted⟩) := ⟨ready_readyAt _ _, rfl, le_refl 8⟩

theorem witness_MackCompletes :
    Ready (readyAt .rdack calm) ∧ (readyAt .rdack calm).drv.phase = .rdack ∧ Grants 1 (readyAt .rdack calm) :=
  ⟨ready_readyAt _ _, rfl, trivial⟩

theorem witness_StopCompletes :
    (Ready (readyAt .wr ⟨.stall 2, scripted⟩) ∧ (readyAt .wr ⟨.stall 2, scripted⟩).drv.phase = .wr ∧
      Grants 2 (readyAt .wr ⟨.stall 2, scripted⟩)) ∧
    (Ready (readyAt .rdend calm) ∧ (readyAt .rdend calm).drv.phase = .rdend ∧ Grants 2 (readyAt .rdend calm)) :=
  ⟨⟨ready_readyAt _ _, rfl, le_refl 2⟩, ready_readyAt _ _, rfl, trivial⟩

/-- Both clauses: a command the table refuses where no wait is granted, and one it performs. -/
theorem witness_PhaseTableDecides :
    (Ready (readyAt .addr Env.unknown) ∧ Instr.stop.wellFormed = true ∧
      phaseTable .stop (readyAt .addr Env.unknown).drv.phase = none) ∧
    (Ready (readyAt .idle ⟨.stall 40, scripted⟩) ∧ (Instr.bread 0x20#8 1#8).wellFormed = true ∧
      phaseTable (.bread 0x20#8 1#8) (readyAt .idle ⟨.stall 40, scripted⟩).drv.phase = some .idle ∧
      Grants (waitsOf (.bread 0x20#8 1#8)) (readyAt .idle ⟨.stall 40, scripted⟩)) :=
  ⟨⟨ready_readyAt _ _, rfl, rfl⟩, ready_readyAt _ _, by decide, rfl, le_refl 40⟩

/-- In an environment of which nothing is known, and for SEND and RECV beside START. -/
theorem witness_PrimitivesInAnyEnvironment :
    (Ready (readyAt .idle Env.unknown) ∧ isPrimitive .start = true ∧
      phaseTable .start (readyAt .idle Env.unknown).drv.phase ≠ none) ∧
    (Ready (readyAt .addr Env.unknown) ∧ isPrimitive (.send 0xD6#8) = true ∧
      phaseTable (.send 0xD6#8) (readyAt .addr Env.unknown).drv.phase ≠ none) ∧
    (Ready (readyAt .rd Env.unknown) ∧ isPrimitive .recv = true ∧
      phaseTable .recv (readyAt .rd Env.unknown).drv.phase ≠ none) :=
  ⟨⟨ready_readyAt _ _, rfl, by decide⟩, ⟨ready_readyAt _ _, rfl, by decide⟩, ready_readyAt _ _, rfl, by decide⟩

/-- CONFIG, and BREAD at both ends of its count, in an environment of which nothing is known. -/
theorem witness_CompositesInAnyEnvironment :
    Ready (readyAt .idle Env.unknown) ∧ (readyAt .idle Env.unknown).drv.phase = .idle ∧
      ∀ i ∈ [Instr.config, .bread 0x20#8 1#8, .bread 0x20#8 14#8],
        i.wellFormed = true ∧ isPrimitive i = false ∧ isFilter i = false := ⟨ready_readyAt _ _, rfl, by decide⟩

theorem witness_WiresReadBackAsTheTrace :
    Ready (readyAt .rd ⟨.prompt, scripted⟩) ∧ Instr.recv.wellFormed = true ∧ isFilter .recv = false ∧
      phaseTable .recv (readyAt .rd ⟨.prompt, scripted⟩).drv.phase ≠ none ∧
      ∃ t, exec .recv (readyAt .rd ⟨.prompt, scripted⟩) = .next t ∧ t.drv.busy = false :=
  ⟨ready_readyAt _ _, rfl, rfl, by decide, _, rfl, by decide⟩

theorem witness_ConfigWritesThreeRegisters :
    Ready (readyAt .idle ⟨.stall 90, scripted⟩) ∧ (readyAt .idle ⟨.stall 90, scripted⟩).drv.phase = .idle ∧
      Grants (waitsOf .config) (readyAt .idle ⟨.stall 90, scripted⟩) := ⟨ready_readyAt _ _, rfl, le_refl 90⟩

theorem witness_ConfigOnTheReferenceSlave :
    Ready (readyAt .idle (Env.withSlave (imu [(0x11, 7#8)] .none))) ∧
      (readyAt .idle (Env.withSlave (imu [(0x11, 7#8)] .none))).drv.phase = .idle ∧
      (readyAt .idle (Env.withSlave (imu [(0x11, 7#8)] .none))).env = Env.withSlave (imu [(0x11, 7#8)] .none) ∧
      (imu [(0x11, 7#8)] .none).a7 = 0b1101011#7 ∧ Memory.wf (imu [(0x11, 7#8)] .none).mem = true :=
  ⟨ready_readyAt _ _, rfl, rfl, rfl, by decide⟩

/-- At both ends of the count's range. -/
theorem witness_BurstReadCompletes :
    (Ready (readyAt .idle ⟨.stall 40, scripted⟩) ∧ (readyAt .idle ⟨.stall 40, scripted⟩).drv.phase = .idle ∧
      1 ≤ (1#8).toNat ∧ (1#8).toNat ≤ 14 ∧ Grants (waitsOf (.bread 0x20#8 1#8)) (readyAt .idle ⟨.stall 40, scripted⟩)) ∧
    (Ready (readyAt .idle ⟨.stall 157, scripted⟩) ∧ (readyAt .idle ⟨.stall 157, scripted⟩).drv.phase = .idle ∧
      1 ≤ (14#8).toNat ∧ (14#8).toNat ≤ 14 ∧ Grants (waitsOf (.bread 0x20#8 14#8)) (readyAt .idle ⟨.stall 157, scripted⟩)) :=
  ⟨⟨ready_readyAt _ _, rfl, by decide, by decide, le_refl 40⟩, ready_readyAt _ _, rfl, by decide, by decide, le_refl 157⟩

theorem witness_SampleAssemblesSevenChannels :
    Ready (readyAt .idle ⟨.prompt, .script [false] (List.replicate 14 0x80#8 ++ [])⟩) ∧
      (readyAt .idle ⟨.prompt, .script [false] (List.replicate 14 0x80#8 ++ [])⟩).drv.phase = .idle ∧
      (List.replicate 14 0x80#8).length = 14 ∧
      (readyAt .idle ⟨.prompt, .script [false] (List.replicate 14 0x80#8 ++ [])⟩).env
        = ⟨.prompt, .script [false] (List.replicate 14 0x80#8 ++ [])⟩ := ⟨ready_readyAt _ _, rfl, rfl, rfl⟩

theorem witness_BurstReadOfTheReferenceSlave :
    Ready (readyAt .idle calm) ∧ (readyAt .idle calm).drv.phase = .idle ∧ 1 ≤ (14#8).toNat ∧ (14#8).toNat ≤ 14 ∧
      (readyAt .idle calm).env = Env.withSlave (imu [] .none) ∧ (imu [] .none).a7 = 0b1101011#7 :=
  ⟨ready_readyAt _ _, rfl, by decide, by decide, rfl, rfl⟩

theorem witness_BurstReadIsItsPrimitives :
    Ready (readyAt .idle calm) ∧ (readyAt .idle calm).drv.phase = .idle ∧ 1 ≤ (1#8).toNat ∧ (1#8).toNat ≤ 14 ∧
      Grants (waitsOf (.bread 0x0F#8 1#8)) (readyAt .idle calm) :=
  ⟨ready_readyAt _ _, rfl, by decide, by decide, trivial⟩

theorem witness_ConfigIsItsPrimitives :
    Ready (readyAt .idle calm) ∧ (readyAt .idle calm).drv.phase = .idle ∧ Grants (waitsOf .config) (readyAt .idle calm) :=
  ⟨ready_readyAt _ _, rfl, trivial⟩

theorem witness_RegisterWriteInPrimitives :
    Ready (readyAt .idle calm) ∧ (readyAt .idle calm).drv.phase = .idle ∧
      (readyAt .idle calm).env = Env.withSlave (imu [] .none) ∧ (imu [] .none).a7 = 0b1101011#7 ∧
      Memory.wf (imu [] .none).mem = true := ⟨ready_readyAt _ _, rfl, rfl, rfl, by decide⟩

theorem witness_FclearClears :
    (armed (readyAt .rd calm)).drv.busy = false ∧ (armed (readyAt .rd calm)).err.errcode = none := by decide

theorem witness_FresetArmsAFreshWindow :
    (readyAt .rdack calm).drv.busy = false ∧ (readyAt .rdack calm).err.errcode = none := by decide

/-- Every captured sample zero and nothing kept: an armed bank at index `n` that meets the invariant. -/
def zerosUpTo (n : BitVec 7) (s : State) : State :=
  { s with fb := { FilterBank.reset with armed := true, ovalid := true, idx := n } }

theorem rawAt_zerosUpTo (n : BitVec 7) (s : State) (i : Nat) : rawAt (zerosUpTo n s).fb i = 0 := by
  by_cases h : i < 100 <;> simp [rawAt, zerosUpTo, FilterBank.reset, h]

theorem rawSum_zerosUpTo (n : BitVec 7) (s : State) (i : Nat) : rawSum (zerosUpTo n s).fb i = 0 := by
  induction i with
  | zero => rfl
  | succ i ih => rw [rawSum, ih, rawAt_zerosUpTo]; rfl

theorem rawBack_zerosUpTo (n : BitVec 7) (s : State) (j : Nat) : rawBack (zerosUpTo n s).fb j = 0 := by
  rw [rawBack, rawAt_zerosUpTo, ite_self]

/-- Such a bank in a block at a command boundary meets the invariant. -/
theorem inv_zerosUpTo (n : BitVec 7) (hn : n.toNat ≤ 99) (s : State) (hb : Boundary s) (hr : s.rx.rxcnt.toNat ≤ 14)
    (hm : envMemoryWf s.env = true) : Inv (zerosUpTo n s) where
  rxcntRange := hr
  boundary _ := ⟨hb.notBusy, hb.scl, hb.sda, hb.sqIdle⟩
  running h := absurd h (by rw [show (zerosUpTo n s).drv.busy = false from hb.notBusy]; decide)
  memory := hm
  filter :=
    { idxRange := hn
      mafdRange := Nat.zero_le _
      noOutput := fun h => by cases h
      sumIsSum := fun _ => by rw [rawSum_zerosUpTo]; rfl
      hist1 := fun _ => by rw [rawBack_zerosUpTo]; rfl
      hist2 := fun _ => by rw [rawBack_zerosUpTo]; rfl
      hist3 := fun _ => by rw [rawBack_zerosUpTo]; rfl
      hist4 := fun _ => by rw [rawBack_zerosUpTo]; rfl
      hist5 := fun _ => by rw [rawBack_zerosUpTo]; rfl }

/-- At the first index and at the last. -/
theorem witness_FpushTakesTheSample :
    (Inv (zerosUpTo 0#7 (readyAt .idle calm)) ∧ (zerosUpTo 0#7 (readyAt .idle calm)).drv.busy = false ∧
      (zerosUpTo 0#7 (readyAt .idle calm)).err.errcode = none ∧ (zerosUpTo 0#7 (readyAt .idle calm)).fb.armed = true) ∧
    (Inv (zerosUpTo 99#7 (readyAt .rd calm)) ∧ (zerosUpTo 99#7 (readyAt .rd calm)).drv.busy = false ∧
      (zerosUpTo 99#7 (readyAt .rd calm)).err.errcode = none ∧ (zerosUpTo 99#7 (readyAt .rd calm)).fb.armed = true) :=
  ⟨⟨inv_zerosUpTo _ (by decide) _ (ready_readyAt _ _).toBoundary (by decide) rfl, rfl, rfl, rfl⟩,
    inv_zerosUpTo _ (by decide) _ (ready_readyAt _ _).toBoundary (by decide) rfl, rfl, rfl, rfl⟩

theorem witness_FpushcPushesTheChannel :
    (6#3).toNat ≤ 6 ∧ Inv (zerosUpTo 99#7 (readyAt .idle calm)) ∧ (zerosUpTo 99#7 (readyAt .idle calm)).drv.busy = false ∧
      (zerosUpTo 99#7 (readyAt .idle calm)).err.errcode = none ∧ (zerosUpTo 99#7 (readyAt .idle calm)).fb.armed = true :=
  ⟨by decide, inv_zerosUpTo _ (by decide) _ (ready_readyAt _ _).toBoundary (by decide) rfl, rfl, rfl, rfl⟩

theorem witness_PushWhileDisarmedChangesNothing :
    (readyAt .wr calm).drv.busy = false ∧ (readyAt .wr calm).err.errcode = none ∧ (readyAt .wr calm).fb.armed = false ∧
      (6#3).toNat ≤ 6 := by decide

theorem witness_FiltersMatchTheirFormulas :
    (readyAt .idle calm).drv.busy = false ∧ (readyAt .idle calm).err.errcode = none ∧
      1 ≤ (List.replicate 100 (0x8000#16)).length ∧ (List.replicate 100 (0x8000#16)).length ≤ 100 := by decide

theorem witness_WarmUpOnAConstantInput :
    (readyAt .idle calm).drv.busy = false ∧ (readyAt .idle calm).err.errcode = none ∧ 0 ≤ 99 ∧ 5 ≤ 99 ∧ 99 ≤ 99 := by decide

/-- Below a hundred pushes and at a hundred. -/
theorem witness_WindowTakesExactlyAHundredPushes :
    (readyAt .idle calm).drv.busy = false ∧ (readyAt .idle calm).err.errcode = none ∧
      (List.replicate 99 (1#16)).length ≤ 100 ∧ (List.replicate 99 (1#16)).length < 100 ∧
      (List.replicate 100 (1#16)).length ≤ 100 ∧ (List.replicate 100 (1#16)).length = 100 := by decide

theorem witness_CaptureSlotsHoldTheOutputs :
    (readyAt .idle calm).drv.busy = false ∧ (readyAt .idle calm).err.errcode = none ∧
      (List.replicate 100 (1#16)).length ≤ 100 ∧ 99 < 100 ∧ 99 < (List.replicate 100 (1#16)).length := by decide

/-- The premises of the clauses: a not-acknowledged SEND, a push that disarms, an FRESET that arms, an error. -/
theorem witness_FlagsHaveTheirWriters :
    after (.send 0xD6#8) (readyAt .addr ⟨.prompt, scripted⟩) (fun t => t.drv.ackstat) = some true ∧
      after (.fpush 1#16) (zerosUpTo 99#7 (readyAt .idle calm)) (fun t => t.fb.armed) = some false ∧
      after .freset (readyAt .idle calm) (fun t => t.fb.armed) = some true ∧
      after .recv (readyAt .idle calm) (fun t => t.err) = some ⟨some .proto, 0x400000#24⟩ := by decide

theorem witness_StatusWordLayout : (readyAt .rd calm).drv.busy = false ∧ stuck.drv.busy = true := by decide

theorem witness_FbstatWordLayout : (armed State.reset).drv.busy = false := by decide

/-- The address ranges no register has, at their ends. -/
theorem witness_HostReadMapHolds :
    (readyAt .rd calm).drv.busy = false ∧ (0x012#12).toNat < 0x020 ∧ (0x02F#12).toNat < 0x030 ∧ (0x0FF#12).toNat < 0x100 ∧
      0x164 ≤ (0x164#12).toNat ∧ 0x464 ≤ (0xFFF#12).toNat := by decide

theorem witness_ChannelIsLittleEndian : (6 : Nat) < 7 := by decide

/-- A step that completes a command from a state that meets the invariant. -/
theorem witness_InvariantIsKept :
    Inv (zerosUpTo 99#7 (presenting 0xD00001#24 (readyAt .wr calm))) ∧
      ∃ t, step (zerosUpTo 99#7 (presenting 0xD00001#24 (readyAt .wr calm))) = .next t :=
  ⟨inv_zerosUpTo _ (by decide) _ ⟨rfl, rfl, rfl, rfl⟩ (by decide) rfl, _, rfl⟩

/-- A STOP that closes an open transaction. -/
theorem witness_StartsAndStopsAlternate :
    let s := zerosUpTo 0#7 { presenting 0x600000#24 (readyAt .wr calm) with trace := [.start, .tx 0xD6#8 false] }
    Inv s ∧ Paired s ∧ s.rst = false ∧ ∃ t, step s = .next t :=
  ⟨inv_zerosUpTo _ (by decide) _ ⟨rfl, rfl, rfl, rfl⟩ (by decide) rfl, rfl, rfl, _, rfl⟩

end Sys2Proof.Tests
end

/-! # The block after reset, and the two packed status words (`10_state.md` R39, R40, R42) -/

namespace Sys2Proof.StateProofs
open Sys2Proof.Machine Sys2Proof.Safety Sys2Proof.Laws

/-! ## Reset values (R42) -/

/-- The model's reset state is the table, register by register. -/
theorem resetValues_reset : ResetValues State.reset where
  busy := rfl
  sclO := rfl
  sdaO := rfl
  phase := rfl
  ackstat := rfl
  nakcnt := rfl
  rdata := rfl
  rxbuf _ h := Vector.getElem_replicate h
  rxcnt := rfl
  errcode := rfl
  errcmd := rfl
  seq := rfl
  regptr := rfl
  remain := rfl
  cfgidx := rfl
  shreg := rfl
  bitcnt := rfl
  armed := rfl
  ovalid := rfl
  idx := rfl
  sum := rfl
  hist := ⟨rfl, rfl, rfl, rfl, rfl⟩
  xout := rfl
  mafn := rfl
  firq := rfl
  iirq := rfl
  mafd := rfl
  capRaw _ h := Vector.getElem_replicate h
  capMafn _ h := Vector.getElem_replicate h
  capFirq _ h := Vector.getElem_replicate h
  capIirq _ h := Vector.getElem_replicate h

/-- The table speaks of the block's registers only, not of the trace, the environment or the host. -/
theorem resetValues_of_sameBlock {s t : State} (hs : ResetValues s) (h : SameBlock s t) : ResetValues t := by
  obtain ⟨hdrv, hrx, herr, hsq, hfb⟩ := h
  cases t
  subst hdrv hrx herr hsq hfb
  exact { hs with }

theorem sameBlock_hostReset (s : State) : SameBlock State.reset (hostReset s) where
  drv := hostReset_drv s
  rx := hostReset_rx s
  err := hostReset_err s
  sq := hostReset_sq s
  fb := hostReset_fb s

/-! ## The host read port while `BUSY` = 0 and while it is 1 (R72, R75) -/

theorem hostRead_of_idle {s : State} (hb : s.drv.busy = false) (a : HostAddr) : s.hostRead a = s.readMap a.toNat := by
  simp [State.hostRead, hb]

theorem hostRead_of_busy {s : State} (hb : s.drv.busy = true) (a : HostAddr) : s.hostRead a = s.readBusy a := by
  simp [State.hostRead, hb]

theorem hostRead_status {s : State} (hb : s.drv.busy = false) : s.hostRead 0x000#12 = s.status := hostRead_of_idle hb _

theorem hostRead_fbstat {s : State} (hb : s.drv.busy = false) : s.hostRead 0x006#12 = s.fbstat := hostRead_of_idle hb _

/-! ## `STATUS` (R39) -/

/-- Every bit of `STATUS`, from the lowest on. -/
theorem getLsbD_status (s : State) (k : Nat) :
    s.status.getLsbD k
      = if k = 0 then s.drv.busy else if k < 4 then s.drv.phase.bits.getLsbD (k - 1) else if k = 4 then s.drv.ackstat
        else if k = 5 then s.errf else if k = 6 then s.drv.sclO else if k = 7 then s.drv.sdaO else false := by
  have packed : s.status.getLsbD k = (0#24 ++ BitVec.ofBool s.drv.sdaO ++ BitVec.ofBool s.drv.sclO
      ++ BitVec.ofBool s.errf ++ BitVec.ofBool s.drv.ackstat ++ s.drv.phase.bits ++ BitVec.ofBool s.drv.busy).getLsbD k :=
    rfl
  simp only [packed, BitVec.getLsbD_append]
  match k with
  | 0 | 1 | 2 | 3 | 4 | 5 | 6 | 7 => simp
  | k + 8 => simp

theorem status_phase (s : State) : s.status.extractLsb' 1 3 = s.drv.phase.bits := by
  ext i hi
  have hlt : 1 + i < 4 := by omega
  simp [getLsbD_status, hlt, hi, BitVec.getLsbD_eq_getElem]

theorem status_high (s : State) : s.status.extractLsb' 8 24 = 0#24 := by
  ext i hi
  simp [getLsbD_status, Nat.add_comm 8 i]

/-- While `BUSY` = 1 a read of `STATUS` still answers bit 0 (R75). -/
theorem readBusy_status_busy (s : State) : (s.readBusy 0x000#12).getLsbD 0 = true := by
  simp [State.readBusy]

/-- Bit 0 of a read of `STATUS` is valid at all times. -/
theorem hostRead_status_busy (s : State) : (s.hostRead 0x000#12).getLsbD 0 = s.drv.busy := by
  cases hb : s.drv.busy with
  | true => rw [hostRead_of_busy hb, readBusy_status_busy]
  | false => rw [hostRead_status hb, getLsbD_status, if_pos rfl, hb]

theorem errf_eq_decide (s : State) : s.errf = decide (s.err.errcode ≠ none) := by
  cases h : s.err.errcode <;> simp [State.errf, h]

/-! ## `FBSTAT` (R40) -/

/-- Every bit of `FBSTAT`, from the lowest on. -/
theorem getLsbD_fbstat (s : State) (k : Nat) :
    s.fbstat.getLsbD k
      = if k = 0 then s.fb.armed else if k = 1 then s.fb.ovalid else if k < 9 then s.fb.idx.getLsbD (k - 2) else false := by
  have packed : s.fbstat.getLsbD k
      = (0#23 ++ s.fb.idx ++ BitVec.ofBool s.fb.ovalid ++ BitVec.ofBool s.fb.armed).getLsbD k := rfl
  simp only [packed, BitVec.getLsbD_append]
  match k with
  | 0 | 1 => simp
  | k + 2 =>
    have hlt : k + 2 < 9 ↔ k < 7 := by omega
    by_cases hk : k < 7 <;> simp [hlt, hk]

theorem fbstat_idx (s : State) : s.fbstat.extractLsb' 2 7 = s.fb.idx := by
  ext i hi
  have hlt : i + 2 < 9 := by omega
  simp [getLsbD_fbstat, Nat.add_comm 2 i, hlt, hi]

theorem fbstat_high (s : State) : s.fbstat.extractLsb' 9 23 = 0#23 := by
  ext i hi
  simp [getLsbD_fbstat, Nat.add_comm 9 i]

/-! ## The obligations -/

/-- Settles O11: a reset step answers `hostReset s`, whose block is that of `State.reset`. -/
theorem resetGivesTheResetValues : Obligations.ResetGivesTheResetValues := by
  refine ⟨fun s rest h => ⟨hostReset s, step_reset h, ?_, ?_⟩, resetValues_reset⟩
  · exact resetValues_of_sameBlock resetValues_reset (sameBlock_hostReset s)
  · rw [hostReset_host, h, List.tail_cons]

/-- Settles O43: bit 0 at all times (R75), the fields of the packed word while `BUSY` = 0. -/
theorem statusWordLayout : Obligations.StatusWordLayout := by
  refine ⟨fun s => ⟨hostRead_status_busy s, fun hb => ?_⟩, by decide⟩
  rw [hostRead_status hb, ← errf_eq_decide]
  refine ⟨?_, getLsbD_status s 4, getLsbD_status s 5, getLsbD_status s 6, getLsbD_status s 7, status_high s⟩
  rw [status_phase]
  cases s.drv.phase <;> rfl

/-- Settles O44: the fields of the packed word while `BUSY` = 0. -/
theorem fbstatWordLayout : Obligations.FbstatWordLayout := by
  refine ⟨fun s hb => ?_, by decide⟩
  rw [hostRead_fbstat hb]
  exact ⟨getLsbD_fbstat s 0, getLsbD_fbstat s 1, fbstat_idx s, fbstat_high s⟩

end Sys2Proof.StateProofs

/-! # The decoder splits every word (`30_encoding.md` R90 to R96) -/

namespace Sys2Proof.EncodingProofs
open Sys2Proof.Laws

/-! ## A command word and its fields (R90) -/

@[simp] theorem opField_commandWord (op : BitVec 4) (arg : BitVec 16) : opField (commandWord op arg) = op := by
  apply BitVec.eq_of_toNat_eq
  rw [toNat_opField, toNat_commandWord]
  omega

@[simp] theorem zField_commandWord (op : BitVec 4) (arg : BitVec 16) : zField (commandWord op arg) = 0#4 := by
  apply BitVec.eq_of_toNat_eq
  rw [toNat_zField, toNat_commandWord, BitVec.toNat_ofNat]
  omega

@[simp] theorem argField_commandWord (op : BitVec 4) (arg : BitVec 16) : argField (commandWord op arg) = arg := by
  apply BitVec.eq_of_toNat_eq
  rw [toNat_argField, toNat_commandWord]
  omega

@[simp] theorem argHi_commandWord (op : BitVec 4) (h l : Byte) : argHi (commandWord op (h ++ l)) = h := by
  apply BitVec.eq_of_toNat_eq
  rw [toNat_argHi, toNat_commandWord, toNat_twoBytes]
  omega

@[simp] theorem argLo_commandWord (op : BitVec 4) (h l : Byte) : argLo (commandWord op (h ++ l)) = l := by
  apply BitVec.eq_of_toNat_eq
  rw [toNat_argLo, toNat_commandWord, toNat_twoBytes]
  omega

/-- A word whose field `z` is zero is the command word of its opcode and its argument. -/
theorem commandWord_eq {w : Command} {op : BitVec 4} {arg : BitVec 16} (ho : (opField w).toNat = op.toNat)
    (hz : zField w = 0#4) (ha : argField w = arg) : commandWord op arg = w := by
  have hz' : (zField w).toNat = 0 := congrArg BitVec.toNat hz
  rw [toNat_zField] at hz'
  apply BitVec.eq_of_toNat_eq
  rw [toNat_commandWord, ← ho, ← ha, toNat_opField, toNat_argField]
  omega

/-! ## The argument from the operands and the zeros above them (R92) -/

theorem argField_eq_twoBytes (w : Command) : argField w = argHi w ++ argLo w := by
  apply BitVec.eq_of_toNat_eq
  rw [toNat_argField, toNat_twoBytes, toNat_argHi, toNat_argLo]
  omega

theorem argField_eq_byte {w : Command} (hhi : argHi w = 0#8) : argField w = 0#8 ++ argLo w := by
  rw [argField_eq_twoBytes, hhi]

theorem byteArg_eq_level (b : Byte) (h : b.extractLsb' 1 7 = 0#7) :
    (0#8 ++ b : BitVec 16) = 0#15 ++ BitVec.ofBool (b.getLsbD 0) := by
  revert b; decide

theorem byteArg_eq_channel (b : Byte) (h : b.extractLsb' 3 5 = 0#5) :
    (0#8 ++ b : BitVec 16) = 0#13 ++ b.extractLsb' 0 3 := by
  revert b; decide

/-! ## The check of the fields and operands (R93 step 2) -/

theorem checkedCommand_eq_command_iff {zeros : Bool} {i j : Instr} :
    checkedCommand zeros i = .command j ↔ zeros = true ∧ i.wellFormed = true ∧ i = j := by
  cases zeros <;> cases hi : i.wellFormed <;> simp [checkedCommand, hi]

theorem checkedCommand_eq_illegal_iff {zeros : Bool} {i : Instr} {e : CmdError} :
    checkedCommand zeros i = .illegal e ↔ e = .illegalArg ∧ ¬ (zeros = true ∧ i.wellFormed = true) := by
  cases zeros <;> cases hi : i.wellFormed <;> simp [checkedCommand, hi, eq_comm]

/-! ## The decoder on the encoder's words, and on every word (R93) -/

/-- In the word of a command the decoder finds every must-be-zero field zero and the operands in their fields, so only
the operand ranges are left to check. -/
theorem decode_encode (i : Instr) : decode (encode i) = checkedCommand true i := by
  cases i with
  | start | restart | recv | stop | config | fclear | freset => decide
  | send b => simp [encode, decode]
  | mack v => revert v; decide
  | bread r c => simp [encode, decode]
  | fpush x => simp [encode, decode]
  | fpushc k => revert k; decide

/-- The opcodes no command has (R94). -/
def ReservedOp (w : Command) : Prop := (opField w).toNat ∈ [0x0, 0x7, 0xA, 0xF]

theorem reservedOp_iff (w : Command) :
    ReservedOp w ↔
      (opField w).toNat = 0x0 ∨ (opField w).toNat = 0x7 ∨ (opField w).toNat = 0xA ∨ (opField w).toNat = 0xF := by
  simp only [ReservedOp, List.mem_cons, List.not_mem_nil, or_false]

/-- A reserved opcode is `ILLEGAL_OP`; a word of any other opcode is checked as one command, and is that command's word
where all its must-be-zero fields are zero. -/
theorem decode_cases (w : Command) :
    (ReservedOp w ∧ decode w = .illegal .illegalOp) ∨
    (¬ ReservedOp w ∧ ∃ zeros i, decode w = checkedCommand zeros i ∧ (zeros = true → encode i = w)) := by
  have hlt : (opField w).toNat < 16 := (opField w).isLt
  rw [reservedOp_iff]
  unfold decode
  split <;> rename_i h
  -- No opcode of the table
  case h_13 =>
    refine .inl ⟨?_, rfl⟩
    simp only [imp_false] at *
    omega
  all_goals
    refine .inr ⟨by omega, _, _, rfl, fun hzeros => ?_⟩
    simp only [Bool.and_eq_true, beq_iff_eq] at hzeros
  -- SEND
  case h_3 =>
    obtain ⟨hz, hhi⟩ := hzeros
    exact commandWord_eq h hz (argField_eq_byte hhi)
  -- MACK
  case h_5 =>
    obtain ⟨⟨hz, hhi⟩, hlo⟩ := hzeros
    exact commandWord_eq h hz ((argField_eq_byte hhi).trans (byteArg_eq_level _ hlo))
  -- BREAD
  case h_8 => exact commandWord_eq h hzeros (argField_eq_twoBytes w)
  -- FPUSH
  case h_11 => exact commandWord_eq h hzeros rfl
  -- FPUSHC
  case h_12 =>
    obtain ⟨⟨hz, hhi⟩, hlo⟩ := hzeros
    exact commandWord_eq h hz ((argField_eq_byte hhi).trans (byteArg_eq_channel _ hlo))
  -- The seven commands without an operand
  all_goals
    obtain ⟨hz, harg⟩ := hzeros
    exact commandWord_eq h hz harg

/-! ## Each outcome characterised -/

theorem decode_eq_command_iff (w : Command) (i : Instr) :
    decode w = .command i ↔ encode i = w ∧ i.wellFormed = true := by
  constructor
  · intro h
    obtain ⟨-, hop⟩ | ⟨-, zeros, j, hj, hword⟩ := decode_cases w
    · simp [hop] at h
    · obtain ⟨hzeros, hwf, rfl⟩ := checkedCommand_eq_command_iff.mp (hj.symm.trans h)
      exact ⟨hword hzeros, hwf⟩
  · rintro ⟨rfl, hwf⟩
    rw [decode_encode, checkedCommand_eq_command_iff]
    exact ⟨rfl, hwf, rfl⟩

theorem decode_eq_illegalOp_iff (w : Command) : decode w = .illegal .illegalOp ↔ ReservedOp w := by
  obtain ⟨hres, hop⟩ | ⟨hres, zeros, j, hj, -⟩ := decode_cases w
  · simp [hres, hop]
  · simp [hres, hj, checkedCommand_eq_illegal_iff]

theorem decode_ne_proto (w : Command) : decode w ≠ .illegal .proto := by
  obtain ⟨-, hop⟩ | ⟨-, zeros, j, hj, -⟩ := decode_cases w
  · simp [hop]
  · simp [hj, checkedCommand_eq_illegal_iff]

/-- `ILLEGAL_ARG` is what remains: the opcode is assigned and no command answers. -/
theorem decode_eq_illegalArg_iff (w : Command) :
    decode w = .illegal .illegalArg ↔ ¬ ReservedOp w ∧ ∀ i : Instr, i.wellFormed = true → encode i ≠ w := by
  have hcmd : (∀ i : Instr, i.wellFormed = true → encode i ≠ w) ↔ ∀ i, decode w ≠ .command i := by
    simp only [ne_eq, decode_eq_command_iff, not_and, imp_not_comm]
  rw [hcmd, ← decode_eq_illegalOp_iff]
  cases hd : decode w with
  | command i => simp
  | illegal e =>
    cases e with
    | illegalOp | illegalArg => simp
    | proto => exact absurd hd (decode_ne_proto w)

/-! ## The obligation -/

/-- Settles O2: every word falls under `decode_cases`, and the words of commands under `decode_encode`. -/
theorem decodeSplitsEveryWord : Obligations.DecodeSplitsEveryWord := fun w =>
  ⟨decode_eq_illegalOp_iff w, decode_eq_command_iff w, decode_eq_illegalArg_iff w, decode_ne_proto w⟩

end Sys2Proof.EncodingProofs

/-! # The primitives and the phase table (`40_i2c_primitives.md` R120 to R129) -/

namespace Sys2Proof.PrimitiveProofs
open Sys2Proof.Machine Sys2Proof.Safety Sys2Proof.Laws

/-! ## The rows of the phase table (R121, R160): where a bus command is legal, and where it leads -/

theorem phaseTable_start_eq_some {p q : Phase} : phaseTable .start p = some q ↔ p = .idle ∧ q = .addr := by
  cases p <;> simp [phaseTable, eq_comm]

theorem phaseTable_restart_eq_some {p q : Phase} :
    phaseTable .restart p = some q ↔ (p = .wr ∨ p = .rdend) ∧ q = .addr := by
  cases p <;> simp [phaseTable, eq_comm]

theorem phaseTable_send_eq_some {b : Byte} {p q : Phase} :
    phaseTable (.send b) p = some q ↔ (p = .addr ∨ p = .wr) ∧ q = phaseAfterSend p b := by
  cases p <;> simp [phaseTable, phaseAfterSend, eq_comm (b := q)]

theorem phaseTable_recv_eq_some {p q : Phase} : phaseTable .recv p = some q ↔ p = .rd ∧ q = .rdack := by
  cases p <;> simp [phaseTable, eq_comm]

theorem phaseTable_mack_eq_some {v : Level} {p q : Phase} :
    phaseTable (.mack v) p = some q ↔ p = .rdack ∧ q = if v then .rdend else .rd := by
  cases p <;> simp [phaseTable, eq_comm]

theorem phaseTable_stop_eq_some {p q : Phase} :
    phaseTable .stop p = some q ↔ (p = .wr ∨ p = .rdend) ∧ q = .idle := by
  cases p <;> simp [phaseTable, eq_comm]

theorem phaseTable_config_eq_some {p q : Phase} : phaseTable .config p = some q ↔ p = .idle ∧ q = .idle := by
  cases p <;> simp [phaseTable, eq_comm]

theorem phaseTable_bread_eq_some {r c : Byte} {p q : Phase} :
    phaseTable (.bread r c) p = some q ↔ p = .idle ∧ q = .idle := by
  cases p <;> simp [phaseTable, eq_comm]

/-- The wires as R136 says they are after SEND, whichever way the direction bit leads. -/
theorem drivers_phaseAfterSend (p : Phase) (b : Byte) :
    sclOf (phaseAfterSend p b) = false ∧ sdaOf (phaseAfterSend p b) = true := by
  unfold phaseAfterSend
  split
  · cases b.getLsbD 0 <;> exact ⟨rfl, rfl⟩
  · exact ⟨rfl, rfl⟩

/-! ## A presented command against the table (R223) -/

/-- Where the table has `PROTO`, in every environment. -/
theorem exec_of_phaseTable_none {i : Instr} {s : State} (hr : Ready s) (hw : i.wellFormed = true)
    (hp : phaseTable i s.drv.phase = none) : exec i s = .next { s with err := ⟨some .proto, encode i⟩ } := by
  have hl : Instr.legalIn i s.drv.phase = false := by rw [legalIn_eq_isSome, hp]; rfl
  simp [exec_eq_command, command, hr.notBusy, State.errf, hr.noError, hw, hl, raiseCmdError]

/-- Where the table has a phase, the command has its effect. -/
theorem exec_of_phaseTable_some {i : Instr} {s : State} {p : Phase} (hr : Ready s) (hw : i.wellFormed = true)
    (hp : phaseTable i s.drv.phase = some p) : exec i s = .next (effect i s) := by
  rw [exec_eq_command]
  exact command_legal hr.notBusy hr.noError hw (by rw [legalIn_eq_isSome, hp]; rfl)

/-! ## A completed command ends at a command boundary in the table's phase -/

/-- A command run from `s` is complete in `t`: a command boundary in phase `p`, and no error recorded on the way. -/
structure CompleteIn (p : Phase) (s t : State) : Prop where
  phase : t.drv.phase = p
  err : t.err = s.err
  boundary : Boundary t

/-- A primitive whose waits are granted completes in the phase of its closed form, if that leaves the drivers as R136
says for this phase. -/
theorem primitive_completeIn {n : Nat} {r : State → Run Unit} {s : State} {drv : Driver} {shreg : Byte}
    {bitcnt : BitVec 4} {w : List WireOp} {e : BusEvent} {H : State → Prop} (hr : Ready s) (g : Grants n s)
    (h : Spec n (beginBus s) (r (beginBus s)) () (primDone (beginBus s) drv shreg bitcnt n w e) H)
    (hbit : bitcnt = 0) (hscl : drv.sclO = sclOf drv.phase) (hsda : drv.sdaO = sdaOf drv.phase) :
    CompleteIn drv.phase s (busCommand r s) := by
  rw [busCommand_granted h g]
  exact ⟨rfl, rfl, rfl, hscl, hsda, by simp [primDone, hr.sqIdle, hbit, Sequencer.reset]⟩

/-- A composite command whose waits are granted completes in `IDLE`, if the sequencer has enough fuel (R169). -/
theorem composite_completeIn {latch : State → State} {s : State} (hi : SeqInv (latch (beginBus s)))
    (hz : SeqIdleRegs (latch (beginBus s))) (hfuel : seqStates (latch (beginBus s)) ≤ seqFuel)
    (herr : (latch (beginBus s)).err = s.err) (henv : (latch (beginBus s)).env = s.env)
    (g : Grants (seqWaitsLeft (latch (beginBus s))) s) :
    CompleteIn .idle s (busCommand (fun t => runSeq seqFuel (latch t)) s) := by
  have hspec := Spec.before (s := beginBus s) (runSeq_spec seqFuel (latch (beginBus s)) hi hfuel) (by rw [henv]; rfl)
  rw [busCommand_granted (r := fun t => runSeq seqFuel (latch t)) hspec g]
  obtain ⟨hboundary, hphase⟩ := endBus_seqEnd_boundary seqFuel _ hi hz hfuel
  exact ⟨hphase, (seqEnd_keeps seqFuel _).err.trans herr, hboundary⟩

/-- A filter command completes where it stands: it touches nothing a boundary speaks of (R205). -/
theorem withFilter_completeIn (f : FilterBank) {s : State} (hr : Ready s) :
    CompleteIn s.drv.phase s { s with fb := f } := ⟨rfl, rfl, hr.notBusy, hr.scl, hr.sda, hr.sqIdle⟩

/-- Every command the table performs completes in the table's phase when its waits are granted. -/
theorem effect_completeIn {i : Instr} {s : State} {p : Phase} (hr : Ready s) (hw : i.wellFormed = true)
    (hp : phaseTable i s.drv.phase = some p) (g : Grants (waitsOf i) s) : CompleteIn p s (effect i s) := by
  have hbit : s.sq.bitcnt = 0 := by rw [hr.sqIdle]; rfl
  cases i with
  | start =>
    obtain ⟨hidle, rfl⟩ := phaseTable_start_eq_some.mp hp
    have hscl : s.drv.sclO = true := by rw [hr.scl, hidle]; rfl
    have hsda : s.drv.sdaO = true := by rw [hr.sda, hidle]; rfl
    exact primitive_completeIn hr g (doStart_spec (beginBus s) hscl hsda) hbit rfl rfl
  | restart =>
    obtain ⟨-, rfl⟩ := phaseTable_restart_eq_some.mp hp
    exact primitive_completeIn hr g (doRestart_spec (beginBus s)) hbit rfl rfl
  | send b =>
    obtain ⟨-, rfl⟩ := phaseTable_send_eq_some.mp hp
    obtain ⟨hscl, hsda⟩ := drivers_phaseAfterSend s.drv.phase b
    exact primitive_completeIn hr g (doSend_spec b (beginBus s)) rfl hscl.symm hsda.symm
  | recv =>
    obtain ⟨-, rfl⟩ := phaseTable_recv_eq_some.mp hp
    exact primitive_completeIn hr g (doRecv_spec (beginBus s)) rfl rfl rfl
  | mack v =>
    obtain ⟨-, rfl⟩ := phaseTable_mack_eq_some.mp hp
    exact primitive_completeIn hr g (doMack_spec v (beginBus s)) hbit (by cases v <;> rfl) (by cases v <;> rfl)
  | stop =>
    obtain ⟨-, rfl⟩ := phaseTable_stop_eq_some.mp hp
    exact primitive_completeIn hr g (doStop_spec (beginBus s)) hbit rfl rfl
  | config =>
    obtain ⟨hidle, rfl⟩ := phaseTable_config_eq_some.mp hp
    obtain ⟨hi, hz, hstates, hwaits⟩ := latchConfig_begin s hr.toBoundary hidle
    exact composite_completeIn hi hz (by rw [hstates]; decide) rfl rfl (by rw [hwaits]; exact g)
  | bread r c =>
    obtain ⟨hidle, rfl⟩ := phaseTable_bread_eq_some.mp hp
    obtain ⟨hlow, hhigh⟩ : 1 ≤ c.toNat ∧ c.toNat ≤ 14 := by simpa [Instr.wellFormed, countLegal] using hw
    obtain ⟨hi, hz, hstates, hwaits⟩ := latchBread_begin r c s hr.toBoundary hidle hlow hhigh
    have hcount : waitsOf (.bread r c) = 9 * c.toNat + 31 := by simp only [waitsOf]; omega
    exact composite_completeIn hi hz (by rw [hstates, seqFuel]; omega) rfl rfl (by rw [hwaits, ← hcount]; exact g)
  | fclear | freset | fpush x | fpushc k =>
    cases hp
    exact withFilter_completeIn _ hr

/-! ## The way back to `IDLE` -/

/-- Primitives after which STOP is legal, from every phase (R121). -/
def beforeStop : Phase → List Instr
  | .idle => [.start, .send 0#8]
  | .addr => [.send 0#8]
  | .wr => []
  | .rd => [.recv, .mack true]
  | .rdack => [.mack true]
  | .rdend => []

theorem beforeStop_spec (p : Phase) :
    (beforeStop p).length ≤ 3 ∧ (∀ i ∈ beforeStop p, isPrimitive i = true) ∧
      phaseAfterAll (beforeStop p ++ [.stop]) p = some .idle := by
  cases p <;> decide

/-! ## The obligation -/

/-- Settles O21: the table's `PROTO` and phase entries by what a presented command does there, the way to `IDLE` by
`beforeStop`. -/
theorem phaseTableDecides : Obligations.PhaseTableDecides := by
  refine ⟨fun i s hr hw => ⟨exec_of_phaseTable_none hr hw, fun p hp g => ?_⟩, fun p => ⟨_, beforeStop_spec p⟩⟩
  obtain ⟨hphase, herr, hboundary⟩ := effect_completeIn hr hw hp g
  exact ⟨effect i s, exec_of_phaseTable_some hr hw hp, hphase, hboundary.notBusy, herr, hboundary⟩

end Sys2Proof.PrimitiveProofs

/-! # The filter bank (`42_filter_bank.md` R190 to R205) -/

namespace Sys2Proof.FilterProofs
open Sys2Proof.Machine Sys2Proof.Safety Sys2Proof.Laws

/-! ## What each filter command answers in a block that accepts it (R205) -/

theorem exec_fclear {s : State} (hb : s.drv.busy = false) (he : s.err.errcode = none) :
    exec .fclear s = .next (filterCommand (fun _ => FilterBank.reset) s) := by
  rw [exec_eq_command]
  exact command_legal hb he rfl rfl

/-- The bank FRESET leaves: everything zero, armed (R196). -/
def freshBank : FilterBank := { FilterBank.reset with armed := true }

theorem exec_freset {s : State} (hb : s.drv.busy = false) (he : s.err.errcode = none) :
    exec .freset s = .next (filterCommand (fun _ => freshBank) s) := by
  rw [exec_eq_command]
  exact command_legal hb he rfl rfl

theorem exec_fpush (x : Sample) {s : State} (hb : s.drv.busy = false) (he : s.err.errcode = none) :
    exec (.fpush x) s = .next (filterCommand (fun f => f.push x) s) := by
  rw [exec_eq_command]
  exact command_legal hb he rfl rfl

/-- A legal channel is pushed as the sample it reads as (R198). -/
theorem exec_fpushc {k : BitVec 3} (hk : k.toNat ≤ 6) {s : State} (hb : s.drv.busy = false)
    (he : s.err.errcode = none) :
    exec (.fpushc k) s = .next (filterCommand (fun f => f.push (s.rx.channel k.toNat)) s) := by
  rw [exec_eq_command]
  exact command_legal hb he (decide_eq_true hk) rfl

theorem onlyFilter_filterCommand (g : FilterBank → FilterBank) (s : State) : OnlyFilter s (filterCommand g s) :=
  ⟨rfl, rfl, rfl, rfl, rfl, rfl, rfl, rfl⟩

/-! ## The cleared bank (R195, R196) -/

theorem filterZero_reset : FilterZero FilterBank.reset where
  sum := rfl
  idx := rfl
  hist := ⟨rfl, rfl, rfl, rfl, rfl⟩
  xout := rfl
  mafn := rfl
  mafd := rfl
  firq := rfl
  iirq := rfl
  ovalid := rfl
  capRaw _ h := Vector.getElem_replicate h
  capMafn _ h := Vector.getElem_replicate h
  capFirq _ h := Vector.getElem_replicate h
  capIirq _ h := Vector.getElem_replicate h

/-- `ARMED` is not among the zeroed registers. -/
theorem filterZero_freshBank : FilterZero freshBank := { filterZero_reset with }

/-- Of a cleared bank the host reads `ARMED` alone in `FBSTAT` (R40). -/
theorem hostRead_fbstat_of_filterZero {s : State} (hb : s.drv.busy = false) (h : FilterZero s.fb) :
    s.hostRead 0x006#12 = if s.fb.armed then 1#32 else 0#32 := by
  rw [StateProofs.hostRead_fbstat hb, State.fbstat, h.idx, h.ovalid]
  cases s.fb.armed <;> rfl

/-! ## A push: nothing while disarmed (R199), else R197 -/

@[simp] theorem push_of_disarmed (x : Sample) {f : FilterBank} (h : f.armed = false) : f.push x = f := by
  simp [FilterBank.push, h]

@[simp] theorem push_of_armed (x : Sample) {f : FilterBank} (h : f.armed = true) : f.push x = f.armedPush x := by
  simp [FilterBank.push, h]

theorem filterCommand_push_of_disarmed (x : Sample) {s : State} (h : s.fb.armed = false) :
    filterCommand (fun f => f.push x) s = s := by
  rw [filterCommand, push_of_disarmed x h]

theorem exec_fpush_of_disarmed (x : Sample) {s : State} (hb : s.drv.busy = false) (he : s.err.errcode = none)
    (hd : s.fb.armed = false) : exec (.fpush x) s = .next s := by
  rw [exec_fpush x hb he, filterCommand_push_of_disarmed x hd]

theorem exec_fpushc_of_disarmed {k : BitVec 3} (hk : k.toNat ≤ 6) {s : State} (hb : s.drv.busy = false)
    (he : s.err.errcode = none) (hd : s.fb.armed = false) : exec (.fpushc k) s = .next s := by
  rw [exec_fpushc hk hb he, filterCommand_push_of_disarmed _ hd]

theorem toInt_toAcc {v : Int} (hlo : -2147483648 ≤ v) (hhi : v < 2147483648) : (toAcc v).toInt = v :=
  BitVec.toInt_ofInt_eq_self (by decide) hlo hhi

theorem sample_bounds (x : Sample) : -32768 ≤ x.toInt ∧ x.toInt < 32768 := ⟨x.le_toInt, x.toInt_lt⟩

/-- The FIR's weights add up to 10000, so its numerator fits the register whatever the history (R202). -/
theorem toInt_toAcc_nextFirq (f : FilterBank) (x : Sample) :
    (toAcc (f.nextFirq x)).toInt = 264 * x.toInt + 1405 * f.hist1.toInt + 3331 * f.hist2.toInt
      + 3331 * f.hist3.toInt + 1405 * f.hist4.toInt + 264 * f.hist5.toInt := by
  have h0 := sample_bounds x
  have h1 := sample_bounds f.hist1
  have h2 := sample_bounds f.hist2
  have h3 := sample_bounds f.hist3
  have h4 := sample_bounds f.hist4
  have h5 := sample_bounds f.hist5
  have hq : f.nextFirq x = 264 * x.toInt + 1405 * f.hist1.toInt + 3331 * f.hist2.toInt
      + 3331 * f.hist3.toInt + 1405 * f.hist4.toInt + 264 * f.hist5.toInt := rfl
  rw [← hq]
  exact toInt_toAcc (by omega) (by omega)

theorem toInt_toAcc_nextIirq (f : FilterBank) (x : Sample) :
    (toAcc (f.nextIirq x)).toInt = 9 * f.hist1.toInt + x.toInt := by
  have h0 := sample_bounds x
  have h1 := sample_bounds f.hist1
  have hi : f.nextIirq x = 9 * f.hist1.toInt + 1 * x.toInt := rfl
  rw [toInt_toAcc (by omega) (by omega), hi, one_mul]

/-- A capture array after slot `n` of it was written. -/
theorem getElem_captured {α : Type} (v : Vector α 100) (n : Nat) (a : α) {i : Nat} (h : i < 100) :
    (v.setIfInBounds n a)[i] = if i = n then a else v[i] := by
  simp only [Vector.getElem_setIfInBounds h, eq_comm (a := n)]

/-- An armed push register by register, where the index is in its range and the running sum fits its register. -/
theorem pushed_armedPush {x : Sample} {f : FilterBank} (hidx : f.idx.toNat ≤ 99)
    (hlo : -2147483648 ≤ f.sum.toInt + x.toInt) (hhi : f.sum.toInt + x.toInt < 2147483648) :
    Pushed x f (f.armedPush x) where
  sum := toInt_toAcc hlo hhi
  xout := rfl
  mafn := toInt_toAcc hlo hhi
  mafd := by
    show (f.idx + 1#7).toNat = f.idx.toNat + 1
    bv_omega
  firq := toInt_toAcc_nextFirq f x
  iirq := toInt_toAcc_nextIirq f x
  ovalid := rfl
  capRaw _ h := getElem_captured _ _ _ h
  capMafn _ h := getElem_captured _ _ _ h
  capFirq _ h := getElem_captured _ _ _ h
  capIirq _ h := getElem_captured _ _ _ h
  hist1 := rfl
  hist2 := rfl
  hist3 := rfl
  hist4 := rfl
  hist5 := rfl
  idx := by
    by_cases hlast : f.idx.toNat = 99
    · simp [FilterBank.armedPush, Config.winLen, hlast]
    · simp only [FilterBank.armedPush, Config.winLen, hlast, beq_iff_eq, if_false]
      bv_omega
  armed := by
    by_cases hlast : f.idx.toNat = 99 <;> simp [FilterBank.armedPush, Config.winLen, hlast]

/-! ## A window: FRESET and the pushes after it (R196, R197) -/

/-- The bank after these pushes. -/
def pushAll (xs : List Sample) (f : FilterBank) : FilterBank := xs.foldl (fun g x => g.push x) f

theorem pushAll_concat (xs : List Sample) (x : Sample) (f : FilterBank) :
    pushAll (xs ++ [x]) f = (pushAll xs f).push x := List.foldl_concat ..

theorem execAll_cons {i : Instr} {is : List Instr} {s t : State} (h : exec i s = .next t) :
    execAll (i :: is) s = execAll is t := by
  rw [execAll, h]

theorem execAll_pushes (xs : List Sample) {s : State} (hb : s.drv.busy = false) (he : s.err.errcode = none) :
    execAll (xs.map .fpush) s = .next (filterCommand (pushAll xs) s) := by
  induction xs generalizing s with
  | nil => rfl
  | cons x xs ih =>
    rw [List.map_cons, execAll_cons (exec_fpush x hb he)]
    exact ih hb he

/-- A window leaves the bank its pushes make of the fresh one, whatever bank there was before. -/
theorem execAll_windowCommands (xs : List Sample) {s : State} (hb : s.drv.busy = false)
    (he : s.err.errcode = none) :
    execAll (windowCommands xs) s = .next (filterCommand (fun _ => pushAll xs freshBank) s) := by
  rw [windowCommands, execAll_cons (exec_freset hb he)]
  exact execAll_pushes xs hb he

/-! ## The samples of a window, the last one first -/

@[simp] theorem sampleBack_nil (j : Nat) : sampleBack [] j = 0 := rfl

@[simp] theorem sampleBack_concat_zero (xs : List Sample) (x : Sample) : sampleBack (xs ++ [x]) 0 = x.toInt := by
  simp [sampleBack]

@[simp] theorem sampleBack_concat_succ (xs : List Sample) (x : Sample) (j : Nat) :
    sampleBack (xs ++ [x]) (j + 1) = sampleBack xs j := by
  unfold sampleBack
  by_cases h : j < xs.length
  · have hlt : xs.length - 1 - j < xs.length := by omega
    have hpos : xs.length - (j + 1) = xs.length - 1 - j := by omega
    simp [h, hpos, List.getElem?_append_left hlt]
  · simp [h]

@[simp] theorem sampleSum_nil : sampleSum [] = 0 := rfl

@[simp] theorem sampleSum_concat (xs : List Sample) (x : Sample) :
    sampleSum (xs ++ [x]) = sampleSum xs + x.toInt := by
  simp [sampleSum]

theorem sampleSum_bounds (xs : List Sample) :
    -32768 * (xs.length : Int) ≤ sampleSum xs ∧ sampleSum xs ≤ 32767 * (xs.length : Int) := by
  induction xs using List.reverseRecOn with
  | nil => simp
  | append_singleton xs x ih =>
    have hx := sample_bounds x
    rw [sampleSum_concat, List.length_append, List.length_singleton]
    omega

/-! ## What the bank holds in a window of at most a hundred pushes -/

/-- The bank after FRESET and the pushes of `xs`: the registers as the formulas give them from the samples, those before
the first taken as 0 (R190, R192 to R194, R197). -/
structure WindowBank (xs : List Sample) (f : FilterBank) : Prop where
  armed : f.armed = decide (xs.length < 100)
  ovalid : f.ovalid = !xs.isEmpty
  idx : f.idx.toNat = if xs.length < 100 then xs.length else 0
  sum : f.sum.toInt = sampleSum xs
  hist1 : f.hist1.toInt = sampleBack xs 0
  hist2 : f.hist2.toInt = sampleBack xs 1
  hist3 : f.hist3.toInt = sampleBack xs 2
  hist4 : f.hist4.toInt = sampleBack xs 3
  hist5 : f.hist5.toInt = sampleBack xs 4
  xout : f.xout.toInt = sampleBack xs 0
  mafn : f.mafn.toInt = sampleSum xs
  mafd : f.mafd.toNat = xs.length
  firq : f.firq.toInt = 264 * sampleBack xs 0 + 1405 * sampleBack xs 1 + 3331 * sampleBack xs 2
    + 3331 * sampleBack xs 3 + 1405 * sampleBack xs 4 + 264 * sampleBack xs 5
  iirq : f.iirq.toInt = 9 * sampleBack xs 1 + sampleBack xs 0

theorem windowBank_fresh : WindowBank [] freshBank :=
  ⟨rfl, rfl, rfl, rfl, rfl, rfl, rfl, rfl, rfl, rfl, rfl, rfl, rfl, rfl⟩

/-- In an open window a push is the armed push of R197, and its sum fits the register (R202). -/
theorem WindowBank.pushed {xs : List Sample} {f : FilterBank} (h : WindowBank xs f) (hlen : xs.length < 100)
    (x : Sample) : Pushed x f (f.push x) := by
  have harmed : f.armed = true := by rw [h.armed, decide_eq_true hlen]
  have hidx : f.idx.toNat = xs.length := by rw [h.idx, if_pos hlen]
  have hsum := sampleSum_bounds xs
  have hx := sample_bounds x
  rw [push_of_armed x harmed]
  exact pushed_armedPush (by omega) (by rw [h.sum]; omega) (by rw [h.sum]; omega)

theorem WindowBank.push {xs : List Sample} {f : FilterBank} (h : WindowBank xs f) (hlen : xs.length < 100)
    (x : Sample) : WindowBank (xs ++ [x]) (f.push x) := by
  have hp := h.pushed hlen x
  have hidx : f.idx.toNat = xs.length := by rw [h.idx, if_pos hlen]
  have hlast : f.idx.toNat = 99 ↔ ¬ (xs ++ [x]).length < 100 := by
    rw [List.length_append, List.length_singleton]
    omega
  exact
    { armed := by rw [hp.armed, decide_eq_decide, ne_eq, hlast, not_not]
      ovalid := by simp [hp.ovalid]
      idx := by rw [hp.idx, ite_cond_congr hlast.eq, ite_not]; simp [hidx]
      sum := by rw [hp.sum, h.sum, sampleSum_concat]
      hist1 := by rw [hp.hist1, sampleBack_concat_zero]
      hist2 := by rw [hp.hist2, h.hist1, sampleBack_concat_succ]
      hist3 := by rw [hp.hist3, h.hist2, sampleBack_concat_succ]
      hist4 := by rw [hp.hist4, h.hist3, sampleBack_concat_succ]
      hist5 := by rw [hp.hist5, h.hist4, sampleBack_concat_succ]
      xout := by rw [hp.xout, sampleBack_concat_zero]
      mafn := by rw [hp.mafn, h.sum, sampleSum_concat]
      mafd := by simp [hp.mafd, hidx]
      firq := by simp [hp.firq, h.hist1, h.hist2, h.hist3, h.hist4, h.hist5]
      iirq := by simp [hp.iirq, h.hist1] }

theorem windowBank_pushAll (xs : List Sample) (hlen : xs.length ≤ 100) : WindowBank xs (pushAll xs freshBank) := by
  induction xs using List.reverseRecOn with
  | nil => exact windowBank_fresh
  | append_singleton xs x ih =>
    rw [List.length_append, List.length_singleton] at hlen
    rw [pushAll_concat]
    exact (ih (by omega)).push hlen x

/-- What every statement about a window starts from: its commands complete, nothing but the bank has changed, and the
bank is the window's. -/
theorem window_completes (xs : List Sample) {s : State} (hb : s.drv.busy = false) (he : s.err.errcode = none)
    (hlen : xs.length ≤ 100) :
    ∃ t, execAll (windowCommands xs) s = .next t ∧ OnlyFilter s t ∧ WindowBank xs t.fb :=
  ⟨_, execAll_windowCommands xs hb he, onlyFilter_filterCommand _ s, windowBank_pushAll xs hlen⟩

/-! ## A window of a constant input (R204) -/

theorem sampleBack_replicate (n : Nat) (x : Sample) (j : Nat) :
    sampleBack (List.replicate n x) j = (if j < n then 1 else 0) * x.toInt := by
  unfold sampleBack
  rw [List.length_replicate]
  by_cases h : j < n
  · have hlt : n - 1 - j < n := by omega
    simp [h, hlt]
  · simp [h]

theorem sampleSum_replicate (n : Nat) (x : Sample) : sampleSum (List.replicate n x) = n * x.toInt := by
  simp [sampleSum]

section Constant
variable {n : Nat} {x : Sample} {f : FilterBank} (h : WindowBank (List.replicate (n + 1) x) f)
include h

/-- The FIR numerator is `x` times the weights of the taps that have seen it. -/
theorem WindowBank.firq_constant :
    f.firq.toInt = (264 + 1405 * (if 1 ≤ n then 1 else 0) + 3331 * (if 2 ≤ n then 1 else 0)
      + 3331 * (if 3 ≤ n then 1 else 0) + 1405 * (if 4 ≤ n then 1 else 0) + 264 * (if 5 ≤ n then 1 else 0))
      * x.toInt := by
  simp only [h.firq, sampleBack_replicate, Nat.lt_succ_iff, Nat.zero_le, if_true]
  ring

theorem WindowBank.iirq_constant : f.iirq.toInt = (if n = 0 then 1 else 10) * x.toInt := by
  rw [h.iirq, sampleBack_replicate, sampleBack_replicate]
  cases n with
  | zero => simp
  | succ n => simp; ring

theorem WindowBank.mafn_constant : f.mafn.toInt = (n + 1 : Int) * x.toInt := by
  rw [h.mafn, sampleSum_replicate, Nat.cast_succ]

/-- The average of a constant is the constant, from the first push on. -/
theorem WindowBank.maf_constant : f.maf = x.toInt := by
  have hpos : (n + 1 : ℚ) ≠ 0 := Nat.cast_add_one_ne_zero n
  rw [FilterBank.maf, h.mafn_constant, h.mafd, List.length_replicate]
  push_cast
  exact mul_div_cancel_left₀ _ hpos

/-- From the sixth push on the FIR passes a constant: its weights add up to 1. -/
theorem WindowBank.fir_constant (hn : 5 ≤ n) : f.fir = x.toInt := by
  have hfirq : f.firq.toInt = 10000 * x.toInt := by
    rw [h.firq_constant]
    simp [show 1 ≤ n by omega, show 2 ≤ n by omega, show 3 ≤ n by omega, show 4 ≤ n by omega, hn]
  rw [FilterBank.fir, hfirq, Config.firDen]
  push_cast
  exact mul_div_cancel_left₀ _ (by norm_num)

theorem WindowBank.iir_constant (hn : n = 0) : f.iir = 0.1 * (x.toInt : ℚ) := by
  rw [FilterBank.iir, h.iirq_constant, if_pos hn, Config.iirDen]
  push_cast
  ring

end Constant

/-! ## The obligations -/

/-- Settles O37: a push leaves a disarmed bank, and with it the state, as it is. -/
theorem pushWhileDisarmedChangesNothing : Obligations.PushWhileDisarmedChangesNothing :=
  fun _ hb he hd => ⟨fun x => exec_fpush_of_disarmed x hb he hd, fun _ hk => exec_fpushc_of_disarmed hk hb he hd⟩

/-- Settles O33: FCLEAR leaves the reset bank, which a second FCLEAR leaves again and which is disarmed. -/
theorem fclearClears : Obligations.FclearClears := by
  refine ⟨by decide, exec_fclear rfl rfl, fun s hb he => ⟨filterCommand (fun _ => FilterBank.reset) s,
    exec_fclear hb he, filterZero_reset, rfl, onlyFilter_filterCommand _ s, rfl, ?_, exec_fclear hb he, fun x => ?_⟩⟩
  · exact hostRead_fbstat_of_filterZero hb filterZero_reset
  · exact exec_fpush_of_disarmed x hb he rfl

/-- Settles O34: FRESET leaves the fresh bank, which is the reset bank but for `ARMED`. -/
theorem fresetArmsAFreshWindow : Obligations.FresetArmsAFreshWindow := by
  refine ⟨by decide, fun s hb he => ⟨filterCommand (fun _ => freshBank) s,
    exec_freset hb he, filterZero_freshBank, rfl, onlyFilter_filterCommand _ s, rfl, ?_, exec_freset hb he,
    exec_fclear hb he⟩⟩
  exact hostRead_fbstat_of_filterZero hb filterZero_freshBank

/-- Settles O40: the window's registers on the constant input. -/
theorem warmUpOnAConstantInput : Obligations.WarmUpOnAConstantInput := by
  intro s x n hb he hn
  obtain ⟨t, ht, -, h⟩ :=
    window_completes (List.replicate (n + 1) x) hb he (by rw [List.length_replicate]; omega)
  refine ⟨t, ht, ?_, h.iirq_constant, h.mafn_constant, h.fir_constant, h.iir_constant, h.maf_constant⟩
  rw [h.firq_constant]
  congr 1
  match n with
  | 0 | 1 | 2 | 3 | 4 => rfl
  | n + 5 => simp

end Sys2Proof.FilterProofs

/-! # Errors and the error state (`60_exceptions.md` R224 to R227) -/

namespace Sys2Proof.ErrorProofs
open Sys2Proof.Machine Sys2Proof.Safety Sys2Proof.Laws

/-! ## Raising an error (R224, R226) -/

theorem raiseCmdError_of_noError (e : CmdError) (w : Command) {s : State} (he : s.err.errcode = none) :
    raiseCmdError e w s = { s with err := ⟨some e, w⟩ } := by
  simp [raiseCmdError, State.errf, he]

theorem raiseCmdError_of_error (e : CmdError) (w : Command) {s : State} (he : s.err.errcode ≠ none) :
    raiseCmdError e w s = s := by
  simp [raiseCmdError, StateProofs.errf_eq_decide, he]

/-! ## What an accepted word does (R93, R223) -/

theorem execWord_of_command {w : Command} {i : Instr} (hd : decode w = .command i) (s : State) :
    execWord w s = exec i s := by
  simp only [execWord, hd]

theorem execWord_of_illegal {w : Command} {e : CmdError} (hd : decode w = .illegal e) (s : State) :
    execWord w s = .next (raiseCmdError e w s) := by
  simp only [execWord, hd]

/-- A command is ignored in the error state, whatever its operands and the phase are (R223, R226). -/
theorem exec_of_error (i : Instr) {s : State} (he : s.err.errcode ≠ none) : exec i s = .next s := by
  rw [exec_eq_command]
  obtain ⟨hsame, -⟩ | ⟨-, hnone, -⟩ := command_cases i (effect i) s
  · exact hsame
  · exact absurd hnone he

theorem execWord_of_error (w : Command) {s : State} (he : s.err.errcode ≠ none) : execWord w s = .next s := by
  cases hd : decode w with
  | command i => rw [execWord_of_command hd, exec_of_error i he]
  | illegal e => rw [execWord_of_illegal hd, raiseCmdError_of_error e w he]

theorem execWord_of_illegal_noError {w : Command} {e : CmdError} (hd : decode w = .illegal e) {s : State}
    (he : s.err.errcode = none) : execWord w s = .next { s with err := ⟨some e, w⟩ } := by
  rw [execWord_of_illegal hd, raiseCmdError_of_noError e w he]

/-- A command the phase table refuses is recorded by the word that presented it, which is the command's own word (R96);
unlike `PrimitiveProofs.exec_of_phaseTable_none` this asks nothing of the drivers and the sequencer. -/
theorem execWord_of_phaseTable_none {w : Command} {i : Instr} (hd : decode w = .command i) {s : State}
    (hb : s.drv.busy = false) (he : s.err.errcode = none) (hp : phaseTable i s.drv.phase = none) :
    execWord w s = .next { s with err := ⟨some .proto, w⟩ } := by
  obtain ⟨rfl, hwf⟩ := (EncodingProofs.decode_eq_command_iff w i).mp hd
  have hillegal : Instr.legalIn i s.drv.phase = false := by rw [legalIn_eq_isSome, hp]; rfl
  rw [execWord_of_command hd, exec_eq_command]
  simp [command, hb, State.errf, he, hwf, hillegal, raiseCmdError_of_noError]

/-! ## A step by what the host does (R21, R236) -/

theorem step_rst {s : State} (hr : s.rst = true) : step s = .next (hostReset s) := by
  simp [step, hr]

/-- With no reset, a block that runs a command only waits (R228). -/
theorem step_stuck {s : State} (hr : s.rst = false) (hb : s.drv.busy = true) : step s = .next s.spin := by
  simp [step, hr, hb]

theorem step_unpresented {s : State} (h : s.host.todo = []) (hb : s.drv.busy = false) : step s = .next s := by
  simp [step, State.rst, State.cmdWord, h, hb]

theorem retire_next {t : State} (hb : t.drv.busy = false) :
    retire (.next t) = .next { t with host := ⟨t.host.todo, t.host.cp + 1⟩ } := by
  simp [retire, State.advanceCp, hb]

/-- A word whose whole effect is on the error registers: the host is done with it, one command further (R105). -/
theorem step_word_of_execWord {s : State} {w : Command} {rest : List HostAction} {r : ErrorRegs}
    (h : s.host.todo = .command w :: rest) (hb : s.drv.busy = false)
    (hx : execWord w s.popAction = .next { s.popAction with err := r }) :
    step s = .next { s with err := r, host := ⟨rest, s.host.cp + 1⟩ } := by
  rw [step_word h hb, hx, retire_next (t := { s.popAction with err := r }) hb]
  simp [State.popAction, h]

/-- A word presented in the error state moves on nothing but the host (R226). -/
theorem step_word_of_error {s : State} {w : Command} {rest : List HostAction} (h : s.host.todo = .command w :: rest)
    (hb : s.drv.busy = false) (he : s.err.errcode ≠ none) :
    step s = .next { s with host := ⟨rest, s.host.cp + 1⟩ } :=
  step_word_of_execWord (r := s.err) h hb (execWord_of_error w (s := s.popAction) he)

/-- Without a reset the first error stays: the block is stuck, or nothing is presented, or a word is ignored (R227). -/
theorem step_keeps_error {s : State} (hr : s.rst = false) (he : s.err.errcode ≠ none) :
    ∃ t, step s = .next t ∧ t.err = s.err := by
  cases hb : s.drv.busy with
  | true => exact ⟨s.spin, step_stuck hr hb, spin_err s⟩
  | false =>
    match h : s.host.todo with
    | [] => exact ⟨s, step_unpresented h hb, rfl⟩
    | .command w :: rest => exact ⟨_, step_word_of_error h hb he, rfl⟩
    | .reset :: rest => simp [State.rst, h] at hr

/-! ## The obligations -/

/-- Settles O6: the accepted word changes the error registers alone, by the decoder's error or the phase table's. -/
theorem errorsAreRecordedPrecisely : Obligations.ErrorsAreRecordedPrecisely := by
  intro s w rest h hb he
  refine ⟨fun e hd => ?_, fun i hd hp => ?_⟩
  · exact step_word_of_execWord h hb (execWord_of_illegal_noError hd (s := s.popAction) he)
  · exact step_word_of_execWord h hb (execWord_of_phaseTable_none hd (s := s.popAction) hb he hp)

/-- Settles O7: readiness is `NOT BUSY`, and the error state ignores the word before any other check. -/
theorem errorStateIgnoresEveryWord : Obligations.ErrorStateIgnoresEveryWord := by
  intro s w rest h hb he
  exact ⟨by rw [State.cmdReady, hb]; rfl, step_word_of_error h hb he⟩

/-- Settles O8, by what the host does next: only a reset reaches the error registers. -/
theorem onlyResetClearsTheError : Obligations.OnlyResetClearsTheError := by
  intro s he
  refine ⟨fun ⟨_, _, hnone⟩ => he hnone, ?_⟩
  cases hr : s.rst with
  | true =>
    have hvalues : ResetValues (hostReset s) :=
      StateProofs.resetValues_of_sameBlock StateProofs.resetValues_reset (StateProofs.sameBlock_hostReset s)
    exact ⟨hostReset s, step_rst hr, fun _ => hvalues, nofun⟩
  | false =>
    obtain ⟨t, ht, herr⟩ := step_keeps_error hr he
    exact ⟨t, ht, nofun, fun _ => herr⟩

end Sys2Proof.ErrorProofs

/-! # Command words against the table of matches and masks (`30_encoding.md` R92, R95; `95_test_vectors.md` V1, V2) -/

namespace Sys2Proof.WordProofs
open Sys2Proof.Laws Sys2Proof.EncodingProofs

/-! ## A field of a word under a mask -/

/-- Where a mask is all ones in a field, the word has there what the masked word has. -/
theorem field_of_masked {w m v : Command} (h : w &&& m = v) (k n : Nat) {x : BitVec n}
    (hm : m.extractLsb' k n = BitVec.allOnes n) (hv : v.extractLsb' k n = x) : w.extractLsb' k n = x := by
  rw [← hv, ← h, BitVec.extractLsb'_and, hm, BitVec.and_allOnes]

/-- The rows with an operand ask for the opcode and for zeros in `z`; the argument is left to the row. -/
theorem commandWord_of_masked {w m : Command} {op : BitVec 4} {arg : BitVec 16} (h : w &&& m = commandWord op 0#16)
    (hop : m.extractLsb' 20 4 = 0xF#4) (hz : m.extractLsb' 16 4 = 0xF#4) (harg : argField w = arg) :
    commandWord op arg = w := by
  have ho : opField w = op := field_of_masked h 20 4 hop (opField_commandWord op 0#16)
  have hzero : zField w = 0#4 := field_of_masked h 16 4 hz (zField_commandWord op 0#16)
  exact commandWord_eq (congrArg BitVec.toNat ho) hzero harg

/-- Under a mask of ones the word is the match itself. -/
theorem eq_of_full_mask {w v : Command} (h : w &&& 0xFFFFFF#24 = v) : v = w := by
  rw [← h]
  exact BitVec.and_allOnes

theorem argLo_extractLsb' (w : Command) {k n : Nat} (hkn : k + n ≤ 8) :
    (argLo w).extractLsb' k n = w.extractLsb' k n := by
  ext i hi
  have hlt : k + i < 8 := by omega
  simp [argLo, hlt]

/-! ## The words of a row (R95) -/

/-- A word that shows a row's match under its mask is the word of that row's command with the operands it carries. -/
theorem exists_encode_of_masked {w : Command} {i : Instr} (h : w &&& i.maskWord = i.matchWord) :
    ∃ j : Instr, j.mnemonic = i.mnemonic ∧ encode j = w := by
  cases i with
  | start => exact ⟨.start, rfl, eq_of_full_mask h⟩
  | restart => exact ⟨.restart, rfl, eq_of_full_mask h⟩
  | recv => exact ⟨.recv, rfl, eq_of_full_mask h⟩
  | stop => exact ⟨.stop, rfl, eq_of_full_mask h⟩
  | config => exact ⟨.config, rfl, eq_of_full_mask h⟩
  | fclear => exact ⟨.fclear, rfl, eq_of_full_mask h⟩
  | freset => exact ⟨.freset, rfl, eq_of_full_mask h⟩
  | bread r c =>
    change w &&& 0xFF0000#24 = 0x900000#24 at h
    exact ⟨.bread (argHi w) (argLo w), rfl, commandWord_of_masked h (by decide) (by decide) (argField_eq_twoBytes w)⟩
  | fpush x =>
    change w &&& 0xFF0000#24 = 0xD00000#24 at h
    exact ⟨.fpush (argField w), rfl, commandWord_of_masked h (by decide) (by decide) rfl⟩
  | send b =>
    change w &&& 0xFFFF00#24 = 0x300000#24 at h
    have hhi : argHi w = 0#8 := field_of_masked h 8 8 (by decide) (by decide)
    exact ⟨.send (argLo w), rfl, commandWord_of_masked h (by decide) (by decide) (argField_eq_byte hhi)⟩
  | mack v =>
    change w &&& 0xFFFFFE#24 = 0x500000#24 at h
    have hhi : argHi w = 0#8 := field_of_masked h 8 8 (by decide) (by decide)
    have hlo : (argLo w).extractLsb' 1 7 = 0#7 := by
      rw [argLo_extractLsb' w (by decide)]
      exact field_of_masked h 1 7 (by decide) (by decide)
    exact ⟨.mack ((argLo w).getLsbD 0), rfl,
      commandWord_of_masked h (by decide) (by decide) ((argField_eq_byte hhi).trans (byteArg_eq_level _ hlo))⟩
  | fpushc k =>
    change w &&& 0xFFFFF8#24 = 0xE00000#24 at h
    have hhi : argHi w = 0#8 := field_of_masked h 8 8 (by decide) (by decide)
    have hlo : (argLo w).extractLsb' 3 5 = 0#5 := by
      rw [argLo_extractLsb' w (by decide)]
      exact field_of_masked h 3 5 (by decide) (by decide)
    exact ⟨.fpushc ((argLo w).extractLsb' 0 3), rfl,
      commandWord_of_masked h (by decide) (by decide) ((argField_eq_byte hhi).trans (byteArg_eq_channel _ hlo))⟩

/-- The word of every command shows its row's match under its row's mask. -/
theorem encode_masked (i : Instr) : encode i &&& i.maskWord = i.matchWord := by
  cases i with
  | start => exact MatchMask.start
  | restart => exact MatchMask.restart
  | send b => exact MatchMask.send b
  | recv => exact MatchMask.recv
  | mack v => exact MatchMask.mack v
  | stop => exact MatchMask.stop
  | config => exact MatchMask.config
  | bread r c => exact MatchMask.bread r c
  | fclear => exact MatchMask.fclear
  | freset => exact MatchMask.freset
  | fpush x => exact MatchMask.fpush x
  | fpushc k => exact MatchMask.fpushc k

/-- A mnemonic names one row: the operands change neither its mask nor its match, and two rows have two mnemonics. -/
theorem row_of_mnemonic {i j : Instr} (h : j.mnemonic = i.mnemonic) :
    j.maskWord = i.maskWord ∧ j.matchWord = i.matchWord := by
  cases i <;> cases j <;> simp [Instr.mnemonic] at h <;> exact ⟨rfl, rfl⟩

/-! ## The obligations -/

/-- Settles O1: the decoder finds every operand back, so that only the operand ranges are left to check. -/
theorem decodeOfEncodeIsTheCommand : Obligations.DecodeOfEncodeIsTheCommand :=
  fun i hwf => (decode_eq_command_iff (encode i) i).mpr ⟨rfl, hwf⟩

/-- Settles O3: a row's words by the operands they carry, and back by the table of R95. -/
theorem matchAndMaskSelectTheCommand : Obligations.MatchAndMaskSelectTheCommand := by
  refine fun w i => ⟨exists_encode_of_masked, ?_⟩
  rintro ⟨j, hrow, rfl⟩
  obtain ⟨hmask, hmatch⟩ := row_of_mnemonic hrow
  rw [← hmask, ← hmatch, encode_masked]

/-- Settles O4: the decoder run on each of the written words. -/
theorem wordsOfTheSpecDecode : Obligations.WordsOfTheSpecDecode := by
  unfold Obligations.WordsOfTheSpecDecode
  decide

end Sys2Proof.WordProofs

/-! # The bus commands as primitives (`40_i2c_primitives.md` R124 to R129, `41_imu_protocol.md` R160, R169) -/

namespace Sys2Proof.BusProofs
open Sys2Proof.Machine Sys2Proof.Safety Sys2Proof.Laws Sys2Proof.PrimitiveProofs

/-! ## A primitive's run and its closed form, uniformly over the primitives -/

/-- What a bus command does between its acceptance and its completion. -/
def busRun : Instr → State → Run Unit
  | .start => doStart
  | .restart => doRestart
  | .send b => doSend b
  | .recv => doRecv
  | .mack v => doMack v
  | .stop => doStop
  | .config => fun s => runSeq seqFuel (latchConfig s)
  | .bread r c => fun s => runSeq seqFuel (latchBread r c s)
  | .fclear | .freset | .fpush _ | .fpushc _ => .done ()

theorem effect_eq_busCommand {i : Instr} (h : isFilter i = false) : effect i = busCommand (busRun i) := by
  cases i with
  | fclear | freset | fpush x | fpushc k => cases h
  | start | restart | send b | recv | mack v | stop | config | bread r c => rfl

theorem isFilter_of_isPrimitive {i : Instr} (h : isPrimitive i = true) : isFilter i = false := by
  cases i with
  | start | restart | send b | recv | mack v | stop => rfl
  | config | bread r c | fclear | freset | fpush x | fpushc k => cases h

/-- The closed form of a completed primitive. -/
def primitiveDone : Instr → State → State
  | .start => startDone
  | .restart => restartDone
  | .send b => sendDone b
  | .recv => recvDone
  | .mack v => mackDone v
  | .stop => stopDone
  | .config | .bread _ _ | .fclear | .freset | .fpush _ | .fpushc _ => id

/-- The wires are as R136 says for the phase, as they are between commands and between the primitives of a composite
command. -/
structure WiresOfPhase (s : State) : Prop where
  scl : s.drv.sclO = sclOf s.drv.phase
  sda : s.drv.sdaO = sdaOf s.drv.phase

theorem wiresOfPhase_of_seqInv {s : State} (h : SeqInv s) : WiresOfPhase s := ⟨h.scl, h.sda⟩

/-- A legal primitive: its closed form, its waits, and that it hangs only within its wire operation. -/
theorem busRun_primitive_spec {i : Instr} {s : State} {q : Phase} (hp : isPrimitive i = true)
    (hl : phaseTable i s.drv.phase = some q) (hs : WiresOfPhase s) :
    Spec (waitsOf i) s (busRun i s) () (primitiveDone i s) (WireOnly s) := by
  cases i with
  | start =>
    obtain ⟨hidle, -⟩ := phaseTable_start_eq_some.mp hl
    exact doStart_spec s (by rw [hs.scl, hidle]; rfl) (by rw [hs.sda, hidle]; rfl)
  | restart => exact doRestart_spec s
  | send b => exact doSend_spec b s
  | recv => exact doRecv_spec s
  | mack v => exact doMack_spec v s
  | stop => exact doStop_spec s
  | config | bread r c | fclear | freset | fpush x | fpushc k => cases hp

/-! ## What a completed primitive does outside the sequencer and the receive buffer -/

/-- `t` is `s` after the legal primitive `i`, its event recorded in every register that records it: the phase is the
table's, the wires are those of the phase (R136), the peer has seen the event, the waits are spent. -/
structure Performs (i : Instr) (s t : State) : Prop where
  phase : phaseTable i s.drv.phase = some t.drv.phase
  drv : t.drv = { s.drv with phase := t.drv.phase, sclO := sclOf t.drv.phase, sdaO := sdaOf t.drv.phase,
                             ackstat := (sentLevels (primitiveEvent s i)).getLastD s.drv.ackstat,
                             nakcnt := (sentLevels (primitiveEvent s i)).foldl nakCount s.drv.nakcnt,
                             rdata := (receivedBytes (primitiveEvent s i)).getLastD s.drv.rdata }
  trace : t.trace = s.trace ++ primitiveEvent s i
  env : t.env = ⟨waitsAfter (waitsOf i) s.env.waits, (primitiveEvent s i).foldl BusPeer.observe s.env.peer⟩
  choice : t.choice = s.choice + waitsOf i + 1
  err : t.err = s.err
  fb : t.fb = s.fb
  host : t.host = s.host

theorem performs_primitiveDone {i : Instr} {s : State} {q : Phase} (hp : isPrimitive i = true)
    (hl : phaseTable i s.drv.phase = some q) : Performs i s (primitiveDone i s) := by
  cases i with
  | start => exact ⟨phaseTable_start_eq_some.mpr ⟨(phaseTable_start_eq_some.mp hl).1, rfl⟩, rfl, rfl, rfl, rfl, rfl, rfl, rfl⟩
  | restart =>
    exact ⟨phaseTable_restart_eq_some.mpr ⟨(phaseTable_restart_eq_some.mp hl).1, rfl⟩, rfl, rfl, rfl, rfl, rfl, rfl, rfl⟩
  | send b =>
    obtain ⟨hscl, hsda⟩ := drivers_phaseAfterSend s.drv.phase b
    refine ⟨phaseTable_send_eq_some.mpr ⟨(phaseTable_send_eq_some.mp hl).1, rfl⟩, ?_, rfl, rfl, rfl, rfl, rfl, rfl⟩
    simp [primitiveDone, sendDone, primDone, primitiveEvent, sentLevels, receivedBytes, hscl, hsda]
  | recv => exact ⟨phaseTable_recv_eq_some.mpr ⟨(phaseTable_recv_eq_some.mp hl).1, rfl⟩, rfl, rfl, rfl, rfl, rfl, rfl, rfl⟩
  | mack v =>
    refine ⟨phaseTable_mack_eq_some.mpr ⟨(phaseTable_mack_eq_some.mp hl).1, rfl⟩, ?_, rfl, rfl, rfl, rfl, rfl, rfl⟩
    cases v <;> rfl
  | stop => exact ⟨phaseTable_stop_eq_some.mpr ⟨(phaseTable_stop_eq_some.mp hl).1, rfl⟩, rfl, rfl, rfl, rfl, rfl, rfl, rfl⟩
  | config | bread r c | fclear | freset | fpush x | fpushc k => cases hp

theorem Performs.wiresOfPhase {i : Instr} {s t : State} (h : Performs i s t) : WiresOfPhase t :=
  ⟨by rw [h.drv], by rw [h.drv]⟩

/-- Its driver registers, the table's phase written out. -/
theorem Performs.drv_of_phaseTable {i : Instr} {s t : State} {q : Phase} (h : Performs i s t)
    (hl : phaseTable i s.drv.phase = some q) :
    t.drv = { s.drv with phase := q, sclO := sclOf q, sdaO := sdaOf q,
                         ackstat := (sentLevels (primitiveEvent s i)).getLastD s.drv.ackstat,
                         nakcnt := (sentLevels (primitiveEvent s i)).foldl nakCount s.drv.nakcnt,
                         rdata := (receivedBytes (primitiveEvent s i)).getLastD s.drv.rdata } := by
  rw [h.drv, Option.some.inj (h.phase.symm.trans hl)]

theorem Performs.peer {i : Instr} {s t : State} (h : Performs i s t) :
    t.env.peer = (primitiveEvent s i).foldl BusPeer.observe s.env.peer := by rw [h.env]

/-! ## START and STOP in the trace (R139) -/

theorem openAfter_append (o : Bool) (es fs : List BusEvent) :
    openAfter o (es ++ fs) = (openAfter o es).bind fun o' => openAfter o' fs := by
  induction es generalizing o with
  | nil => rfl
  | cons e es ih => cases e <;> cases o <;> simp [openAfter, ih]

/-- A legal primitive's event leaves a transaction open exactly when the table's phase is not `IDLE`. -/
theorem openAfter_primitiveEvent {i : Instr} {p q : Phase} (s : State) (hp : isPrimitive i = true)
    (hl : phaseTable i p = some q) : openAfter (p != .idle) (primitiveEvent s i) = some (q != .idle) := by
  cases i with
  | start => obtain ⟨rfl, rfl⟩ := phaseTable_start_eq_some.mp hl; rfl
  | restart => obtain ⟨rfl | rfl, rfl⟩ := phaseTable_restart_eq_some.mp hl <;> rfl
  | send b =>
    obtain ⟨rfl | rfl, rfl⟩ := phaseTable_send_eq_some.mp hl
    · unfold phaseAfterSend
      cases b.getLsbD 0 <;> rfl
    · rfl
  | recv => obtain ⟨rfl, rfl⟩ := phaseTable_recv_eq_some.mp hl; rfl
  | mack v => obtain ⟨rfl, rfl⟩ := phaseTable_mack_eq_some.mp hl; cases v <;> rfl
  | stop => obtain ⟨rfl | rfl, rfl⟩ := phaseTable_stop_eq_some.mp hl <;> rfl
  | config | bread r c | fclear | freset | fpush x | fpushc k => cases hp

theorem Performs.paired {i : Instr} {s t : State} (h : Performs i s t) (hp : isPrimitive i = true) (hs : Paired s) :
    Paired t := by
  unfold Paired at *
  rw [h.trace, openAfter_append, hs]
  exact openAfter_primitiveEvent s hp h.phase

/-! ## The sequencer's states as primitives (R160, R169) -/

/-- Alike but for the sequencer's registers and the receive buffer. -/
structure SameOutside (s t : State) : Prop where
  drv : t.drv = s.drv
  err : t.err = s.err
  fb : t.fb = s.fb
  trace : t.trace = s.trace
  env : t.env = s.env
  host : t.host = s.host
  wave : t.wave = s.wave
  choice : t.choice = s.choice

theorem Performs.sameOutside {i : Instr} {s t u : State} (h : Performs i s t) (hu : SameOutside t u) : Performs i s u where
  phase := by rw [hu.drv, h.phase]
  drv := by rw [hu.drv]; exact h.drv
  trace := hu.trace.trans h.trace
  env := hu.env.trans h.env
  choice := hu.choice.trans h.choice
  err := hu.err.trans h.err
  fb := hu.fb.trans h.fb
  host := hu.host.trans h.host

/-- The primitive the sequencer performs in its state; in `S_IDLE` it performs none. -/
def seqPrimitive (s : State) : Instr :=
  match s.sq.seq with
  | .idle | .start | .cstart => .start
  | .addrW | .caddr => .send imuWrite
  | .reg | .creg => .send s.sq.regptr
  | .restart => .restart
  | .addrR => .send imuRead
  | .recv => .recv
  | .mack => .mack (s.sq.remain == 0)
  | .stop | .cstop => .stop
  | .cval => .send (cfgVal s.sq.cfgidx)

theorem seqPrimitive_isPrimitive (s : State) : isPrimitive (seqPrimitive s) = true := by
  unfold seqPrimitive
  cases s.sq.seq <;> rfl

theorem nextWrite_sameOutside (s : State) : SameOutside s (nextWrite s) :=
  ⟨nextWrite_drv s, nextWrite_err s, nextWrite_fb s, nextWrite_trace s, nextWrite_env s, nextWrite_host s,
    nextWrite_wave s, nextWrite_choice s⟩

/-- A state of the sequencer is its primitive and then a move that stays inside the sequencer and the receive buffer. -/
theorem seqAfter_sameOutside {s : State} (hq : s.sq.seq ≠ .idle) :
    SameOutside (primitiveDone (seqPrimitive s) s) (seqAfter s) := by
  unfold seqPrimitive seqAfter
  cases hs : s.sq.seq with
  | idle => exact absurd hs hq
  | cstop => exact nextWrite_sameOutside (stopDone s)
  | start | addrW | reg | restart | addrR | recv | mack | stop | cstart | caddr | creg | cval =>
    exact ⟨rfl, rfl, rfl, rfl, rfl, rfl, rfl, rfl⟩

/-- In every phase the sequencer enters a state in, the state's primitive is legal (R160). -/
theorem seqPrimitive_legal {s : State} (h : SeqInv s) (hq : s.sq.seq ≠ .idle) :
    ∃ q, phaseTable (seqPrimitive s) s.drv.phase = some q := by
  rw [← Option.isSome_iff_exists, h.phase]
  unfold seqPrimitive
  cases hs : s.sq.seq with
  | idle => exact absurd hs hq
  | start | addrW | reg | restart | addrR | recv | mack | stop | cstart | caddr | creg | cval | cstop => rfl

theorem performs_seqAfter {s : State} (h : SeqInv s) (hq : s.sq.seq ≠ .idle) :
    Performs (seqPrimitive s) s (seqAfter s) := by
  obtain ⟨q, hl⟩ := seqPrimitive_legal h hq
  exact (performs_primitiveDone (seqPrimitive_isPrimitive s) hl).sameOutside (seqAfter_sameOutside hq)

theorem head?_seqPrims {s : State} (h : SeqInv s) (hq : s.sq.seq ≠ .idle) :
    (seqPrims s).head? = some (seqPrimitive s) := by
  unfold seqPrims seqPrimitive
  cases hs : s.sq.seq with
  | idle => exact absurd hs hq
  | recv =>
    have hpos : 0 < s.sq.remain.toNat := h.wants (by rw [hs]; rfl)
    obtain ⟨n, hn⟩ := Nat.exists_eq_add_of_lt hpos
    simp [hn, burstPrimitives_succ]
  | start | addrW | reg | restart | addrR | mack | stop | cstart | caddr | creg | cval | cstop => rfl

/-- The sequencer performs the primitives still to come one state each. -/
theorem seqPrims_eq_cons {s : State} (h : SeqInv s) (hq : s.sq.seq ≠ .idle) :
    seqPrims s = seqPrimitive s :: seqPrims (seqAfter s) := by
  obtain ⟨i, hi, -, -⟩ := seqAfter_recorded s h hq
  have hhead := head?_seqPrims h hq
  rw [hi] at hhead ⊢
  rw [Option.some.inj hhead]

/-- What every state of the sequencer keeps, the sequencer keeps. -/
theorem seqEnd_induction {P : State → Prop}
    (hstep : ∀ s, SeqInv s → s.sq.seq ≠ .idle → P s → P (seqAfter s)) (n : Nat) {s : State} (h : SeqInv s) (hs : P s) :
    P (seqEnd n s) := by
  induction n generalizing s with
  | zero => exact hs
  | succ n ih =>
    rw [seqEnd]
    by_cases hq : s.sq.seq = .idle
    · rwa [if_pos hq]
    · rw [if_neg hq]
      exact ih (seqAfter_inv s h) (hstep s h hq hs)

/-! ## A composite command at its beginning -/

/-- The row `S_IDLE` of R169 for a composite command. -/
def latched : Instr → State → State
  | .config => latchConfig
  | .bread r c => latchBread r c
  | .start | .restart | .send _ | .recv | .mack _ | .stop | .fclear | .freset | .fpush _ | .fpushc _ => id

/-- The sequencer as a composite command starts it. -/
structure Latched (i : Instr) (s u : State) : Prop where
  inv : SeqInv u
  idleRegs : SeqIdleRegs u
  prims : seqPrims u = primitivesOf i
  waits : seqWaitsLeft u = waitsOf i
  fuel : seqStates u ≤ seqFuel
  run : busRun i (beginBus s) = runSeq seqFuel u
  outside : SameOutside (beginBus s) u
  rx : u.rx = { s.rx with rxcnt := if i = .config then s.rx.rxcnt else 0 }

theorem countLegal_iff {r c : Byte} : (Instr.bread r c).wellFormed = true ↔ 1 ≤ c.toNat ∧ c.toNat ≤ 14 := by
  simp [Instr.wellFormed, countLegal]

theorem latched_begin {i : Instr} {s : State} (hb : Boundary s) (hidle : s.drv.phase = .idle)
    (hw : i.wellFormed = true) (hp : isPrimitive i = false) (hf : isFilter i = false) :
    Latched i s (latched i (beginBus s)) := by
  cases i with
  | config =>
    obtain ⟨hi, hz, hstates, hwaits⟩ := latchConfig_begin s hb hidle
    exact ⟨hi, hz, seqPrims_latchConfig _, hwaits, by rw [latched, hstates]; decide, rfl,
      ⟨rfl, rfl, rfl, rfl, rfl, rfl, rfl, rfl⟩, rfl⟩
  | bread r c =>
    obtain ⟨hlow, hhigh⟩ := countLegal_iff.mp hw
    obtain ⟨hi, hz, hstates, hwaits⟩ := latchBread_begin r c s hb hidle hlow hhigh
    refine ⟨hi, hz, seqPrims_latchBread r c _ hhigh, ?_, ?_, rfl, ⟨rfl, rfl, rfl, rfl, rfl, rfl, rfl, rfl⟩, rfl⟩
    · rw [latched, hwaits, waitsOf]; omega
    · rw [latched, hstates, seqFuel]; omega
  | start | restart | send b | recv | mack v | stop => cases hp
  | fclear | freset | fpush x | fpushc k => cases hf

theorem Latched.spec {i : Instr} {s u : State} (h : Latched i s u) :
    Spec (waitsOf i) (beginBus s) (busRun i (beginBus s)) () (seqEnd seqFuel u) (SeqHang u) := by
  rw [h.run, ← h.waits]
  exact Spec.before (runSeq_spec seqFuel u h.inv h.fuel) (by rw [h.outside.env])

/-- What the sequencer has kept since its command was accepted. -/
theorem Latched.keeps {i : Instr} {s u : State} (h : Latched i s u) (n : Nat) : SeqKeeps (beginBus s) (seqEnd n u) :=
  SeqKeeps.trans ⟨by rw [h.outside.drv], h.outside.err, h.outside.fb, h.outside.host, [],
    by rw [h.outside.trace, List.append_nil], by rw [h.outside.env]; rfl⟩ (seqEnd_keeps n u)

theorem Latched.rxcnt_le {i : Instr} {s u : State} (h : Latched i s u) (hs : s.rx.rxcnt.toNat ≤ 14) (n : Nat) :
    (seqEnd n u).rx.rxcnt.toNat ≤ 14 := by
  refine seqEnd_rxcnt n u h.inv ?_
  rw [h.rx]
  by_cases hi : i = .config
  · rwa [if_pos hi]
  · rw [if_neg hi]; exact Nat.zero_le _

/-! ## What a bus command can do from a command boundary, in every environment (R15, R228) -/

/-- A completed primitive, as the block leaves it. -/
def completed (i : Instr) (s : State) : State := endBus (primitiveDone i (beginBus s))

/-- A primitive is complete in its closed form, or stuck within its wire operation. -/
theorem primitive_cases {i : Instr} {s : State} {q : Phase} (hb : Boundary s) (hp : isPrimitive i = true)
    (hl : phaseTable i s.drv.phase = some q) :
    (effect i s = completed i s ∧ ∀ k, s.env.waits = .stall k → waitsOf i ≤ k) ∨
      WireOnly (beginBus s) (effect i s) := by
  rw [effect_eq_busCommand (isFilter_of_isPrimitive hp)]
  exact busCommand_cases (busRun_primitive_spec (s := beginBus s) hp hl ⟨hb.scl, hb.sda⟩)

theorem primitive_granted {i : Instr} {s : State} {q : Phase} (hb : Boundary s) (hp : isPrimitive i = true)
    (hl : phaseTable i s.drv.phase = some q) (g : Grants (waitsOf i) s) :
    effect i s = completed i s := by
  rw [effect_eq_busCommand (isFilter_of_isPrimitive hp)]
  exact busCommand_granted (busRun_primitive_spec (s := beginBus s) hp hl ⟨hb.scl, hb.sda⟩) g

/-- A composite command is complete where the sequencer ends, or stuck within a primitive of a state it has entered. -/
theorem Latched.cases {i : Instr} {s u : State} (h : Latched i s u) (hf : isFilter i = false) :
    (effect i s = endBus (seqEnd seqFuel u) ∧ ∀ k, s.env.waits = .stall k → waitsOf i ≤ k) ∨
      SeqHang u (effect i s) := by
  rw [effect_eq_busCommand hf]
  exact busCommand_cases h.spec

theorem Latched.granted {i : Instr} {s u : State} (h : Latched i s u) (hf : isFilter i = false)
    (g : Grants (waitsOf i) s) : effect i s = endBus (seqEnd seqFuel u) := by
  rw [effect_eq_busCommand hf]
  exact busCommand_granted h.spec g

theorem primitiveEvent_beginBus (i : Instr) (s : State) : primitiveEvent (beginBus s) i = primitiveEvent s i :=
  SameBus.event ⟨rfl, rfl, rfl⟩ i

theorem primitiveDone_rx (i : Instr) (s : State) : (primitiveDone i s).rx = s.rx := by
  cases i <;> rfl

/-- Of the sequencer's registers a primitive leaves only the shift register changed, where the bit counter was clear. -/
theorem primitiveDone_sq (i : Instr) {s : State} (hs : s.sq.bitcnt = 0) :
    ∃ shreg, (primitiveDone i s).sq = { s.sq with shreg := shreg } := by
  have hclear : { s.sq with bitcnt := 0 } = s.sq := by rw [← hs]
  cases i with
  | send b => exact ⟨0, by rw [← hclear]; rfl⟩
  | recv => exact ⟨s.rxByte, by rw [← hclear]; rfl⟩
  | start | restart | mack v | stop | config | bread r c | fclear | freset | fpush x | fpushc k => exact ⟨_, rfl⟩

theorem completed_sq (i : Instr) {s : State} (hb : Boundary s) : (completed i s).sq = s.sq := by
  obtain ⟨shreg, hsq⟩ := primitiveDone_sq i (s := beginBus s) (by rw [beginBus_sq, hb.sqIdle]; rfl)
  rw [completed, endBus_sq, hsq, beginBus_sq, hb.sqIdle]
  rfl

section Completed
variable {i : Instr} {s : State} {q : Phase} (hb : Boundary s) (hp : isPrimitive i = true)
  (hl : phaseTable i s.drv.phase = some q)
include hb hp hl

theorem performs_completed : Performs i s (completed i s) := by
  obtain ⟨hphase, hdrv, htrace, henv, hchoice, herr, hfb, hhost⟩ := performs_primitiveDone (s := beginBus s) hp hl
  rw [primitiveEvent_beginBus] at hdrv htrace henv
  refine ⟨hphase, ?_, htrace, henv, hchoice, herr, hfb, hhost⟩
  rw [completed, endBus_drv, hdrv, beginBus_drv, ← hb.notBusy]

theorem completed_boundary : Boundary (completed i s) := by
  have hperf := performs_completed hb hp hl
  exact ⟨rfl, hperf.wiresOfPhase.scl, hperf.wiresOfPhase.sda, (completed_sq i hb).trans hb.sqIdle⟩

theorem completed_frame : BusFrame s (completed i s) := by
  have hperf := performs_completed hb hp hl
  exact ⟨primitiveDone_rx i (beginBus s), hperf.err, completed_sq i hb, hperf.fb, hperf.host,
    completed_boundary hb hp hl⟩

end Completed

end Sys2Proof.BusProofs

/-! # The capture window and the invariant of the filter bank (`42_filter_bank.md` section 2, `10_state.md` R45) -/

namespace Sys2Proof.WindowProofs
open Sys2Proof.Machine Sys2Proof.Safety Sys2Proof.Laws Sys2Proof.FilterProofs

/-! ## The captured samples as integers -/

theorem rawAt_bounds (f : FilterBank) (i : Nat) : -32768 ≤ rawAt f i ∧ rawAt f i < 32768 := sample_bounds _

theorem rawSum_bounds (f : FilterBank) (n : Nat) : -32768 * (n : Int) ≤ rawSum f n ∧ rawSum f n ≤ 32767 * (n : Int) := by
  induction n with
  | zero => simp [rawSum]
  | succ n ih =>
    have hat := rawAt_bounds f n
    rw [rawSum]
    omega

theorem rawSum_congr {f g : FilterBank} {n : Nat} (h : ∀ i, i < n → rawAt g i = rawAt f i) :
    rawSum g n = rawSum f n := by
  induction n with
  | zero => rfl
  | succ n ih => rw [rawSum, rawSum, ih fun i hi => h i (by omega), h n (by omega)]

theorem rawAt_eq {f : FilterBank} {i : Nat} (h : i < 100) : rawAt f i = f.capRaw[i].toInt := by
  simp [rawAt, h]

/-! ## A push and the samples captured before it (R36, R197) -/

section Push
variable {x : Sample} {f g : FilterBank} (hp : Pushed x f g) (hidx : f.idx.toNat ≤ 99)
include hp hidx

theorem rawAt_pushed_idx : rawAt g f.idx.toNat = x.toInt := by
  rw [rawAt_eq (by omega), hp.capRaw _ (by omega), if_pos rfl, hp.xout]

theorem rawAt_pushed_lt {i : Nat} (hi : i < f.idx.toNat) : rawAt g i = rawAt f i := by
  rw [rawAt_eq (by omega), hp.capRaw _ (by omega), if_neg (by omega), rawAt_eq (by omega)]

theorem rawSum_pushed : rawSum g (f.idx.toNat + 1) = rawSum f f.idx.toNat + x.toInt := by
  rw [rawSum, rawAt_pushed_idx hp hidx, rawSum_congr fun i hi => rawAt_pushed_lt hp hidx hi]

variable (hopen : g.idx.toNat = f.idx.toNat + 1)
include hopen

theorem rawBack_pushed_one : rawBack g 1 = x.toInt := by
  rw [rawBack, hopen, if_pos (by omega), Nat.add_sub_cancel, rawAt_pushed_idx hp hidx]

theorem rawBack_pushed_succ {j : Nat} (hj : 1 ≤ j) : rawBack g (j + 1) = rawBack f j := by
  unfold rawBack
  by_cases h : j ≤ f.idx.toNat
  · rw [if_pos (by omega), if_pos h, hopen, Nat.add_sub_add_right, rawAt_pushed_lt hp hidx (by omega)]
  · rw [if_neg (by omega), if_neg h]

end Push

/-! ## The filter bank's part of the invariant (R45) -/

theorem filterInv_reset : FilterInv FilterBank.reset where
  idxRange := by decide
  mafdRange := by decide
  noOutput _ := ⟨rfl, rfl, rfl, rfl, rfl⟩
  sumIsSum := nofun
  hist1 := nofun
  hist2 := nofun
  hist3 := nofun
  hist4 := nofun
  hist5 := nofun

theorem filterInv_freshBank : FilterInv freshBank where
  idxRange := by decide
  mafdRange := by decide
  noOutput _ := ⟨rfl, rfl, rfl, rfl, rfl⟩
  sumIsSum _ := rfl
  hist1 _ := rfl
  hist2 _ := rfl
  hist3 _ := rfl
  hist4 _ := rfl
  hist5 _ := rfl

/-- In a bank that meets the invariant the running sum of a window has room for one more sample (R202). -/
theorem pushed_of_filterInv {f : FilterBank} (h : FilterInv f) (ha : f.armed = true) (x : Sample) :
    Pushed x f (f.armedPush x) := by
  have hsum := rawSum_bounds f f.idx.toNat
  have hx := sample_bounds x
  have hidx := h.idxRange
  rw [← h.sumIsSum ha] at hsum
  exact pushed_armedPush hidx (by omega) (by omega)

/-- An armed push keeps the invariant: the window grows by the sample, or closes after its last slot. -/
theorem filterInv_armedPush {f : FilterBank} (h : FilterInv f) (ha : f.armed = true) (x : Sample) :
    FilterInv (f.armedPush x) := by
  have hp := pushed_of_filterInv h ha x
  have hidx := h.idxRange
  have hopen (hg : (f.armedPush x).armed = true) : (f.armedPush x).idx.toNat = f.idx.toNat + 1 := by
    rw [hp.armed, decide_eq_true_eq] at hg
    rw [hp.idx, if_neg hg]
  exact
    { idxRange := by rw [hp.idx]; split <;> omega
      mafdRange := by rw [hp.mafd]; omega
      noOutput := fun hv => by rw [hp.ovalid] at hv; cases hv
      sumIsSum := fun hg => by rw [hopen hg, rawSum_pushed hp hidx, hp.sum, h.sumIsSum ha]
      hist1 := fun hg => by rw [hp.hist1, rawBack_pushed_one hp hidx (hopen hg)]
      hist2 := fun hg => by rw [hp.hist2, h.hist1 ha, rawBack_pushed_succ hp hidx (hopen hg) (by decide)]
      hist3 := fun hg => by rw [hp.hist3, h.hist2 ha, rawBack_pushed_succ hp hidx (hopen hg) (by decide)]
      hist4 := fun hg => by rw [hp.hist4, h.hist3 ha, rawBack_pushed_succ hp hidx (hopen hg) (by decide)]
      hist5 := fun hg => by rw [hp.hist5, h.hist4 ha, rawBack_pushed_succ hp hidx (hopen hg) (by decide)] }

theorem filterInv_push {f : FilterBank} (h : FilterInv f) (x : Sample) : FilterInv (f.push x) := by
  cases ha : f.armed with
  | true => rw [push_of_armed x ha]; exact filterInv_armedPush h ha x
  | false => rw [push_of_disarmed x ha]; exact h

/-! ## The capture arrays of a window (R38, R197) -/

/-- 10000 times the FIR output of these samples (R193). -/
def firNumerator (xs : List Sample) : Int :=
  264 * sampleBack xs 0 + 1405 * sampleBack xs 1 + 3331 * sampleBack xs 2 + 3331 * sampleBack xs 3
    + 1405 * sampleBack xs 4 + 264 * sampleBack xs 5

/-- 10 times the IIR output of these samples (R194). -/
def iirNumerator (xs : List Sample) : Int := 9 * sampleBack xs 1 + sampleBack xs 0

/-- The capture arrays after FRESET and the pushes of `xs`: every slot filled so far holds the numerators of the samples
up to its own, the other slots hold no sample. -/
structure WindowCaptures (xs : List Sample) (f : FilterBank) : Prop where
  raw : ∀ i (h : i < 100), f.capRaw[i] = xs.getD i 0
  mafn : ∀ i (h : i < 100), i < xs.length → f.capMafn[i].toInt = sampleSum (xs.take (i + 1))
  firq : ∀ i (h : i < 100), i < xs.length → f.capFirq[i].toInt = firNumerator (xs.take (i + 1))
  iirq : ∀ i (h : i < 100), i < xs.length → f.capIirq[i].toInt = iirNumerator (xs.take (i + 1))

theorem windowCaptures_fresh : WindowCaptures [] freshBank where
  raw _ h := Vector.getElem_replicate h
  mafn _ _ hi := absurd hi (Nat.not_lt_zero _)
  firq _ _ hi := absurd hi (Nat.not_lt_zero _)
  iirq _ _ hi := absurd hi (Nat.not_lt_zero _)

/-- A capture array of outputs after one more push: the slot of the new sample holds the output register, which is the
output of all the samples; the slots before it are as they were. -/
theorem captured_concat {xs : List Sample} {x : Sample} {v w : Vector Acc 100} {out : Acc} {φ : List Sample → Int}
    (hold : ∀ i (h : i < 100), i < xs.length → v[i].toInt = φ (xs.take (i + 1)))
    (hw : ∀ i (h : i < 100), w[i] = if i = xs.length then out else v[i]) (hout : out.toInt = φ (xs ++ [x])) (i : Nat)
    (h : i < 100) (hi : i < (xs ++ [x]).length) : w[i].toInt = φ ((xs ++ [x]).take (i + 1)) := by
  rw [List.length_append, List.length_singleton] at hi
  rw [hw i h]
  by_cases hlast : i = xs.length
  · rw [if_pos hlast, hout, List.take_of_length_le (by simp [hlast])]
  · rw [if_neg hlast, hold i h (by omega), List.take_append_of_le_length (by omega)]

theorem WindowCaptures.push {xs : List Sample} {f : FilterBank} (hc : WindowCaptures xs f) (hb : WindowBank xs f)
    (hlen : xs.length < 100) (x : Sample) : WindowCaptures (xs ++ [x]) (f.push x) := by
  have hp := hb.pushed hlen x
  have hout := hb.push hlen x
  have hidx : f.idx.toNat = xs.length := by rw [hb.idx, if_pos hlen]
  refine ⟨fun i h => ?_, captured_concat hc.mafn (by simpa only [hidx] using hp.capMafn) hout.mafn,
    captured_concat hc.firq (by simpa only [hidx] using hp.capFirq) hout.firq,
    captured_concat hc.iirq (by simpa only [hidx] using hp.capIirq) hout.iirq⟩
  rw [hp.capRaw i h, hc.raw i h, hidx, hp.xout]
  by_cases hlast : i = xs.length
  · simp [hlast]
  · by_cases hlt : i < xs.length
    · rw [if_neg hlast, List.getD_append _ _ _ _ hlt]
    · rw [if_neg hlast, List.getD_eq_default _ _ (by omega), List.getD_eq_default _ _ (by simp; omega)]

theorem windowCaptures_pushAll (xs : List Sample) (hlen : xs.length ≤ 100) :
    WindowCaptures xs (pushAll xs freshBank) := by
  induction xs using List.reverseRecOn with
  | nil => exact windowCaptures_fresh
  | append_singleton xs x ih =>
    rw [List.length_append, List.length_singleton] at hlen
    rw [pushAll_concat]
    exact (ih (by omega)).push (windowBank_pushAll xs (by omega)) (by omega) x

theorem pushAll_of_disarmed (ys : List Sample) {f : FilterBank} (h : f.armed = false) : pushAll ys f = f := by
  induction ys with
  | nil => rfl
  | cons y ys ih => rwa [pushAll, List.foldl_cons, push_of_disarmed y h]

/-! ## The outputs as rationals (R191, R203) -/

theorem WindowBank.fir_eq {xs : List Sample} {f : FilterBank} (h : WindowBank xs f) :
    f.fir = 0.0264 * (sampleBack xs 0 : ℚ) + 0.1405 * (sampleBack xs 1 : ℚ) + 0.3331 * (sampleBack xs 2 : ℚ)
      + 0.3331 * (sampleBack xs 3 : ℚ) + 0.1405 * (sampleBack xs 4 : ℚ) + 0.0264 * (sampleBack xs 5 : ℚ) := by
  rw [FilterBank.fir, h.firq, Config.firDen]
  push_cast
  ring

theorem WindowBank.iir_eq {xs : List Sample} {f : FilterBank} (h : WindowBank xs f) :
    f.iir = 0.9 * (sampleBack xs 1 : ℚ) + 0.1 * (sampleBack xs 0 : ℚ) := by
  rw [FilterBank.iir, h.iirq, Config.iirDen]
  push_cast
  ring

/-! ## The obligations -/

/-- Settles O35: the invariant keeps the index and the running sum in the range in which the armed push is exact. -/
theorem fpushTakesTheSample : Obligations.FpushTakesTheSample := by
  intro x s hinv hb he ha
  refine ⟨_, exec_fpush x hb he, ?_, onlyFilter_filterCommand _ s, rfl⟩
  rw [filterCommand_fb, push_of_armed x ha]
  exact pushed_of_filterInv hinv.filter ha x

/-- Settles O36: FPUSHC reads its channel and is the FPUSH of it. -/
theorem fpushcPushesTheChannel : Obligations.FpushcPushesTheChannel := by
  intro k s hk hinv hb he ha
  obtain ⟨t, ht, hpushed, honly, -⟩ := fpushTakesTheSample (s.rx.channel k.toNat) s hinv hb he ha
  exact ⟨t, (exec_fpushc hk hb he).trans ((exec_fpush _ hb he).symm.trans ht), ht, hpushed, honly⟩

/-- Settles O39: the window's numerators over their denominators. -/
theorem filtersMatchTheirFormulas : Obligations.FiltersMatchTheirFormulas := by
  intro s xs hb he hpos hlen
  obtain ⟨t, ht, honly, h⟩ := window_completes xs hb he hlen
  have hsome : xs.isEmpty = false := by
    rw [List.isEmpty_eq_false_iff, ← List.length_pos_iff]
    exact hpos
  refine ⟨t, ht, honly, by rw [h.ovalid, hsome]; rfl, ?_, WindowBank.fir_eq h, WindowBank.iir_eq h, h.xout⟩
  rw [FilterBank.maf, h.mafn, h.mafd]

/-- Settles O41: the window's index and `ARMED`; the slots by the captures; after the hundredth push a disarmed bank. -/
theorem windowTakesExactlyAHundredPushes : Obligations.WindowTakesExactlyAHundredPushes := by
  intro s xs hb he hlen
  have h := windowBank_pushAll xs hlen
  refine ⟨_, execAll_windowCommands xs hb he, onlyFilter_filterCommand _ s, h.armed, h.idx, h.mafd,
    (windowCaptures_pushAll xs hlen).raw, fun hfull ys => ?_⟩
  have hclosed : (pushAll xs freshBank).armed = false := by rw [h.armed, hfull]; rfl
  rw [execAll_pushes ys (s := filterCommand _ s) hb he]
  simp only [filterCommand, pushAll_of_disarmed ys hclosed]

/-- Settles O42: what each capture slot was written with. -/
theorem captureSlotsHoldTheOutputs : Obligations.CaptureSlotsHoldTheOutputs := by
  intro s xs hb he hlen
  have h := windowCaptures_pushAll xs hlen
  exact ⟨_, execAll_windowCommands xs hb he, fun i hi hlt => ⟨h.mafn i hi hlt, h.firq i hi hlt, h.iirq i hi hlt⟩⟩

end Sys2Proof.WindowProofs

/-! # What a step can do, and the invariants every step keeps (`10_state.md` R45, `40_i2c_primitives.md` R139) -/

namespace Sys2Proof.InvariantProofs
open Sys2Proof.Machine Sys2Proof.Safety Sys2Proof.Laws Sys2Proof.PrimitiveProofs Sys2Proof.BusProofs

/-! ## Everything a presented command can do (R223, R224, R228) -/

/-- A bus command has got stuck in `t`: within the wire operation of a primitive, or of one of the primitives the sequencer
performs for a composite command (R175, R228). -/
inductive StuckIn (i : Instr) (s t : State) : Prop
  | primitive (hp : isPrimitive i = true) (h : WireOnly (beginBus s) t) : StuckIn i s t
  | composite (u : State) (n : Nat) (hp : isPrimitive i = false) (hu : Latched i s u) (hn : n < seqStates u)
      (h : WireOnly (seqEnd n u) t) : StuckIn i s t

/-- What a command has done in `t`, from a state that is a command boundary whenever `BUSY` = 0. -/
inductive CommandOutcome (i : Instr) (s : State) : State → Prop
  | ignored : CommandOutcome i s s
  | raised (e : CmdError) (w : Command) (hb : s.drv.busy = false) : CommandOutcome i s { s with err := ⟨some e, w⟩ }
  | filtered (hf : isFilter i = true) : CommandOutcome i s (effect i s)
  | performed (q : Phase) (hb : Boundary s) (hp : isPrimitive i = true) (hl : phaseTable i s.drv.phase = some q) :
      CommandOutcome i s (completed i s)
  | sequenced (u : State) (hu : Latched i s u) : CommandOutcome i s (endBus (seqEnd seqFuel u))
  | stuck (t : State) (he : s.err.errcode = none) (h : StuckIn i s t) : CommandOutcome i s t

/-- A composite command is legal in `IDLE` alone (R161, R165). -/
theorem idle_of_composite {i : Instr} {p q : Phase} (hp : isPrimitive i = false) (hf : isFilter i = false)
    (hl : phaseTable i p = some q) : p = .idle := by
  cases i with
  | config => exact (phaseTable_config_eq_some.mp hl).1
  | bread r c => exact (phaseTable_bread_eq_some.mp hl).1
  | start | restart | send b | recv | mack v | stop => cases hp
  | fclear | freset | fpush x | fpushc k => cases hf

/-- A command that passes every check. -/
theorem effect_outcome {i : Instr} {s : State} {q : Phase} (hb : Boundary s) (he : s.err.errcode = none)
    (hw : i.wellFormed = true) (hl : phaseTable i s.drv.phase = some q) : CommandOutcome i s (effect i s) := by
  cases hf : isFilter i with
  | true => exact .filtered hf
  | false =>
    cases hp : isPrimitive i with
    | true =>
      obtain ⟨hdone, -⟩ | hstuck := primitive_cases hb hp hl
      · rw [hdone]; exact .performed q hb hp hl
      · exact .stuck _ he (.primitive hp hstuck)
    | false =>
      have hu := latched_begin hb (idle_of_composite hp hf hl) hw hp hf
      obtain ⟨hdone, -⟩ | ⟨n, hn, hstuck⟩ := hu.cases hf
      · rw [hdone]; exact .sequenced _ hu
      · exact .stuck _ he (.composite _ n hp hu hn hstuck)

theorem exec_outcome {i : Instr} {s t : State} (hb : s.drv.busy = false → Boundary s) (hx : exec i s = .next t) :
    CommandOutcome i s t := by
  rw [exec_eq_command] at hx
  obtain ⟨h, -⟩ | ⟨hidle, he, ⟨-, h⟩ | ⟨-, -, h⟩ | ⟨hw, hl, h⟩⟩ := command_cases i (effect i) s
  all_goals
    rw [h] at hx
    cases hx
  · exact .ignored
  · exact .raised _ _ hidle
  · exact .raised _ _ hidle
  · rw [legalIn_eq_isSome, Option.isSome_iff_exists] at hl
    obtain ⟨q, hl⟩ := hl
    exact effect_outcome (hb hidle) he hw hl

/-! ## Everything a step can do (R21) -/

/-- What a step has done in `t`. A word that is no command raises an error (R93), or does nothing in the error state. -/
inductive StepOutcome (s : State) : State → Prop
  | reset (hr : s.rst = true) : StepOutcome s (hostReset s)
  | stuck : StepOutcome s s.spin
  | idle : StepOutcome s s
  | command (i : Instr) (u : State) (h : CommandOutcome i s.popAction u) : StepOutcome s u.advanceCp

theorem execWord_outcome {w : Command} {s t : State} (hb : Boundary s) (hx : execWord w s = .next t) :
    ∃ i, CommandOutcome i s t := by
  cases hd : decode w with
  | command i =>
    rw [ErrorProofs.execWord_of_command hd] at hx
    exact ⟨i, exec_outcome (fun _ => hb) hx⟩
  | illegal e =>
    rw [ErrorProofs.execWord_of_illegal hd] at hx
    cases hx
    by_cases he : s.err.errcode = none
    · rw [ErrorProofs.raiseCmdError_of_noError e w he]
      exact ⟨.start, .raised e w hb.notBusy⟩
    · rw [ErrorProofs.raiseCmdError_of_error e w he]
      exact ⟨.start, .ignored⟩

theorem boundary_popAction {s : State} (h : Boundary s) : Boundary s.popAction := ⟨h.notBusy, h.scl, h.sda, h.sqIdle⟩

theorem step_outcome {s t : State} (hb : s.drv.busy = false → Boundary s) (hx : step s = .next t) :
    StepOutcome s t := by
  cases hr : s.rst with
  | true =>
    rw [ErrorProofs.step_rst hr] at hx
    cases hx
    exact .reset hr
  | false =>
    cases hbusy : s.drv.busy with
    | true =>
      rw [ErrorProofs.step_stuck hr hbusy] at hx
      cases hx
      exact .stuck
    | false =>
      match htodo : s.host.todo with
      | [] =>
        rw [ErrorProofs.step_unpresented htodo hbusy] at hx
        cases hx
        exact .idle
      | .reset :: rest => simp [State.rst, htodo] at hr
      | .command w :: rest =>
        rw [step_word htodo hbusy] at hx
        cases hword : execWord w s.popAction with
        | fault f => cases f
        | refused q => rw [hword] at hx; cases hx
        | next u =>
          rw [hword] at hx
          cases hx
          obtain ⟨i, h⟩ := execWord_outcome (boundary_popAction (hb hbusy)) hword
          exact .command i u h

/-! ## The invariant of the machine (R45) -/

theorem inv_reset : Inv State.reset where
  rxcntRange := by decide
  filter := WindowProofs.filterInv_reset
  boundary _ := ⟨rfl, rfl, rfl, rfl⟩
  running := nofun
  memory := rfl

/-- The invariant speaks of the block and the environment only. -/
theorem inv_of_sameBlock {s t : State} (h : Inv s) (hst : SameBlock s t) (hmem : envMemoryWf t.env = true) : Inv t where
  rxcntRange := by rw [hst.rx]; exact h.rxcntRange
  filter := by rw [hst.fb]; exact h.filter
  boundary hb := by
    rw [hst.drv] at hb
    obtain ⟨h1, h2, h3, h4⟩ := h.boundary hb
    exact ⟨by rw [hst.drv, h1], by rw [hst.drv, h2], by rw [hst.drv, h3], by rw [hst.sq, h4]⟩
  running hb := by rw [hst.err]; exact h.running (by rw [← hst.drv, hb])
  memory := hmem

theorem inv_popAction {s : State} (h : Inv s) : Inv s.popAction :=
  inv_of_sameBlock h ⟨rfl, rfl, rfl, rfl, rfl⟩ h.memory

theorem inv_spin {s : State} (h : Inv s) : Inv s.spin := inv_of_sameBlock h ⟨rfl, rfl, rfl, rfl, rfl⟩ h.memory

theorem inv_advanceCp {s : State} (h : Inv s) : Inv s.advanceCp :=
  inv_of_sameBlock h ⟨advanceCp_drv s, advanceCp_rx s, advanceCp_err s, advanceCp_sq s, advanceCp_fb s⟩
    (by rw [advanceCp_env]; exact h.memory)

/-- A reset takes the block to its reset values; of the slaves it leaves what they held, or an unknown environment. -/
theorem inv_hostReset {s : State} (h : Inv s) : Inv (hostReset s) := by
  refine inv_of_sameBlock inv_reset (StateProofs.sameBlock_hostReset s) ?_
  rw [hostReset_env, State.envAfterReset]
  split
  · rfl
  · exact h.memory

/-! ### The slave's memory along the bus events -/

theorem envMemoryWf_observe {w w' : WaitPolicy} {p : BusPeer} (e : BusEvent) (h : envMemoryWf ⟨w, p⟩ = true) :
    envMemoryWf ⟨w', p.observe e⟩ = true := by
  cases p with
  | reference d => exact refSlave_observe_wf d e h
  | script acks bytes => cases e <;> rfl

theorem envMemoryWf_foldl {w w' : WaitPolicy} {p : BusPeer} (es : List BusEvent) (h : envMemoryWf ⟨w, p⟩ = true) :
    envMemoryWf ⟨w', es.foldl BusPeer.observe p⟩ = true := by
  induction es generalizing p with
  | nil => exact h
  | cons e es ih => exact ih (envMemoryWf_observe e h)

/-- Where only bus events have reached the peer, its memory is still canonical. -/
theorem envMemoryWf_of_events {v v' : Env} {es : List BusEvent} (hp : v'.peer = es.foldl BusPeer.observe v.peer)
    (h : envMemoryWf v = true) : envMemoryWf v' = true := by
  obtain ⟨w', p'⟩ := v'
  subst hp
  exact envMemoryWf_foldl es h

/-! ### Commands -/

theorem inv_raised {s : State} (h : Inv s) (hb : s.drv.busy = false) (r : ErrorRegs) : Inv { s with err := r } where
  rxcntRange := h.rxcntRange
  filter := h.filter
  boundary hidle := by
    obtain ⟨h1, h2, h3, h4⟩ := h.boundary hidle
    exact ⟨h1, h2, h3, h4⟩
  running hbusy := by rw [hb] at hbusy; cases hbusy
  memory := h.memory

theorem inv_filterCommand {s : State} (h : Inv s) {g : FilterBank → FilterBank} (hg : FilterInv (g s.fb)) :
    Inv (filterCommand g s) where
  rxcntRange := h.rxcntRange
  filter := hg
  boundary hidle := by
    obtain ⟨h1, h2, h3, h4⟩ := h.boundary hidle
    exact ⟨h1, h2, h3, h4⟩
  running := h.running
  memory := h.memory

theorem inv_filter {i : Instr} {s : State} (h : Inv s) (hf : isFilter i = true) : Inv (effect i s) := by
  cases i with
  | fclear => exact inv_filterCommand (g := fun _ => FilterBank.reset) h WindowProofs.filterInv_reset
  | freset => exact inv_filterCommand (g := fun _ => FilterProofs.freshBank) h WindowProofs.filterInv_freshBank
  | fpush x => exact inv_filterCommand h (WindowProofs.filterInv_push h.filter x)
  | fpushc k => exact inv_filterCommand h (WindowProofs.filterInv_push h.filter _)
  | start | restart | send b | recv | mack v | stop | config | bread r c => cases hf

/-- A bus command that has kept the filter bank and the count's range, and whose peer has seen only its events. -/
theorem inv_of_bus {s t : State} (h : Inv s) (hfb : t.fb = s.fb) (hx : t.rx.rxcnt.toNat ≤ 14)
    (hev : ∃ es : List BusEvent, t.env.peer = es.foldl BusPeer.observe s.env.peer)
    (hb : t.drv.busy = false → Boundary t) (hr : t.drv.busy = true → t.err.errcode = none) : Inv t where
  rxcntRange := hx
  filter := by rw [hfb]; exact h.filter
  boundary := hb
  running := hr
  memory := by
    obtain ⟨es, hp⟩ := hev
    exact envMemoryWf_of_events hp h.memory

theorem inv_completed {i : Instr} {s : State} {q : Phase} (h : Inv s) (hb : Boundary s) (hp : isPrimitive i = true)
    (hl : phaseTable i s.drv.phase = some q) : Inv (completed i s) := by
  have hperf := performs_completed hb hp hl
  have hframe := completed_frame hb hp hl
  refine inv_of_bus h hperf.fb ?_ ⟨_, by rw [hperf.env]⟩ (fun _ => hframe.boundary) fun hbusy => ?_
  · rw [hframe.rx]; exact h.rxcntRange
  · rw [hframe.boundary.notBusy] at hbusy; cases hbusy

theorem inv_sequenced {i : Instr} {s u : State} (h : Inv s) (hu : Latched i s u) : Inv (endBus (seqEnd seqFuel u)) := by
  obtain ⟨-, -, hfb, -, es, -, hpeer⟩ := hu.keeps seqFuel
  refine inv_of_bus h hfb (hu.rxcnt_le h.rxcntRange _) ⟨es, hpeer⟩ (fun _ => ?_) nofun
  exact (endBus_seqEnd_boundary seqFuel u hu.inv hu.idleRegs hu.fuel).1

theorem inv_stuck {i : Instr} {s t : State} (h : Inv s) (he : s.err.errcode = none) (ht : StuckIn i s t) : Inv t := by
  obtain ⟨-, hw⟩ | ⟨u, n, -, hu, -, hw⟩ := ht
  · have hbusy : t.drv.busy = true := by rw [hw.drv]; rfl
    exact inv_of_bus h hw.fb (by rw [hw.rx]; exact h.rxcntRange) ⟨[], hw.peer⟩
      (fun hidle => by rw [hbusy] at hidle; cases hidle) fun _ => by rw [hw.err]; exact he
  · obtain ⟨hkbusy, herr, hfb, -, es, -, hpeer⟩ := hu.keeps n
    have hbusy : t.drv.busy = true := by rw [hw.drv]; exact hkbusy
    exact inv_of_bus h (hw.fb.trans hfb) (by rw [hw.rx]; exact hu.rxcnt_le h.rxcntRange n) ⟨es, hw.peer.trans hpeer⟩
      (fun hidle => by rw [hbusy] at hidle; cases hidle) fun _ => by rw [hw.err, herr]; exact he

theorem inv_command {i : Instr} {s t : State} (h : Inv s) (ht : CommandOutcome i s t) : Inv t := by
  cases ht with
  | ignored => exact h
  | raised e w hb => exact inv_raised h hb _
  | filtered hf => exact inv_filter h hf
  | performed q hb hp hl => exact inv_completed h hb hp hl
  | sequenced u hu => exact inv_sequenced h hu
  | stuck t he hs => exact inv_stuck h he hs

theorem inv_step {s t : State} (h : Inv s) (ht : StepOutcome s t) : Inv t := by
  cases ht with
  | reset hr => exact inv_hostReset h
  | stuck => exact inv_spin h
  | idle => exact h
  | command i u hu => exact inv_advanceCp (inv_command (inv_popAction h) hu)

/-! ## STARTs and STOPs alternate (R139) -/

/-- The pairing speaks of the trace and the phase only. -/
theorem paired_of_same {s t : State} (h : Paired s) (htrace : t.trace = s.trace) (hphase : t.drv.phase = s.drv.phase) :
    Paired t := by
  unfold Paired at *
  rw [htrace, hphase, h]

theorem paired_wireOnly {s t : State} (h : Paired s) (hw : WireOnly s t) : Paired t :=
  paired_of_same h hw.trace (by rw [hw.drv])

/-- Every primitive of a composite command keeps the pairing, so that it holds wherever the command ends or hangs. -/
theorem paired_seqEnd {i : Instr} {s u : State} (h : Paired s) (hu : Latched i s u) (n : Nat) : Paired (seqEnd n u) := by
  refine seqEnd_induction (fun v hv hq hpair => ?_) n hu.inv
    (paired_of_same h hu.outside.trace (by rw [hu.outside.drv]; rfl))
  exact (performs_seqAfter hv hq).paired (seqPrimitive_isPrimitive v) hpair

theorem paired_filter {i : Instr} {s : State} (h : Paired s) (hf : isFilter i = true) : Paired (effect i s) := by
  cases i with
  | fclear | freset | fpush x | fpushc k => exact paired_of_same h rfl rfl
  | start | restart | send b | recv | mack v | stop | config | bread r c => cases hf

theorem paired_command {i : Instr} {s t : State} (h : Paired s) (ht : CommandOutcome i s t) : Paired t := by
  cases ht with
  | ignored => exact h
  | raised e w hb => exact paired_of_same h rfl rfl
  | filtered hf => exact paired_filter h hf
  | performed q hb hp hl => exact (performs_completed hb hp hl).paired hp h
  | sequenced u hu => exact paired_of_same (paired_seqEnd h hu seqFuel) rfl rfl
  | stuck t he hs =>
    obtain ⟨-, hw⟩ | ⟨u, n, -, hu, -, hw⟩ := hs
    · exact paired_wireOnly (s := beginBus s) (paired_of_same h rfl rfl) hw
    · exact paired_wireOnly (paired_seqEnd h hu n) hw

theorem paired_step {s t : State} (h : Paired s) (hr : s.rst = false) (ht : StepOutcome s t) : Paired t := by
  cases ht with
  | reset hrst => rw [hr] at hrst; cases hrst
  | stuck => exact paired_of_same h rfl rfl
  | idle => exact h
  | command i u hu =>
    have hpop : Paired s.popAction := paired_of_same h rfl rfl
    exact paired_of_same (paired_command hpop hu) (advanceCp_trace u) (by rw [advanceCp_drv])

/-! ## The obligations -/

/-- Settles O48: the reset values meet each clause. -/
theorem resetMeetsTheInvariant : Obligations.ResetMeetsTheInvariant := inv_reset

/-- Settles O50: nothing to pair, and no transaction open. -/
theorem resetStartsPaired : Obligations.ResetStartsPaired := rfl

/-- Settles O47, over everything a step can do. -/
theorem invariantIsKept : Obligations.InvariantIsKept :=
  fun _ _ h hx => inv_step h (step_outcome h.boundary hx)

/-- Settles O49, over everything a step can do. -/
theorem startsAndStopsAlternate : Obligations.StartsAndStopsAlternate :=
  fun _ _ h hpair hx hr => paired_step hpair hr (step_outcome h.boundary hx)

end Sys2Proof.InvariantProofs

/-! # The host's side: a step by what the host does, and the host read port (`10_state.md` R21, `20_memory.md` R72 to R75) -/

namespace Sys2Proof.HostProofs
open Sys2Proof.Machine Sys2Proof.Safety Sys2Proof.Laws

/-! ## A step by what the host does -/

theorem popAction_eq {s : State} {a : HostAction} {rest : List HostAction} (h : s.host.todo = a :: rest) :
    s.popAction = { s with host := ⟨rest, s.host.cp⟩ } := by
  rw [State.popAction, h, List.tail_cons]

theorem retire_next (t : State) :
    retire (.next t) = .next { t with host := if t.drv.busy then t.host else ⟨t.host.todo, t.host.cp + 1⟩ } := by
  rw [retire, State.advanceCp]
  split <;> rfl

/-- A block that runs a command is not in a final state and takes no word (R21, R228). -/
theorem not_final_of_busy {s : State} (hb : s.drv.busy = true) : ¬ Final s := fun ⟨_, hidle, _⟩ => by
  rw [hb] at hidle
  cases hidle

theorem envAfterReset_of_idle {s : State} (hb : s.drv.busy = false) : s.envAfterReset = s.env := by
  simp [State.envAfterReset, hb]

theorem envAfterReset_of_busy {s : State} (hb : s.drv.busy = true) : s.envAfterReset = Env.unknown := by
  simp [State.envAfterReset, hb]

/-! ## The read map by address ranges (R73) -/

section ReadMap
variable (s : State)

theorem readMap_scalar {a : Nat} (h : a < 0x020) : s.readMap a = s.scalarRegister a := by
  rw [State.readMap, if_pos h]

theorem readMap_rxbuf {i : Nat} (h : i < 14) : s.readMap (0x020 + i) = (s.rx.byte i).setWidth 32 := by
  rw [State.readMap, if_neg (by omega), if_pos (by omega), Nat.add_sub_cancel_left]

theorem readMap_channel {k : Nat} (h : k < 7) : s.readMap (0x030 + k) = sext16 (s.rx.channel k) := by
  rw [State.readMap, if_neg (by omega), if_neg (by omega), if_neg (by omega), if_pos (by omega),
    Nat.add_sub_cancel_left]

theorem readMap_capRaw {i : Nat} (h : i < 100) : s.readMap (0x100 + i) = sext16 s.fb.capRaw[i] := by
  rw [State.readMap, if_neg (by omega), if_neg (by omega), if_neg (by omega), if_neg (by omega), if_neg (by omega),
    if_pos (by omega), Nat.add_sub_cancel_left, Vector.getElem?_eq_getElem h, Option.getD_some]

theorem readMap_capMafn {i : Nat} (h : i < 100) : s.readMap (0x200 + i) = s.fb.capMafn[i] := by
  rw [State.readMap, if_neg (by omega), if_neg (by omega), if_neg (by omega), if_neg (by omega), if_neg (by omega),
    if_neg (by omega), if_pos (by omega), Nat.add_sub_cancel_left, Vector.getElem?_eq_getElem h, Option.getD_some]

theorem readMap_capFirq {i : Nat} (h : i < 100) : s.readMap (0x300 + i) = s.fb.capFirq[i] := by
  rw [State.readMap, if_neg (by omega), if_neg (by omega), if_neg (by omega), if_neg (by omega), if_neg (by omega),
    if_neg (by omega), if_neg (by omega), if_pos (by omega), Nat.add_sub_cancel_left, Vector.getElem?_eq_getElem h,
    Option.getD_some]

theorem readMap_capIirq {i : Nat} (h : i < 100) : s.readMap (0x400 + i) = s.fb.capIirq[i] := by
  rw [State.readMap, if_neg (by omega), if_neg (by omega), if_neg (by omega), if_neg (by omega), if_neg (by omega),
    if_neg (by omega), if_neg (by omega), if_neg (by omega), if_pos (by omega), Nat.add_sub_cancel_left,
    Vector.getElem?_eq_getElem h, Option.getD_some]

theorem scalarRegister_unlisted {a : Nat} (h : 0x012 ≤ a) : s.scalarRegister a = 0#32 := by
  unfold State.scalarRegister
  split
  case h_19 => rfl
  all_goals omega

/-- Past the last slot a capture array reads as zero. -/
theorem getD_past {n : Nat} {v : Vector (BitVec n) 100} {i : Nat} (h : 100 ≤ i) : v[i]?.getD 0 = 0 := by
  rw [Vector.getElem?_eq_none h, Option.getD_none]

/-- An address is unlisted where no register lies, and where a range of the map is longer than its array (R74). -/
theorem readMap_unlisted {a : Nat} (h : (0x012 ≤ a ∧ a < 0x020) ∨ (0x02E ≤ a ∧ a < 0x030) ∨ (0x037 ≤ a ∧ a < 0x100) ∨
    (0x164 ≤ a ∧ a < 0x200) ∨ (0x264 ≤ a ∧ a < 0x300) ∨ (0x364 ≤ a ∧ a < 0x400) ∨ 0x464 ≤ a) :
    s.readMap a = 0#32 := by
  unfold State.readMap
  by_cases h1 : a < 0x020
  · rw [if_pos h1, scalarRegister_unlisted s (by omega)]
  rw [if_neg h1, if_neg (by omega)]
  by_cases h2 : a < 0x030
  · rw [if_pos h2]
  rw [if_neg h2, if_neg (by omega)]
  by_cases h3 : a < 0x100
  · rw [if_pos h3]
  rw [if_neg h3]
  by_cases h4 : a < 0x200
  · rw [if_pos h4, getD_past (by omega)]; rfl
  rw [if_neg h4]
  by_cases h5 : a < 0x300
  · rw [if_pos h5]; exact getD_past (by omega)
  rw [if_neg h5]
  by_cases h6 : a < 0x400
  · rw [if_pos h6]; exact getD_past (by omega)
  rw [if_neg h6]
  by_cases h7 : a < 0x500
  · rw [if_pos h7]; exact getD_past (by omega)
  rw [if_neg h7]

end ReadMap

/-! ## Reads while `BUSY` = 0 and their extensions (R72) -/

theorem toInt_sext16 (v : Sample) : (sext16 v).toInt = v.toInt := BitVec.toInt_signExtend_of_le (by decide)

theorem toNat_zext {n : Nat} (h : n ≤ 32) (v : BitVec n) : (v.setWidth 32).toNat = v.toNat :=
  BitVec.toNat_setWidth_of_le h

theorem toNat_errcodeBits (e : Option CmdError) : ((errcodeBits e).setWidth 32).toNat = (match e with
    | none => 0
    | some .illegalOp => 1
    | some .illegalArg => 2
    | some .proto => 3) := by
  rcases e with _ | _ | _ | _ <;> rfl

section HostRead
variable {s : State} (hb : s.drv.busy = false)
include hb

/-- A read of one of the registers below 0x020. -/
theorem hostRead_scalar {a : HostAddr} {v : HostWord} (ha : a.toNat < 0x020) (hv : s.scalarRegister a.toNat = v) :
    s.hostRead a = v := by
  rw [StateProofs.hostRead_of_idle hb, readMap_scalar s ha, hv]

theorem hostRead_zext {a : HostAddr} {n : Nat} {v : BitVec n} (ha : a.toNat < 0x020) (hn : n ≤ 32)
    (hv : s.scalarRegister a.toNat = v.setWidth 32) : (s.hostRead a).toNat = v.toNat := by
  rw [hostRead_scalar hb ha hv, toNat_zext hn]

theorem hostRead_sext {a : HostAddr} {v : Sample} (ha : a.toNat < 0x020) (hv : s.scalarRegister a.toNat = sext16 v) :
    (s.hostRead a).toInt = v.toInt := by
  rw [hostRead_scalar hb ha hv, toInt_sext16]

/-- A read at an address given as a number. -/
theorem hostRead_ofNat {n : Nat} (hn : n < 4096) : s.hostRead (BitVec.ofNat 12 n) = s.readMap n := by
  rw [StateProofs.hostRead_of_idle hb, BitVec.toNat_ofNat, Nat.mod_eq_of_lt hn]

end HostRead

/-! ## The channel view of the receive buffer (R31) -/

theorem byte_eq (x : RxBuffer) {i : Nat} (h : i < 14) : x.byte i = x.rxbuf[i] := by
  rw [RxBuffer.byte, Vector.getElem?_eq_getElem h, Option.getD_some]

theorem channel_reset {k : Nat} (h : k < 7) : State.reset.rx.channel k = 0#16 := by
  have hzero (i : Nat) (hi : i < 14) : State.reset.rx.byte i = 0#8 :=
    (byte_eq _ hi).trans (StateProofs.resetValues_reset.rxbuf i hi)
  rw [RxBuffer.channel, hzero _ (by omega), hzero _ (by omega)]
  rfl

/-! ## The obligations -/

/-- Settles O5: the accepted word is executed with the host one action further, and then `cp` is counted (R105). -/
theorem stepRunsTheDecodedCommand : Obligations.StepRunsTheDecodedCommand := by
  intro s w rest i h hb hd
  exact ⟨by rw [step_word h hb, ErrorProofs.execWord_of_command hd], popAction_eq h, retire_next⟩

/-- Settles O9: such a step is an evaluation of the wait that does not proceed. -/
theorem stuckBlockStaysStuck : Obligations.StuckBlockStaysStuck := by
  intro s hb hr
  refine ⟨by rw [State.cmdReady, hb]; rfl, not_final_of_busy hb, s.spin, ErrorProofs.step_stuck hr hb, ?_, rfl, rfl, rfl⟩
  exact ⟨rfl, rfl, rfl, rfl, rfl⟩

/-- Settles O12: a reset step touches neither the trace nor, at a command boundary, the environment. -/
theorem resetKeepsTraceAndSlaves : Obligations.ResetKeepsTraceAndSlaves := fun s _ h =>
  ⟨hostReset s, step_reset h, hostReset_trace s, fun hb => (hostReset_env s).trans (envAfterReset_of_idle hb),
    fun hb => (hostReset_env s).trans (envAfterReset_of_busy hb)⟩

/-- Settles O13: with no reset, no word and no command running a step is the identity. -/
theorem idleBlockHoldsItsState : Obligations.IdleBlockHoldsItsState := fun _ => ErrorProofs.step_unpresented

/-- Settles O45: the read map range by range, each register under its extension. -/
theorem hostReadMapHolds : Obligations.HostReadMapHolds := by
  intro s hb
  refine ⟨?_, ?_, ?_, ?_, ?_, ?_, ?_, ?_, ?_, ?_, ?_, ?_, ?_, ?_, ?_, ?_, fun i h => ?_, fun k h => ?_, fun i h => ?_,
    fun i h => ?_, fun i h => ?_, fun i h => ?_, fun a h => ?_⟩
  · exact (congrArg BitVec.toNat (hostRead_scalar hb (by decide) rfl)).trans (toNat_errcodeBits s.err.errcode)
  · exact hostRead_zext hb (by decide) (by decide) rfl
  · exact hostRead_zext hb (by decide) (by decide) rfl
  · exact hostRead_zext hb (by decide) (by decide) rfl
  · exact hostRead_zext hb (by decide) (by decide) rfl
  · exact hostRead_sext hb (by decide) rfl
  · exact congrArg BitVec.toInt (hostRead_scalar hb (by decide) rfl)
  · exact hostRead_zext hb (by decide) (by decide) rfl
  · exact congrArg BitVec.toInt (hostRead_scalar hb (by decide) rfl)
  · exact congrArg BitVec.toInt (hostRead_scalar hb (by decide) rfl)
  · exact congrArg BitVec.toInt (hostRead_scalar hb (by decide) rfl)
  · exact hostRead_sext hb (by decide) rfl
  · exact hostRead_sext hb (by decide) rfl
  · exact hostRead_sext hb (by decide) rfl
  · exact hostRead_sext hb (by decide) rfl
  · exact hostRead_sext hb (by decide) rfl
  · rw [hostRead_ofNat hb (by omega), readMap_rxbuf s h, toNat_zext (by decide), byte_eq _ h]
  · rw [hostRead_ofNat hb (by omega), readMap_channel s h, toInt_sext16]
  · rw [hostRead_ofNat hb (by omega), readMap_capRaw s h, toInt_sext16]
  · rw [hostRead_ofNat hb (by omega), readMap_capMafn s h]
  · rw [hostRead_ofNat hb (by omega), readMap_capFirq s h]
  · rw [hostRead_ofNat hb (by omega), readMap_capIirq s h]
  · rw [StateProofs.hostRead_of_idle hb, readMap_unlisted s h]

/-- Settles O46: the channel is the two bytes joined, the byte of the even index low. -/
theorem channelIsLittleEndian : Obligations.ChannelIsLittleEndian := by
  refine ⟨fun s k h => ⟨?_, ?_⟩, fun k h => channel_reset h⟩
  · rw [RxBuffer.channel, ← byte_eq s.rx (by omega)]
    exact BitVec.extractLsb'_append_eq_right
  · rw [RxBuffer.channel, ← byte_eq s.rx (by omega)]
    exact BitVec.extractLsb'_append_eq_left

end Sys2Proof.HostProofs

/-! # The six primitives, granted or in any environment (`40_i2c_primitives.md` section 3, `60_exceptions.md` R228) -/

namespace Sys2Proof.CompletionProofs
open Sys2Proof.Machine Sys2Proof.Safety Sys2Proof.Laws Sys2Proof.PrimitiveProofs Sys2Proof.BusProofs
  Sys2Proof.InvariantProofs

/-! ## A primitive whose waits are granted -/

theorem wellFormed_of_isPrimitive {i : Instr} (h : isPrimitive i = true) : i.wellFormed = true := by
  cases i with
  | start | restart | send b | recv | mack v | stop => rfl
  | config | bread r c | fclear | freset | fpush x | fpushc k => cases h

/-- A legal primitive whose waits are granted answers its completed form. -/
theorem exec_granted {i : Instr} {s : State} {q : Phase} (hr : Ready s) (hp : isPrimitive i = true)
    (hl : phaseTable i s.drv.phase = some q) (g : Grants (waitsOf i) s) : exec i s = .next (completed i s) := by
  rw [exec_of_phaseTable_some hr (wellFormed_of_isPrimitive hp) hl, primitive_granted hr.toBoundary hp hl g]

theorem toNat_nakCount_ite (n : BitVec 8) (a : Level) :
    (nakCount n a).toNat = min 255 (n.toNat + if a = true then 1 else 0) := by
  rw [toNat_nakCount]
  cases a <;> rfl

/-! ## The slave's memory (R68) -/

/-- Only a sent byte can reach the memory of the reference slave. -/
theorem observe_mem {d : RefSlave} {e : BusEvent} (he : ∀ b a, e ≠ .tx b a) : (d.observe e).mem = d.mem := by
  cases e with
  | tx b a => exact absurd rfl (he b a)
  | rx b => cases hsel : d.sel <;> simp [RefSlave.observe, RefSlave.onRx, hsel]
  | start | restart | mack v | stop => rfl

theorem slaveByte_of_observe {v v' : Env} {e : BusEvent} (he : ∀ b a, e ≠ .tx b a)
    (hp : v'.peer = v.peer.observe e) (a : Nat) : slaveByte v' a = slaveByte v a := by
  unfold slaveByte
  rw [hp]
  cases v.peer with
  | reference d => simp only [BusPeer.observe, observe_mem he]
  | script acks bytes => cases e <;> rfl

/-- Where only one event has reached the peer, and it is no sent byte, the slave's memory is kept. -/
theorem slaveMemoryKept_of_event {i : Instr} {s t : State} {e : BusEvent} (h : Performs i s t)
    (hev : primitiveEvent s i = [e]) (he : ∀ b a, e ≠ .tx b a) : SlaveMemoryKept s t := by
  have hpeer := h.peer
  rw [hev] at hpeer
  exact slaveByte_of_observe he hpeer

/-- What a sent byte does to the memory and the pointer of the reference slave. -/
theorem onTx_mem {d : RefSlave} (b : Byte) (hd : Memory.wf d.mem = true) :
    (d.sel = .wData → (d.onTx b).ptr = d.ptr + 1 ∧
      ∀ a, Memory.read (d.onTx b).mem a = if a = d.ptr.toNat then b else Memory.read d.mem a) ∧
    (d.sel ≠ .wData → ∀ a, Memory.read (d.onTx b).mem a = Memory.read d.mem a) := by
  refine ⟨fun hsel => ?_, fun hsel a => ?_⟩
  · simp only [RefSlave.onTx, hsel]
    exact ⟨trivial, fun a => read_write d.mem 0 d.ptr.toNat b a hd⟩
  · cases h : d.sel with
    | wData => exact absurd h hsel
    | addr => simp only [RefSlave.onTx, h]; split <;> rfl
    | none | wPtr | r => simp only [RefSlave.onTx, h]

/-! ## The obligations on completed primitives -/

/-- Settles O14: START's row of the table in its completed form. -/
theorem startCompletes : Obligations.StartCompletes := by
  intro s hr hidle g
  have hl := phaseTable_start_eq_some.mpr ⟨hidle, rfl⟩
  have h := performs_completed (i := .start) hr.toBoundary rfl hl
  exact ⟨_, exec_granted hr rfl hl g, h.trace, h.drv_of_phaseTable hl, h.peer,
    completed_frame hr.toBoundary rfl hl, slaveMemoryKept_of_event h rfl nofun⟩

/-- Settles O15: RESTART's row of the table in its completed form. -/
theorem restartCompletes : Obligations.RestartCompletes := by
  intro s hr hphase g
  have hl := phaseTable_restart_eq_some.mpr ⟨hphase, rfl⟩
  have h := performs_completed (i := .restart) hr.toBoundary rfl hl
  exact ⟨_, exec_granted hr rfl hl g, h.trace, h.drv_of_phaseTable hl, h.peer,
    completed_frame hr.toBoundary rfl hl, slaveMemoryKept_of_event h rfl nofun⟩

theorem phaseAfterSend_eq (p : Phase) (b : Byte) :
    phaseAfterSend p b = if p = .addr ∧ b.getLsbD 0 = true then .rd else .wr := by
  unfold phaseAfterSend
  by_cases hp : p = .addr <;> simp [hp]

/-- Settles O16: SEND's row of the table in its completed form, the level counted up to 255. -/
theorem sendCompletes : Obligations.SendCompletes := by
  intro b s hr hphase g
  have hl := phaseTable_send_eq_some (b := b).mpr ⟨hphase, rfl⟩
  have h := performs_completed hr.toBoundary rfl hl
  have hdrv := h.drv_of_phaseTable hl
  obtain ⟨hscl, hsda⟩ := drivers_phaseAfterSend s.drv.phase b
  refine ⟨_, exec_granted hr rfl hl g, h.trace, ?_, ?_, h.peer, completed_frame hr.toBoundary rfl hl⟩
  · rw [← phaseAfterSend_eq, hdrv, hscl, hsda]; rfl
  · rw [hdrv]; exact toNat_nakCount_ite _ _

/-- Settles O17: the event of the completed SEND as the reference slave sees it. -/
theorem sendStoresAtTheSlavesPointer : Obligations.SendStoresAtTheSlavesPointer := by
  intro b s d hr hphase g hpeer hd
  obtain ⟨t, ht, -, -, -, hobs, -⟩ := sendCompletes b s hr hphase g
  rw [hpeer] at hobs
  exact ⟨t, d.onTx b, ht, hobs, onTx_mem b hd⟩

/-- Settles O18: RECV's row of the table in its completed form. -/
theorem recvCompletes : Obligations.RecvCompletes := by
  intro s hr hphase g
  have hl := phaseTable_recv_eq_some.mpr ⟨hphase, rfl⟩
  have h := performs_completed (i := .recv) hr.toBoundary rfl hl
  exact ⟨_, exec_granted hr rfl hl g, h.trace, h.drv_of_phaseTable hl, h.peer,
    completed_frame hr.toBoundary rfl hl, slaveMemoryKept_of_event h rfl nofun⟩

/-- Settles O19: MACK's row of the table in its completed form. -/
theorem mackCompletes : Obligations.MackCompletes := by
  intro v s hr hphase g
  have hl := phaseTable_mack_eq_some (v := v).mpr ⟨hphase, rfl⟩
  have h := performs_completed hr.toBoundary rfl hl
  refine ⟨_, exec_granted hr rfl hl g, h.trace, ?_, h.peer,
    completed_frame hr.toBoundary rfl hl, slaveMemoryKept_of_event h rfl nofun⟩
  rw [h.drv_of_phaseTable hl]
  cases v <;> rfl

/-- Settles O20: STOP's row of the table in its completed form. -/
theorem stopCompletes : Obligations.StopCompletes := by
  intro s hr hphase g
  have hl := phaseTable_stop_eq_some.mpr ⟨hphase, rfl⟩
  have h := performs_completed (i := .stop) hr.toBoundary rfl hl
  exact ⟨_, exec_granted hr rfl hl g, h.trace, h.drv_of_phaseTable hl, h.peer,
    completed_frame hr.toBoundary rfl hl, slaveMemoryKept_of_event h rfl nofun⟩

/-! ## In any environment (R15, R228) -/

/-- Only SEND samples an acknowledge level. -/
theorem sentLevels_primitiveEvent {i : Instr} (s : State) (h : ∀ b, i ≠ .send b) :
    sentLevels (primitiveEvent s i) = [] := by
  cases i with
  | send b => exact absurd rfl (h b)
  | start | restart | recv | mack v | stop | config | bread r c | fclear | freset | fpush x | fpushc k => rfl

/-- Only RECV takes a byte. -/
theorem receivedBytes_primitiveEvent (i : Instr) (s : State) :
    receivedBytes (primitiveEvent s i) = if i = .recv then [s.rxByte] else [] := by
  cases i <;> rfl

/-- Settles O22: a legal primitive is complete in its closed form or stuck within its wire operation. -/
theorem primitivesInAnyEnvironment : Obligations.PrimitivesInAnyEnvironment := by
  intro i s hr hp hlegal
  obtain ⟨q, hl⟩ := Option.ne_none_iff_exists'.mp hlegal
  refine ⟨effect i s, exec_of_phaseTable_some hr (wellFormed_of_isPrimitive hp) hl, ?_⟩
  obtain ⟨hdone, -⟩ | hw := primitive_cases hr.toBoundary hp hl
  · have h := performs_completed hr.toBoundary hp hl
    rw [hdone]
    refine .inl ⟨rfl, h.trace, h.phase, h.peer, ?_, fun hns => ?_, ?_, completed_frame hr.toBoundary hp hl⟩
    · rintro b rfl
      rw [h.drv]
      exact ⟨rfl, toNat_nakCount_ite _ _⟩
    · rw [h.drv, sentLevels_primitiveEvent s hns]
      exact ⟨rfl, rfl⟩
    · rw [h.drv, receivedBytes_primitiveEvent]
      split <;> rfl
  · exact .inr ⟨by rw [hw.drv]; rfl, hw.trace, hw.rx, hw.err, hw.fb, hw.host, hw.peer, hw.drv⟩

/-! ## With a counted number of waits (R228) -/

theorem grants_of_stall {n k : Nat} {s : State} (h : s.env.waits = .stall k) : Grants n s ↔ n ≤ k := by
  simp [Grants, h]

/-- What a stuck command has kept. -/
theorem stuck_keeps {i : Instr} {s t : State} (h : StuckIn i s t) : SeqKeeps (beginBus s) t := by
  obtain ⟨-, hw⟩ | ⟨u, n, -, hu, -, hw⟩ := h
  · exact hw.seqKeeps
  · exact (hu.keeps n).trans hw.seqKeeps

theorem waitsOf_filter {i : Instr} (h : isFilter i = true) : waitsOf i = 0 := by
  cases i with
  | fclear | freset | fpush x | fpushc k => rfl
  | start | restart | send b | recv | mack v | stop | config | bread r c => cases h

/-- With too few waits granted a legal command is stuck. -/
theorem effect_stuck {i : Instr} {s : State} {q : Phase} {k : Nat} (hr : Ready s) (hw : i.wellFormed = true)
    (hl : phaseTable i s.drv.phase = some q) (hk : s.env.waits = .stall k) (hlt : k < waitsOf i) :
    StuckIn i s (effect i s) := by
  cases hf : isFilter i with
  | true => rw [waitsOf_filter hf] at hlt; exact absurd hlt (Nat.not_lt_zero k)
  | false =>
    cases hp : isPrimitive i with
    | true =>
      obtain ⟨-, hle⟩ | hstuck := primitive_cases hr.toBoundary hp hl
      · exact absurd (hle k hk) (by omega)
      · exact .primitive hp hstuck
    | false =>
      have hu := latched_begin hr.toBoundary (idle_of_composite hp hf hl) hw hp hf
      obtain ⟨-, hle⟩ | ⟨n, hn, hstuck⟩ := hu.cases hf
      · exact absurd (hle k hk) (by omega)
      · exact .composite _ n hp hu hn hstuck

/-- What a completed command leaves of the host, the trace and the waits: it has spent its own. -/
theorem effect_granted {i : Instr} {s : State} {q : Phase} (hr : Ready s) (hw : i.wellFormed = true)
    (hl : phaseTable i s.drv.phase = some q) (g : Grants (waitsOf i) s) :
    (effect i s).host = s.host ∧ (∃ es, (effect i s).trace = s.trace ++ es) ∧
      (effect i s).env.waits = waitsAfter (waitsOf i) s.env.waits := by
  cases hf : isFilter i with
  | true =>
    rw [waitsOf_filter hf, waitsAfter_zero]
    cases i with
    | fclear | freset | fpush x | fpushc k => exact ⟨rfl, ⟨[], (List.append_nil _).symm⟩, rfl⟩
    | start | restart | send b | recv | mack v | stop | config | bread r c => cases hf
  | false =>
    cases hp : isPrimitive i with
    | true =>
      have h := performs_completed hr.toBoundary hp hl
      rw [primitive_granted hr.toBoundary hp hl g]
      exact ⟨h.host, ⟨_, h.trace⟩, by rw [h.env]⟩
    | false =>
      have hu := latched_begin hr.toBoundary (idle_of_composite hp hf hl) hw hp hf
      obtain ⟨-, -, -, hhost, es, htrace, -⟩ := hu.keeps seqFuel
      rw [hu.granted hf g]
      exact ⟨hhost, ⟨es, htrace⟩, hu.spec.waits⟩

/-- Settles O10: stuck where a wait is not granted, complete with its own waits spent where all of them are. -/
theorem stuckAtAnUngrantedWait : Obligations.StuckAtAnUngrantedWait := by
  intro i s k hr hw hlegal hk
  obtain ⟨q, hl⟩ := Option.ne_none_iff_exists'.mp hlegal
  refine ⟨effect i s, exec_of_phaseTable_some hr hw hl, ?_⟩
  by_cases hlt : k < waitsOf i
  · have hstuck := effect_stuck hr hw hl hk hlt
    obtain ⟨hbusy, herr, hfb, hhost, es, htrace, -⟩ := stuck_keeps hstuck
    refine ⟨herr, hhost, ⟨es, htrace⟩, fun _ => ⟨hbusy, hfb, fun hp => ?_⟩, fun hle => absurd hlt (by omega)⟩
    obtain ⟨-, hwire⟩ | ⟨-, -, hnp, -⟩ := hstuck
    · exact ⟨hwire.trace, hwire.rx, hwire.drv⟩
    · rw [hp] at hnp; cases hnp
  · have g : Grants (waitsOf i) s := (grants_of_stall hk).mpr (by omega)
    obtain ⟨hphase, herr, hboundary⟩ := effect_completeIn hr hw hl g
    obtain ⟨hhost, htrace, hwaits⟩ := effect_granted hr hw hl g
    refine ⟨herr, hhost, htrace, fun h => absurd h hlt, fun _ => ⟨hboundary.notBusy, by rw [hphase, hl], ?_⟩⟩
    rw [hwaits, hk, waitsAfter]

end Sys2Proof.CompletionProofs

/-! # The wires read back (`40_i2c_primitives.md` R136, R137) -/

namespace Sys2Proof.WaveProofs
open Sys2Proof.Machine Sys2Proof.Safety Sys2Proof.Laws Sys2Proof.PrimitiveProofs Sys2Proof.BusProofs
  Sys2Proof.InvariantProofs

/-! ## The observer over a waveform in pieces -/

theorem read_append (v : WireView) (xs ys : List WireOp) :
    v.read (xs ++ ys) = (((v.read xs).1.read ys).1, (v.read xs).2 ++ ((v.read xs).1.read ys).2) := by
  induction xs generalizing v with
  | nil => rfl
  | cons x xs ih => simp only [List.cons_append, WireView.read, ih, List.append_assoc]

/-- The view of a transaction that is open between two primitives. -/
def openView (sda : Level) (bits : List (Level × Bool)) : WireView :=
  { isOpen := true, scl := false, sda := sda, pulse := none, bits := bits }

/-- The bits of a sent byte as the block drove them. -/
def blockBits (b : Byte) : List (Level × Bool) :=
  [(b.getLsbD 7, false), (b.getLsbD 6, false), (b.getLsbD 5, false), (b.getLsbD 4, false), (b.getLsbD 3, false),
    (b.getLsbD 2, false), (b.getLsbD 1, false), (b.getLsbD 0, false)]

theorem read_startWave : ({ isOpen := false, scl := true, sda := true, pulse := none, bits := [] } : WireView).read
    startWave = (openView false [], [.start]) := rfl

theorem read_restartWave (sda : Level) : (openView sda []).read (restartWave false) = (openView false [], [.restart]) := by
  cases sda <;> rfl

theorem read_stopWave (sda : Level) : (openView sda []).read (stopWave false)
    = ({ isOpen := false, scl := true, sda := true, pulse := none, bits := [] }, [.stop]) := by
  cases sda <;> rfl

/-- A bit the block drives joins its group; not even the eighth is an event, as the block drove the group. -/
theorem read_sendBitWave (sda v : Level) {bits : List (Level × Bool)} (h : bits.length < 8)
    (hb : ∀ x ∈ bits, x.2 = false) :
    (openView sda bits).read (sendBitWave false v) = (openView v (bits ++ [(v, false)]), []) := by
  have hgroup : groupFromSlave (bits ++ [(v, false)]) = false := by
    cases bits with
    | nil => rfl
    | cons x xs => exact hb x (by simp)
  have hlen : bits.length ≠ 8 := by omega
  simp [sendBitWave, WireView.read, WireView.observe, WireView.drive, WireView.commitBit, openView, hgroup, hlen]

/-- A sampled bit joins its group; the eighth completes a received byte. -/
theorem read_recvBitWave (v : Level) {bits : List (Level × Bool)} (h : bits.length < 8) :
    (openView true bits).read (recvBitWave true v) = (openView true (bits ++ [(v, true)]),
      if bits.length = 7 ∧ groupFromSlave (bits ++ [(v, true)]) = true then [.rx (byteOfBits (bits ++ [(v, true)]))]
      else []) := by
  have hlen : bits.length ≠ 8 := by omega
  simp [recvBitWave, WireView.read, WireView.observe, WireView.drive, WireView.commitBit, openView, hlen]

/-- Eight bits, most significant first, spell the byte they are the bits of (R101). -/
theorem byteOfBits_blockBits (b : Byte) : byteOfBits (blockBits b) = b := by
  apply BitVec.eq_of_getLsbD_eq
  intro k hk
  simp only [byteOfBits, blockBits, List.take, List.foldl]
  interval_cases k <;> simp

theorem byteOfBits_slaveBits (d : Byte) : byteOfBits (slaveBits d) = d := shifted_in d

theorem read_sendWave (sda : Level) (b : Byte) (a : Level) :
    (openView sda []).read (sendWave false b a) = (openView true [], [.tx b a]) := by
  have hlast : (openView (b.getLsbD 0) (blockBits b)).read
      [.drive false true, .drive true true, .waited, .sample a, .drive false true]
        = (openView true [], [.tx (byteOfBits (blockBits b)) a]) := by
    cases b.getLsbD 0 <;> rfl
  rw [byteOfBits_blockBits] at hlast
  simp [sendWave, read_append, read_sendBitWave, ← hlast, blockBits]

theorem read_recvWave (sda : Level) (d : Byte) :
    (openView sda []).read (recvWave false d) = (openView true (slaveBits d), [.rx d]) := by
  have hfirst : (openView sda []).drive false true = (openView true [], []) := rfl
  have hbits : slaveBits d = [(d.getMsbD 0, true), (d.getMsbD 1, true), (d.getMsbD 2, true), (d.getMsbD 3, true),
      (d.getMsbD 4, true), (d.getMsbD 5, true), (d.getMsbD 6, true), (d.getMsbD 7, true)] := rfl
  have hbyte := byteOfBits_slaveBits d
  rw [hbits] at hbyte ⊢
  simp [recvWave, WireView.read, WireView.observe, hfirst, read_append, read_recvBitWave, hbyte, groupFromSlave]

theorem read_mackWave (sda : Level) (d : Byte) (v : Level) :
    (openView sda (slaveBits d)).read (mackWave false v) = (openView true [], [.mack v]) := by
  cases sda <;> cases v <;> rfl

/-! ## What the observer reads of one primitive -/

/-- `t` has grown the waveform and the trace of `s` by pieces of which the first reads as the second, and leaves the
observer with the wires of `t`. -/
def ReadsBack (s t : State) : Prop :=
  ∃ w es, t.wave = s.wave ++ w ∧ t.trace = s.trace ++ es ∧ s.wireView.read w = (t.wireView, es)

theorem ReadsBack.refl (s : State) : ReadsBack s s := ⟨[], [], (List.append_nil _).symm, (List.append_nil _).symm, rfl⟩

theorem ReadsBack.trans {s t u : State} (h : ReadsBack s t) (h' : ReadsBack t u) : ReadsBack s u := by
  obtain ⟨w, es, hwave, htrace, hread⟩ := h
  obtain ⟨w', es', hwave', htrace', hread'⟩ := h'
  refine ⟨w ++ w', es ++ es', by rw [hwave', hwave, List.append_assoc], by rw [htrace', htrace, List.append_assoc], ?_⟩
  rw [read_append, hread, hread']

/-- The observer's knowledge is a function of the driver registers. -/
theorem wireView_congr {s t : State} (h : t.drv.phase = s.drv.phase) (hd : t.drv.rdata = s.drv.rdata) :
    t.wireView = s.wireView := by
  unfold State.wireView
  rw [h, hd]

theorem ReadsBack.congr {s s' t t' : State} (h : ReadsBack s t) (hs : s'.drv.phase = s.drv.phase ∧
    s'.drv.rdata = s.drv.rdata ∧ s'.wave = s.wave ∧ s'.trace = s.trace) (ht : t'.drv.phase = t.drv.phase ∧
    t'.drv.rdata = t.drv.rdata ∧ t'.wave = t.wave ∧ t'.trace = t.trace) : ReadsBack s' t' := by
  obtain ⟨w, es, hwave, htrace, hread⟩ := h
  obtain ⟨hsp, hsr, hsw, hst⟩ := hs
  obtain ⟨htp, htr, htw, htt⟩ := ht
  exact ⟨w, es, by rw [htw, hwave, hsw], by rw [htt, htrace, hst],
    by rw [wireView_congr hsp hsr, wireView_congr htp htr, hread]⟩

theorem wireView_eq (s : State) : s.wireView =
    if s.drv.phase = .idle then { isOpen := false, scl := true, sda := true, pulse := none, bits := [] }
    else openView (sdaOf s.drv.phase) (if s.drv.phase = .rdack then slaveBits s.drv.rdata else []) := by
  unfold State.wireView
  cases s.drv.phase <;> rfl

theorem wireView_sendDone (b : Byte) (s : State) : (sendDone b s).wireView = openView true [] := by
  have hphase : (sendDone b s).drv.phase = phaseAfterSend s.drv.phase b := rfl
  have hcases : phaseAfterSend s.drv.phase b = .rd ∨ phaseAfterSend s.drv.phase b = .wr := by
    unfold phaseAfterSend
    split
    · cases b.getLsbD 0 <;> simp
    · exact .inr rfl
  rw [wireView_eq, hphase]
  obtain h | h := hcases <;> rw [h] <;> rfl

/-- Of every legal primitive the observer reads its event, and then knows the wires of the phase it leads to. -/
theorem readsBack_primitiveDone {i : Instr} {s : State} {q : Phase} (hp : isPrimitive i = true)
    (hl : phaseTable i s.drv.phase = some q) (hs : WiresOfPhase s) : ReadsBack s (primitiveDone i s) := by
  have hscl := hs.scl
  cases i with
  | start =>
    obtain ⟨hidle, -⟩ := phaseTable_start_eq_some.mp hl
    refine ⟨startWave, [.start], rfl, rfl, ?_⟩
    rw [wireView_eq s, if_pos hidle, read_startWave]
    rfl
  | restart =>
    obtain ⟨hphase, -⟩ := phaseTable_restart_eq_some.mp hl
    refine ⟨restartWave s.drv.sclO, [.restart], rfl, rfl, ?_⟩
    obtain h | h := hphase
    all_goals
      rw [wireView_eq s, hscl, h]
      exact read_restartWave true
  | send b =>
    obtain ⟨hphase, -⟩ := phaseTable_send_eq_some.mp hl
    refine ⟨sendWave s.drv.sclO b (s.ackLevel b), [.tx b (s.ackLevel b)], rfl, rfl, ?_⟩
    have hafter : (primitiveDone (.send b) s).wireView = openView true [] := wireView_sendDone b s
    obtain h | h := hphase
    · rw [hafter, wireView_eq s, hscl, h]
      exact read_sendWave false b _
    · rw [hafter, wireView_eq s, hscl, h]
      exact read_sendWave true b _
  | recv =>
    obtain ⟨hphase, -⟩ := phaseTable_recv_eq_some.mp hl
    refine ⟨recvWave s.drv.sclO s.rxByte, [.rx s.rxByte], rfl, rfl, ?_⟩
    rw [wireView_eq s, hscl, hphase]
    exact read_recvWave true s.rxByte
  | mack v =>
    obtain ⟨hphase, -⟩ := phaseTable_mack_eq_some.mp hl
    refine ⟨mackWave s.drv.sclO v, [.mack v], rfl, rfl, ?_⟩
    rw [wireView_eq s, hscl, hphase]
    refine (read_mackWave true s.drv.rdata v).trans ?_
    cases v <;> rfl
  | stop =>
    obtain ⟨hphase, -⟩ := phaseTable_stop_eq_some.mp hl
    refine ⟨stopWave s.drv.sclO, [.stop], rfl, rfl, ?_⟩
    obtain h | h := hphase
    all_goals
      rw [wireView_eq s, hscl, h]
      exact read_stopWave true
  | config | bread r c | fclear | freset | fpush x | fpushc k => cases hp

theorem SameOutside.readsBack {s t u : State} (h : ReadsBack s t) (hu : SameOutside t u) : ReadsBack s u :=
  h.congr ⟨rfl, rfl, rfl, rfl⟩ ⟨by rw [hu.drv], by rw [hu.drv], hu.wave, hu.trace⟩

theorem readsBack_seqAfter {s : State} (h : SeqInv s) (hq : s.sq.seq ≠ .idle) : ReadsBack s (seqAfter s) := by
  obtain ⟨q, hl⟩ := seqPrimitive_legal h hq
  exact SameOutside.readsBack (readsBack_primitiveDone (seqPrimitive_isPrimitive s) hl (wiresOfPhase_of_seqInv h))
    (seqAfter_sameOutside hq)

theorem readsBack_seqEnd (n : Nat) {u : State} (h : SeqInv u) : ReadsBack u (seqEnd n u) :=
  seqEnd_induction (fun _ hv hq hread => hread.trans (readsBack_seqAfter hv hq)) n h (.refl u)

/-! ## Completed bus commands -/

/-- Every bus command that is complete reads back, from the empty waveform it began with. -/
theorem readsBack_effect {i : Instr} {s : State} {q : Phase} (hb : Boundary s) (hw : i.wellFormed = true)
    (hf : isFilter i = false) (hl : phaseTable i s.drv.phase = some q) (hdone : (effect i s).drv.busy = false) :
    ReadsBack (beginBus s) (effect i s) := by
  cases hp : isPrimitive i with
  | true =>
    obtain ⟨h, -⟩ | h := primitive_cases hb hp hl
    · rw [h]
      exact (readsBack_primitiveDone (s := beginBus s) hp hl ⟨hb.scl, hb.sda⟩).congr ⟨rfl, rfl, rfl, rfl⟩
        ⟨rfl, rfl, rfl, rfl⟩
    · rw [h.drv] at hdone; cases hdone
  | false =>
    have hu := latched_begin hb (idle_of_composite hp hf hl) hw hp hf
    obtain ⟨h, -⟩ | ⟨n, -, h⟩ := hu.cases hf
    · rw [h]
      exact (readsBack_seqEnd seqFuel hu.inv).congr ⟨by rw [hu.outside.drv], by rw [hu.outside.drv],
        hu.outside.wave.symm, hu.outside.trace.symm⟩ ⟨rfl, rfl, rfl, rfl⟩
    · rw [h.drv] at hdone
      rw [(hu.keeps n).busy] at hdone
      cases hdone

/-- Settles O24: the waveform of a completed bus command is that of its primitives, each of which reads as its event. -/
theorem wiresReadBackAsTheTrace : Obligations.WiresReadBackAsTheTrace := by
  intro i s t hr hw hf hlegal hx hdone
  obtain ⟨q, hl⟩ := Option.ne_none_iff_exists'.mp hlegal
  rw [exec_of_phaseTable_some hr hw hl] at hx
  cases hx
  obtain ⟨w, es, hwave, htrace, hread⟩ := readsBack_effect hr.toBoundary hw hf hl hdone
  rw [beginBus_wave, List.nil_append] at hwave
  exact ⟨es, htrace, by rw [hwave, ← hread]; rfl⟩

end Sys2Proof.WaveProofs

/-! # Who reads and who writes the flags (`10_state.md` section 9, `60_exceptions.md` section 1) -/

namespace Sys2Proof.FlagProofs
open Sys2Proof.Machine Sys2Proof.Safety Sys2Proof.Laws Sys2Proof.BusProofs

/-! ## No operation reads `ACKSTAT` or `NAKCNT` (R222) -/

/-- `s` with other acknowledge flags. -/
def withAck (a : Level) (n : BitVec 8) (s : State) : State := { s with drv := { s.drv with ackstat := a, nakcnt := n } }

/-- The two states differ at most in the acknowledge flags. -/
def AckApart (s t : State) : Prop := ∃ a n, t = withAck a n s

/-- The two runs end alike, in states that differ at most in the acknowledge flags. -/
def RunApart {α : Type} : Run α → Run α → Prop
  | .done a s, .done b t => a = b ∧ AckApart s t
  | .hang s, .hang t => AckApart s t
  | .done _ _, .hang _ => False
  | .hang _, .done _ _ => False

theorem RunApart.bind {α β : Type} {r r' : Run α} {f g : α → State → Run β} (h : RunApart r r')
    (hf : ∀ a s t, AckApart s t → RunApart (f a s) (g a t)) : RunApart (r.bind f) (r'.bind g) := by
  cases r <;> cases r'
  case done.done a s b t =>
    obtain ⟨rfl, hst⟩ := h
    exact hf a s t hst
  case hang.hang s t => exact h
  case done.hang => exact h.elim
  case hang.done => exact h.elim

/-- After a run, updates that neither read nor write the acknowledge flags and wait for nothing. -/
theorem RunApart.updates {α β : Type} {r r' : Run α} {g : α → State → β} {k : α → State → State} (h : RunApart r r')
    (hg : ∀ v a n s, g v (withAck a n s) = g v s := by intros; rfl)
    (hk : ∀ v a n s, k v (withAck a n s) = withAck a n (k v s) := by intros; rfl) :
    RunApart (r.bind fun v s => .done (g v s) (k v s)) (r'.bind fun v s => .done (g v s) (k v s)) := by
  refine h.bind ?_
  rintro v s - ⟨a, n, rfl⟩
  exact ⟨(hg v a n s).symm, a, n, hk v a n s⟩

theorem nextWrite_withAck (a : Level) (n : BitVec 8) (u : State) :
    nextWrite (withAck a n u) = withAck a n (nextWrite u) := by
  unfold nextWrite
  have hsame : (withAck a n u).sq = u.sq := rfl
  rw [hsame]
  split <;> rfl

section Wire
variable {s t : State} (h : AckApart s t)
include h

theorem waitUntil_apart (p : WaitPoint) : RunApart (waitUntil p s) (waitUntil p t) := by
  obtain ⟨a, n, rfl⟩ := h
  have hsame : ((withAck a n s).wiresReleased p && (withAck a n s).releases p) = (s.wiresReleased p && s.releases p) :=
    rfl
  unfold waitUntil
  rw [hsame]
  split
  · exact ⟨rfl, a, n, rfl⟩
  · exact ⟨a, n, rfl⟩

theorem wireStart_apart : RunApart (wireStart s) (wireStart t) :=
  (waitUntil_apart h _).updates

theorem wireRestart_apart : RunApart (wireRestart s) (wireRestart t) := by
  obtain ⟨a, n, rfl⟩ := h
  exact (waitUntil_apart (s := setScl true (setSda true s)) ⟨a, n, rfl⟩ _).updates

theorem wireSendBit_apart : RunApart (wireSendBit s) (wireSendBit t) := by
  obtain ⟨a, n, rfl⟩ := h
  exact (waitUntil_apart (s := setScl true (setSda (s.sq.shreg.getLsbD 7) s)) ⟨a, n, rfl⟩ _).updates

omit h in
theorem wireSendBits_apart (k : Nat) {s t : State} (h : AckApart s t) :
    RunApart (wireSendBits k s) (wireSendBits k t) := by
  induction k generalizing s t with
  | zero => exact ⟨rfl, h⟩
  | succ k ih => exact (wireSendBit_apart h).bind fun _ _ _ => ih

theorem wireSendAck_apart (slave : Level) : RunApart (wireSendAck slave s) (wireSendAck slave t) := by
  obtain ⟨a, n, rfl⟩ := h
  exact (waitUntil_apart (s := setScl true (setSda true s)) ⟨a, n, rfl⟩ _).updates

theorem wireSend_apart (b : Byte) (slave : Level) : RunApart (wireSend b slave s) (wireSend b slave t) := by
  obtain ⟨a, n, rfl⟩ := h
  exact (wireSendBits_apart 8 (s := loadShift b s) ⟨a, n, rfl⟩).bind fun _ _ _ hst => wireSendAck_apart hst slave

theorem wireRecvBit_apart (d : Byte) : RunApart (wireRecvBit d s) (wireRecvBit d t) := by
  obtain ⟨a, n, rfl⟩ := h
  exact (waitUntil_apart (s := setScl true s) ⟨a, n, rfl⟩ _).updates

omit h in
theorem wireRecvBits_apart (d : Byte) (k : Nat) {s t : State} (h : AckApart s t) :
    RunApart (wireRecvBits d k s) (wireRecvBits d k t) := by
  induction k generalizing s t with
  | zero => exact ⟨rfl, h⟩
  | succ k ih => exact (wireRecvBit_apart h d).bind fun _ _ _ => ih

theorem wireRecv_apart (d : Byte) : RunApart (wireRecv d s) (wireRecv d t) := by
  obtain ⟨a, n, rfl⟩ := h
  exact (wireRecvBits_apart d 8 (s := loadShift 0 (setSda true s)) ⟨a, n, rfl⟩).updates

theorem wireMack_apart (v : Level) : RunApart (wireMack v s) (wireMack v t) := by
  obtain ⟨a, n, rfl⟩ := h
  exact (waitUntil_apart (s := setScl true (setSda v s)) ⟨a, n, rfl⟩ _).updates

theorem wireStop_apart : RunApart (wireStop s) (wireStop t) := by
  obtain ⟨a, n, rfl⟩ := h
  refine (waitUntil_apart (s := setScl true (setSda false s)) ⟨a, n, rfl⟩ _).bind ?_
  rintro - u - ⟨a, n, rfl⟩
  exact waitUntil_apart (s := setSda true u) ⟨a, n, rfl⟩ _

end Wire

/-! ### The primitives and the sequencer -/

section Primitives
variable {s t : State} (h : AckApart s t)
include h

theorem doStart_apart : RunApart (doStart s) (doStart t) :=
  (wireStart_apart h).updates

theorem doRestart_apart : RunApart (doRestart s) (doRestart t) :=
  (wireRestart_apart h).updates

/-- SEND is the one primitive that writes the flags; it counts from what it finds, and nothing else sees the count. -/
theorem doSend_apart (b : Byte) : RunApart (doSend b s) (doSend b t) := by
  have hack : t.ackLevel b = s.ackLevel b := by obtain ⟨a, n, rfl⟩ := h; rfl
  unfold doSend
  rw [hack]
  refine (wireSend_apart h b _).bind ?_
  rintro level u - ⟨a, n, rfl⟩
  exact ⟨rfl, level, nakCount n level, rfl⟩

theorem doRecv_apart : RunApart (doRecv s) (doRecv t) := by
  have hbyte : t.rxByte = s.rxByte := by obtain ⟨a, n, rfl⟩ := h; rfl
  unfold doRecv
  rw [hbyte]
  exact (wireRecv_apart h _).updates

theorem doMack_apart (v : Level) : RunApart (doMack v s) (doMack v t) :=
  (wireMack_apart h v).updates

theorem doStop_apart : RunApart (doStop s) (doStop t) :=
  (wireStop_apart h).updates

theorem seqStep_apart : RunApart (seqStep s) (seqStep t) := by
  have hsq : t.sq = s.sq := by obtain ⟨a, n, rfl⟩ := h; rfl
  unfold seqStep
  rw [hsq]
  cases s.sq.seq with
  | idle => exact ⟨rfl, h⟩
  | start | cstart => exact (doStart_apart h).updates
  | addrW | caddr | reg | creg | addrR | cval => exact (doSend_apart h _).updates
  | restart => exact (doRestart_apart h).updates
  | recv => exact (doRecv_apart h).updates
  | mack => exact (doMack_apart h _).updates
  | stop => exact (doStop_apart h).updates
  | cstop => exact (doStop_apart h).updates (hk := fun _ => nextWrite_withAck)

end Primitives

theorem runSeq_apart (k : Nat) {s t : State} (h : AckApart s t) : RunApart (runSeq k s) (runSeq k t) := by
  induction k generalizing s t with
  | zero => exact ⟨rfl, h⟩
  | succ k ih =>
    have hsq : t.sq = s.sq := by obtain ⟨a, n, rfl⟩ := h; rfl
    unfold runSeq
    rw [hsq]
    split
    · exact ⟨rfl, h⟩
    · exact (seqStep_apart h).bind fun _ _ _ => ih

/-! ### Commands -/

theorem busRun_apart (i : Instr) {s t : State} (h : AckApart s t) : RunApart (busRun i s) (busRun i t) := by
  cases i with
  | start => exact doStart_apart h
  | restart => exact doRestart_apart h
  | send b => exact doSend_apart h b
  | recv => exact doRecv_apart h
  | mack v => exact doMack_apart h v
  | stop => exact doStop_apart h
  | config =>
    obtain ⟨a, n, rfl⟩ := h
    exact runSeq_apart seqFuel (s := latchConfig s) ⟨a, n, rfl⟩
  | bread r c =>
    obtain ⟨a, n, rfl⟩ := h
    exact runSeq_apart seqFuel (s := latchBread r c s) ⟨a, n, rfl⟩
  | fclear | freset | fpush x | fpushc k => exact ⟨rfl, h⟩

theorem busCommand_apart {r r' : State → Run Unit} {s t : State} (h : RunApart (r (beginBus s)) (r' (beginBus t))) :
    AckApart (busCommand r s) (busCommand r' t) := by
  unfold busCommand
  cases hr : r (beginBus s) <;> cases hr' : r' (beginBus t) <;> rw [hr, hr'] at h
  case done.done a u b v =>
    obtain ⟨-, a, n, rfl⟩ := h
    exact ⟨a, n, rfl⟩
  case hang.hang => exact h
  case done.hang => exact h.elim
  case hang.done => exact h.elim

theorem effect_apart (i : Instr) {s t : State} (h : AckApart s t) : AckApart (effect i s) (effect i t) := by
  cases hf : isFilter i with
  | true =>
    obtain ⟨a, n, rfl⟩ := h
    cases i with
    | fclear | freset | fpush x | fpushc k => exact ⟨a, n, rfl⟩
    | start | restart | send b | recv | mack v | stop | config | bread r c => cases hf
  | false =>
    rw [effect_eq_busCommand hf]
    obtain ⟨a, n, rfl⟩ := h
    exact busCommand_apart (busRun_apart i (s := beginBus s) ⟨a, n, rfl⟩)

theorem raiseCmdError_withAck (e : CmdError) (w : Command) (a : Level) (n : BitVec 8) (s : State) :
    raiseCmdError e w (withAck a n s) = withAck a n (raiseCmdError e w s) := by
  unfold raiseCmdError
  have hsame : (withAck a n s).errf = s.errf := rfl
  rw [hsame]
  split <;> rfl

theorem AckApart.ite {c : Prop} [Decidable c] {s s' t t' : State} (hs : AckApart s s') (ht : AckApart t t') :
    AckApart (if c then s else t) (if c then s' else t') := by
  split
  · exact hs
  · exact ht

/-- The checks of R223 read no acknowledge flag either. -/
theorem exec_apart (i : Instr) {s t : State} (h : AckApart s t) :
    ∃ u v, exec i s = .next u ∧ exec i t = .next v ∧ AckApart u v := by
  have heffect := effect_apart i h
  rw [exec_eq_command, exec_eq_command]
  refine ⟨_, _, rfl, rfl, ?_⟩
  obtain ⟨a, n, rfl⟩ := h
  exact .ite ⟨a, n, rfl⟩ (.ite ⟨a, n, rfl⟩ (.ite ⟨a, n, raiseCmdError_withAck _ _ a n s⟩
    (.ite ⟨a, n, raiseCmdError_withAck _ _ a n s⟩ heffect)))

/-- Settles O23: runs from two states that differ in the flags alone go on side by side. -/
theorem acknowledgeFlagsAreNeverTested : Obligations.AcknowledgeFlagsAreNeverTested := by
  intro i s a n
  obtain ⟨u, v, hu, hv, a', n', rfl⟩ := exec_apart i (s := s) ⟨a, n, rfl⟩
  exact ⟨u, _, hu, hv, rfl⟩

end Sys2Proof.FlagProofs

/-! # What each command leaves alone, from whatever state it is presented in (`10_state.md` section 9) -/

namespace Sys2Proof.WriterProofs
open Sys2Proof.Machine Sys2Proof.Safety Sys2Proof.Laws Sys2Proof.FilterProofs Sys2Proof.BusProofs

/-! ## A bus command from any state, a command boundary or not -/

/-- The state a run ends in, done or hanging. -/
def runEnd {α : Type} : Run α → State
  | .done _ s => s
  | .hang s => s

/-- The run is done in `t`, or hangs within a wire operation. -/
def DoneOrWaits (r : Run Unit) (s t : State) : Prop := r = .done () t ∨ ∃ x, r = .hang x ∧ WireOnly s x

theorem doneOrWaits_of_spec {n : Nat} {r : Run Unit} {s t : State} (h : Spec n s r () t (WireOnly s)) :
    DoneOrWaits r s t := by
  cases hr : r with
  | done a x =>
    obtain ⟨-, rfl, -⟩ := h.done a x hr
    exact .inl rfl
  | hang x => exact .inr ⟨x, rfl, h.hang x hr⟩

/-- START waits for ever on a wire the block itself drives low (R25). -/
theorem doStart_doneOrWaits (s : State) : DoneOrWaits (doStart s) s (startDone s) := by
  by_cases h : s.drv.sclO = true ∧ s.drv.sdaO = true
  · exact doneOrWaits_of_spec (doStart_spec s h.1 h.2)
  · have hdriven : s.wiresReleased .start = false := by
      simpa [State.wiresReleased, waitNeedsClock, waitNeedsData] using h
    exact .inr ⟨s, by simp [doStart, wireStart, waitUntil, hdriven], .refl s⟩

theorem busRun_doneOrWaits {i : Instr} (hp : isPrimitive i = true) (s : State) :
    DoneOrWaits (busRun i s) s (primitiveDone i s) := by
  cases i with
  | start => exact doStart_doneOrWaits s
  | restart => exact doneOrWaits_of_spec (doRestart_spec s)
  | send b => exact doneOrWaits_of_spec (doSend_spec b s)
  | recv => exact doneOrWaits_of_spec (doRecv_spec s)
  | mack v => exact doneOrWaits_of_spec (doMack_spec v s)
  | stop => exact doneOrWaits_of_spec (doStop_spec s)
  | config | bread r c | fclear | freset | fpush x | fpushc k => cases hp

theorem seqStep_doneOrWaits (s : State) : DoneOrWaits (seqStep s) s (seqAfter s) := by
  by_cases h : s.sq.seq = .start ∨ s.sq.seq = .cstart
  · have hstart := doStart_doneOrWaits s
    obtain h | h := h
    all_goals
      unfold seqStep seqAfter
      rw [h]
      obtain hdone | ⟨x, hhang, hw⟩ := hstart
      · exact .inl (by rw [hdone]; rfl)
      · exact .inr ⟨x, by rw [hhang]; rfl, hw⟩
  · exact doneOrWaits_of_spec (seqStep_spec s fun h' => absurd h' h)

theorem DoneOrWaits.keeps {r : Run Unit} {s t : State} (h : DoneOrWaits r s t) (ht : SeqKeeps s t) :
    SeqKeeps s (runEnd r) := by
  obtain rfl | ⟨x, rfl, hw⟩ := h
  · exact ht
  · exact hw.seqKeeps

theorem runSeq_keeps (n : Nat) (s : State) : SeqKeeps s (runEnd (runSeq n s)) := by
  induction n generalizing s with
  | zero => exact .refl s
  | succ n ih =>
    unfold runSeq
    split
    · exact .refl s
    · obtain hdone | ⟨x, hhang, hw⟩ := seqStep_doneOrWaits s
      · rw [hdone, bind_done]
        exact (seqAfter_keeps s).trans (ih _)
      · rw [hhang]
        exact hw.seqKeeps

theorem primitiveDone_keeps (i : Instr) (s : State) : SeqKeeps s (primitiveDone i s) := by
  cases i with
  | start | restart | send b | recv | mack v | stop => exact ⟨rfl, rfl, rfl, rfl, [_], rfl, rfl⟩
  | config | bread r c | fclear | freset | fpush x | fpushc k => exact .refl s

theorem busRun_keeps (i : Instr) (s : State) : SeqKeeps s (runEnd (busRun i s)) := by
  cases hp : isPrimitive i with
  | true => exact (busRun_doneOrWaits hp s).keeps (primitiveDone_keeps i s)
  | false =>
    cases i with
    | config =>
      exact SeqKeeps.trans (t := latchConfig s) ⟨rfl, rfl, rfl, rfl, [], (List.append_nil _).symm, rfl⟩
        (runSeq_keeps seqFuel _)
    | bread r c =>
      exact SeqKeeps.trans (t := latchBread r c s) ⟨rfl, rfl, rfl, rfl, [], (List.append_nil _).symm, rfl⟩
        (runSeq_keeps seqFuel _)
    | fclear | freset | fpush x | fpushc k => exact .refl s
    | start | restart | send b | recv | mack v | stop => cases hp

/-- A completed command clears `BUSY` and the shift register; a stuck one is left as it hangs. -/
theorem busCommand_eq (r : State → Run Unit) (s : State) :
    busCommand r s = endBus (runEnd (r (beginBus s))) ∨ busCommand r s = runEnd (r (beginBus s)) := by
  unfold busCommand
  cases r (beginBus s) with
  | done a t => exact .inl rfl
  | hang t => exact .inr rfl

/-- No bus command reaches the filter bank or the error registers. -/
theorem effect_bus_keeps {i : Instr} (hf : isFilter i = false) (s : State) :
    (effect i s).fb = s.fb ∧ (effect i s).err = s.err := by
  obtain ⟨-, herr, hfb, -⟩ := busRun_keeps i (beginBus s)
  rw [effect_eq_busCommand hf]
  obtain h | h := busCommand_eq (busRun i) s <;> rw [h] <;> exact ⟨hfb, herr⟩

/-- The primitives but SEND leave the acknowledge flags alone. -/
theorem effect_keeps_ack {i : Instr} (hp : isPrimitive i = true) (hns : ∀ b, i ≠ .send b) (s : State) :
    (effect i s).drv.ackstat = s.drv.ackstat ∧ (effect i s).drv.nakcnt = s.drv.nakcnt := by
  have hend : (runEnd (busRun i (beginBus s))).drv.ackstat = s.drv.ackstat ∧
      (runEnd (busRun i (beginBus s))).drv.nakcnt = s.drv.nakcnt := by
    obtain h | ⟨x, h, hw⟩ := busRun_doneOrWaits hp (beginBus s)
    · rw [h]
      cases i with
      | send b => exact absurd rfl (hns b)
      | start | restart | recv | mack v | stop => exact ⟨rfl, rfl⟩
      | config | bread r c | fclear | freset | fpush x | fpushc k => cases hp
    · rw [h, runEnd, hw.drv]
      exact ⟨rfl, rfl⟩
  rw [effect_eq_busCommand (isFilter_of_isPrimitive hp)]
  obtain h | h := busCommand_eq (busRun i) s <;> rw [h] <;> exact hend

/-! ## The flags of the filter bank -/

theorem push_armed (f : FilterBank) (x : Sample) : (f.push x).armed = (f.armed && decide (f.idx.toNat ≠ 99)) := by
  cases ha : f.armed with
  | false => rw [push_of_disarmed x ha, ha]; rfl
  | true => by_cases h : f.idx.toNat = 99 <;> simp [ha, FilterBank.armedPush, Config.winLen, h]

theorem push_ovalid (f : FilterBank) (x : Sample) : (f.push x).ovalid = (f.ovalid || f.armed) := by
  cases ha : f.armed with
  | false => rw [push_of_disarmed x ha, Bool.or_false]
  | true => rw [push_of_armed x ha, Bool.or_true]; rfl

/-! ## Each flag by its writers -/

/-- What a command `i` from `s` to `t` may have written of the flags, the filter bank and the error registers. -/
structure WritesOwn (i : Instr) (s t : State) : Prop where
  ack : t.drv.ackstat ≠ s.drv.ackstat ∨ t.drv.nakcnt ≠ s.drv.nakcnt →
    i = .config ∨ (∃ b, i = .send b) ∨ ∃ r c, i = .bread r c
  bank : t.fb ≠ s.fb → isFilter i = true
  filter : isFilter i = true → t.trace = s.trace ∧ t.drv = s.drv ∧ t.rx = s.rx ∧ t.sq = s.sq
  arms : s.fb.armed = false → t.fb.armed = true → i = .freset
  disarms : s.fb.armed = true → t.fb.armed = false →
    i = .fclear ∨ (((∃ x, i = .fpush x) ∨ ∃ k, i = .fpushc k) ∧ s.fb.idx.toNat = 99)
  validates : s.fb.ovalid = false → t.fb.ovalid = true → (∃ x, i = .fpush x) ∨ ∃ k, i = .fpushc k
  invalidates : s.fb.ovalid = true → t.fb.ovalid = false → i = .fclear ∨ i = .freset
  error : t.err ≠ s.err → s.drv.busy = false ∧ s.err.errcode = none ∧ t.err.errcmd = encode i

/-- A command that has left the filter bank and the bus registers alone. -/
theorem writesOwn_of_kept {i : Instr} {s t : State} (hfb : t.fb = s.fb) (hack : t.drv.ackstat ≠ s.drv.ackstat ∨
    t.drv.nakcnt ≠ s.drv.nakcnt → i = .config ∨ (∃ b, i = .send b) ∨ ∃ r c, i = .bread r c)
    (hfilter : isFilter i = true → t.trace = s.trace ∧ t.drv = s.drv ∧ t.rx = s.rx ∧ t.sq = s.sq)
    (herr : t.err ≠ s.err → s.drv.busy = false ∧ s.err.errcode = none ∧ t.err.errcmd = encode i) :
    WritesOwn i s t where
  ack := hack
  bank h := absurd hfb h
  filter := hfilter
  arms h h' := by rw [hfb, h] at h'; cases h'
  disarms h h' := by rw [hfb, h] at h'; cases h'
  validates h h' := by rw [hfb, h] at h'; cases h'
  invalidates h h' := by rw [hfb, h] at h'; cases h'
  error := herr

/-- A command that is ignored or raises an error writes the error registers at most. -/
theorem writesOwn_errorRegs {i : Instr} {s : State} (r : ErrorRegs)
    (herr : r ≠ s.err → s.drv.busy = false ∧ s.err.errcode = none ∧ r.errcmd = encode i) :
    WritesOwn i s { s with err := r } :=
  writesOwn_of_kept rfl (fun h => by simp at h) (fun _ => ⟨rfl, rfl, rfl, rfl⟩) herr

theorem writesOwn_bus {i : Instr} (hf : isFilter i = false) (s : State) : WritesOwn i s (effect i s) := by
  obtain ⟨hfb, herr⟩ := effect_bus_keeps hf s
  have hkept := effect_keeps_ack (i := i) (s := s)
  refine writesOwn_of_kept hfb (fun h => ?_) (fun h => by rw [hf] at h; cases h) fun h => absurd herr h
  cases i with
  | send b => exact .inr (.inl ⟨b, rfl⟩)
  | config => exact .inl rfl
  | bread r c => exact .inr (.inr ⟨r, c, rfl⟩)
  | start | restart | recv | mack v | stop =>
    obtain ⟨hack, hnak⟩ := hkept rfl nofun
    exact absurd h (by simp [hack, hnak])
  | fclear | freset | fpush x | fpushc k => cases hf

/-- A filter command, by what it does to the two flags of the bank. -/
theorem writesOwn_filterCommand {i : Instr} {s : State} {g : FilterBank → FilterBank} (hf : isFilter i = true)
    (arms : s.fb.armed = false → (g s.fb).armed = true → i = .freset)
    (disarms : s.fb.armed = true → (g s.fb).armed = false →
      i = .fclear ∨ (((∃ x, i = .fpush x) ∨ ∃ k, i = .fpushc k) ∧ s.fb.idx.toNat = 99))
    (validates : s.fb.ovalid = false → (g s.fb).ovalid = true → (∃ x, i = .fpush x) ∨ ∃ k, i = .fpushc k)
    (invalidates : s.fb.ovalid = true → (g s.fb).ovalid = false → i = .fclear ∨ i = .freset) :
    WritesOwn i s (filterCommand g s) where
  ack h := by simp at h
  bank _ := hf
  filter _ := ⟨rfl, rfl, rfl, rfl⟩
  arms := arms
  disarms := disarms
  validates := validates
  invalidates := invalidates
  error h := absurd rfl h

theorem writesOwn_push {i : Instr} (hi : (∃ x, i = .fpush x) ∨ ∃ k, i = .fpushc k) (hf : isFilter i = true) (s : State)
    (x : Sample) : WritesOwn i s (filterCommand (fun f => f.push x) s) := by
  refine writesOwn_filterCommand hf (fun h h' => ?_) (fun h h' => .inr ⟨hi, ?_⟩) (fun _ _ => hi) fun h h' => ?_
  · rw [push_armed, h] at h'; cases h'
  · rwa [push_armed, h, Bool.true_and, decide_eq_false_iff_not, not_not] at h'
  · rw [push_ovalid, h] at h'; cases h'

theorem writesOwn_filter {i : Instr} (hf : isFilter i = true) (s : State) : WritesOwn i s (effect i s) := by
  cases i with
  | fclear =>
    exact writesOwn_filterCommand (g := fun _ => FilterBank.reset) hf nofun (fun _ _ => .inl rfl) nofun
      fun _ _ => .inl rfl
  | freset =>
    exact writesOwn_filterCommand (g := fun _ => freshBank) hf (fun _ _ => rfl) nofun nofun fun _ _ => .inr rfl
  | fpush x => exact writesOwn_push (.inl ⟨x, rfl⟩) hf s x
  | fpushc k => exact writesOwn_push (.inr ⟨k, rfl⟩) hf s (s.rx.channel k.toNat)
  | start | restart | send b | recv | mack v | stop | config | bread r c => cases hf

/-- Everything a presented command can do writes only what is the command's own. -/
theorem exec_writesOwn (i : Instr) (s : State) : ∃ t, exec i s = .next t ∧ WritesOwn i s t := by
  rw [exec_eq_command]
  obtain ⟨h, -⟩ | ⟨hb, he, ⟨-, h⟩ | ⟨-, -, h⟩ | ⟨-, -, h⟩⟩ := command_cases i (effect i) s
  · exact ⟨s, h, writesOwn_errorRegs s.err fun hne => absurd rfl hne⟩
  · exact ⟨_, h, writesOwn_errorRegs _ fun _ => ⟨hb, he, rfl⟩⟩
  · exact ⟨_, h, writesOwn_errorRegs _ fun _ => ⟨hb, he, rfl⟩⟩
  · refine ⟨_, h, ?_⟩
    cases hf : isFilter i with
    | true => exact writesOwn_filter hf s
    | false => exact writesOwn_bus hf s

/-- Settles O38, over everything a presented command can do in any state. -/
theorem flagsHaveTheirWriters : Obligations.FlagsHaveTheirWriters := by
  intro i s
  obtain ⟨t, ht, h⟩ := exec_writesOwn i s
  exact ⟨t, ht, h.ack, h.bank, h.filter, h.arms, h.disarms, h.validates, h.invalidates, h.error⟩

end Sys2Proof.WriterProofs

/-! # The composite commands: what they record, and that they are their primitives (`41_imu_protocol.md` R160 to R168) -/

namespace Sys2Proof.CompositeProofs
open Sys2Proof.Machine Sys2Proof.Safety Sys2Proof.Laws Sys2Proof.PrimitiveProofs Sys2Proof.BusProofs
  Sys2Proof.InvariantProofs Sys2Proof.CompletionProofs

/-! ## The traffic of a sequence of primitives (R13, R163, R168) -/

/-- The bus after a sequence of completed primitives, as far as the environment's answers depend on it. -/
def busAfterAll (is : List Instr) (s : State) : State := is.foldl (fun s i => busAfter i s) s

theorem trafficOf_append (is js : List Instr) (s : State) :
    trafficOf (is ++ js) s = trafficOf is s ++ trafficOf js (busAfterAll is s) := by
  induction is generalizing s with
  | nil => rfl
  | cons i is ih => rw [List.cons_append, trafficOf, trafficOf, ih, List.append_assoc]; rfl

theorem length_receivedBytes_trafficOf (is : List Instr) (s : State) :
    (receivedBytes (trafficOf is s)).length = is.count .recv := by
  induction is generalizing s with
  | nil => rfl
  | cons i is ih =>
    rw [trafficOf, receivedBytes_append, List.length_append, ih, receivedBytes_primitiveEvent, List.count_cons]
    by_cases hi : i = .recv
    · simp [hi, Nat.add_comm]
    · simp [hi]

theorem trafficOf_writePrimitives (r v : Byte) (s : State) :
    ∃ a0 a1 a2, trafficOf (writePrimitives r v) s = memWriteEvents r v a0 a1 a2 := ⟨_, _, _, rfl⟩

theorem burstEvents_cons (d : Byte) (ds : List Byte) :
    burstEvents (d :: ds) = .rx d :: .mack ds.isEmpty :: burstEvents ds := by
  cases ds <;> rfl

theorem trafficOf_burstPrimitives (n : Nat) (s : State) :
    ∃ ds : List Byte, ds.length = n ∧ trafficOf (burstPrimitives n) s = burstEvents ds := by
  induction n generalizing s with
  | zero => exact ⟨[], rfl, rfl⟩
  | succ n ih =>
    obtain ⟨ds, hlen, hds⟩ := ih (busAfterAll [.recv, .mack (n == 0)] s)
    have hlast : ds.isEmpty = (n == 0) := by rw [← hlen]; cases ds <;> rfl
    refine ⟨s.rxByte :: ds, by rw [List.length_cons, hlen], ?_⟩
    rw [burstPrimitives_succ, burstEvents_cons, hlast, ← hds]
    rfl

/-- The primitives of a burst read before its first byte. -/
def breadHeader (r : Byte) : List Instr := [.start, .send 0xD6#8, .send r, .restart, .send 0xD7#8]

theorem trafficOf_breadHeader (r : Byte) (s : State) :
    ∃ a0 a1 a2, trafficOf (breadHeader r) s = [.start, .tx 0xD6#8 a0, .tx r a1, .restart, .tx 0xD7#8 a2] :=
  ⟨_, _, _, rfl⟩

theorem trafficOf_breadPrimitives (r : Byte) (n : Nat) (s : State) :
    ∃ (ds : List Byte) (a0 a1 a2 : Level), ds.length = n ∧
      trafficOf (breadPrimitives r n) s = memReadEvents r ds a0 a1 a2 := by
  obtain ⟨a0, a1, a2, hhead⟩ := trafficOf_breadHeader r s
  obtain ⟨ds, hlen, hds⟩ := trafficOf_burstPrimitives n (busAfterAll (breadHeader r) s)
  refine ⟨ds, a0, a1, a2, hlen, ?_⟩
  rw [show breadPrimitives r n = breadHeader r ++ burstPrimitives n ++ [.stop] from rfl, trafficOf_append,
    trafficOf_append, hhead, hds]
  rfl

theorem sentLevels_burstEvents (ds : List Byte) : sentLevels (burstEvents ds) = [] := by
  induction ds with
  | nil => rfl
  | cons d ds ih => rw [burstEvents_cons]; exact ih

theorem receivedBytes_burstEvents (ds : List Byte) : receivedBytes (burstEvents ds) = ds := by
  induction ds with
  | nil => rfl
  | cons d ds ih => rw [burstEvents_cons]; exact congrArg (d :: ·) ih

theorem sentLevels_memReadEvents (r : Byte) (ds : List Byte) (a0 a1 a2 : Level) :
    sentLevels (memReadEvents r ds a0 a1 a2) = [a0, a1, a2] := by
  rw [memReadEvents, sentLevels_append, sentLevels_append, sentLevels_burstEvents]
  rfl

theorem receivedBytes_memReadEvents (r : Byte) (ds : List Byte) (a0 a1 a2 : Level) :
    receivedBytes (memReadEvents r ds a0 a1 a2) = ds := by
  rw [memReadEvents, receivedBytes_append, receivedBytes_append, receivedBytes_burstEvents]
  simp [receivedBytes]

/-! ## What a composite command has recorded, complete or stuck -/

theorem endBus_recordedFrom (s : State) : RecordedFrom [] s (endBus s) := { RecordedFrom.refl s with }

theorem sameBus_of_latched {i : Instr} {s u : State} (hu : Latched i s u) : SameBus s u :=
  ⟨hu.outside.trace, by rw [hu.outside.env]; rfl, hu.outside.choice⟩

/-- After `n` of its states the sequencer has performed the first `n` of the command's primitives. -/
theorem seqEnd_recordedFrom {i : Instr} {s u : State} (hu : Latched i s u) (n : Nat) :
    RecordedFrom (trafficOf ((primitivesOf i).take n) s) u (seqEnd n u) := by
  have h := seqEnd_recorded n u hu.inv
  rwa [hu.prims, (sameBus_of_latched hu).traffic] at h

theorem length_primitivesOf {i : Instr} {s u : State} (hu : Latched i s u) : (primitivesOf i).length = seqStates u := by
  rw [← hu.prims, length_seqPrims u hu.inv]

/-- A complete composite command has performed all of its primitives. -/
theorem completed_recordedFrom {i : Instr} {s u : State} (hu : Latched i s u) :
    RecordedFrom (trafficOf (primitivesOf i) s) u (endBus (seqEnd seqFuel u)) := by
  have h := (seqEnd_recordedFrom hu seqFuel).trans (endBus_recordedFrom _)
  rwa [List.append_nil, List.take_of_length_le (by rw [length_primitivesOf hu]; exact hu.fuel)] at h

/-- The receive buffer is filled from index 0 on, as BREAD clears the count and CONFIG receives nothing. -/
theorem recorded_of_recordedFrom {i : Instr} {s u t : State} {es : List BusEvent} (hu : Latched i s u)
    (h : RecordedFrom es u t) (hz : i = .config → receivedBytes es = []) : Recorded es s t where
  trace := by rw [h.trace, hu.outside.trace]; rfl
  peer := by rw [h.peer, hu.outside.env]; rfl
  ackstat := by rw [h.ackstat, hu.outside.drv]; rfl
  nakcnt := by rw [h.nakcnt, hu.outside.drv]; rfl
  rdata := by rw [h.rdata, hu.outside.drv]; rfl
  rxbuf j := by
    have hbyte : u.rx.byte j = s.rx.byte j := by rw [hu.rx]; rfl
    rw [h.rxbuf, hbyte]
    by_cases hi : i = .config
    · simp [hz hi]
    · have hcnt : u.rx.rxcnt = 0 := by rw [hu.rx, if_neg hi]
      simp [hcnt]
  err := h.err.trans hu.outside.err
  fb := h.fb.trans hu.outside.fb
  host := h.host.trans hu.outside.host

/-! ### The receive buffer -/

/-- CONFIG receives nothing. -/
theorem receivedBytes_config (n : Nat) (s : State) : receivedBytes (trafficOf (configPrimitives.take n) s) = [] := by
  have hnone : configPrimitives.count .recv = 0 := by
    simp [configPrimitives, writePrimitives]
  have hsub := (List.take_sublist n configPrimitives).count_le .recv
  rw [← List.length_eq_zero_iff, length_receivedBytes_trafficOf]
  omega

/-- Within CONFIG, or at its end, the receive buffer is that of `s`. -/
structure ConfigKeepsRx (s v : State) : Prop where
  rx : v.rx = s.rx
  seq : inConfig v.sq.seq = true ∨ v.sq.seq = .idle

/-- The states of CONFIG leave the receive buffer alone and lead to one another or to `S_IDLE`. -/
theorem ConfigKeepsRx.seqAfter {s v : State} (h : ConfigKeepsRx s v) (hq : v.sq.seq ≠ .idle) :
    ConfigKeepsRx s (seqAfter v) := by
  have hrx := h.rx
  have hseq := h.seq.resolve_right hq
  unfold Laws.seqAfter
  cases hv : v.sq.seq with
  | cstart | caddr | creg | cval => exact ⟨hrx, .inl rfl⟩
  | cstop =>
    refine ⟨(nextWrite_rx _).trans hrx, ?_⟩
    rw [nextWrite_sq]
    split
    · exact .inl rfl
    · exact .inr rfl
  | idle | start | addrW | reg | restart | addrR | recv | mack | stop => rw [hv] at hseq; cases hseq

theorem seqEnd_config_rx {s u : State} (hu : Latched .config s u) (hc : inConfig u.sq.seq = true) (n : Nat) :
    (seqEnd n u).rx = s.rx :=
  (seqEnd_induction (P := ConfigKeepsRx s) (fun _ _ hq hv => hv.seqAfter hq) n hu.inv ⟨hu.rx, .inl hc⟩).rx

/-- BREAD's count is the number of bytes received so far. -/
theorem rxcnt_of_recordedFrom {i : Instr} {s u t : State} {es : List BusEvent} (hu : Latched i s u)
    (h : RecordedFrom es u t) (hi : i ≠ .config) : t.rx.rxcnt.toNat = (receivedBytes es).length := by
  rw [h.rxcnt, hu.rx, if_neg hi]
  exact Nat.zero_add _

/-! ### In any environment -/

/-- Everything a composite command can do: `n` of its primitives are performed and recorded, all of them if it is complete,
fewer if it is stuck. -/
theorem Latched.outcome {i : Instr} {s u : State} (hu : Latched i s u) (hf : isFilter i = false) :
    ∃ n, RecordedFrom (trafficOf ((primitivesOf i).take n) s) u (effect i s) ∧
      (∃ m, (effect i s).rx = (seqEnd m u).rx) ∧
      ((n = (primitivesOf i).length ∧ (effect i s).drv.phase = .idle ∧ Boundary (effect i s)) ∨
        (n < (primitivesOf i).length ∧ (effect i s).drv.busy = true)) := by
  obtain ⟨hdone, -⟩ | ⟨n, hn, hw⟩ := hu.cases hf
  · obtain ⟨hboundary, hphase⟩ := endBus_seqEnd_boundary seqFuel u hu.inv hu.idleRegs hu.fuel
    refine ⟨(primitivesOf i).length, ?_, ⟨seqFuel, by rw [hdone]; rfl⟩, .inl ⟨rfl, ?_, ?_⟩⟩ <;> rw [hdone]
    · rw [List.take_length]; exact completed_recordedFrom hu
    · exact hphase
    · exact hboundary
  · refine ⟨n, ?_, ⟨n, hw.rx⟩, .inr ⟨?_, ?_⟩⟩
    · rw [← List.append_nil (trafficOf _ _)]
      exact (seqEnd_recordedFrom hu n).trans hw.recordedFrom
    · rwa [length_primitivesOf hu]
    · rw [hw.drv]
      exact (hu.keeps n).busy

/-- A legal composite command in `IDLE` has its effect. -/
theorem exec_composite {i : Instr} {s : State} (hr : Ready s) (hidle : s.drv.phase = .idle) (hw : i.wellFormed = true)
    (hp : isPrimitive i = false) (hf : isFilter i = false) : exec i s = .next (effect i s) := by
  refine exec_of_phaseTable_some (p := .idle) hr hw ?_
  cases i with
  | config => exact phaseTable_config_eq_some.mpr ⟨hidle, rfl⟩
  | bread r c => exact phaseTable_bread_eq_some.mpr ⟨hidle, rfl⟩
  | start | restart | send b | recv | mack v | stop => cases hp
  | fclear | freset | fpush x | fpushc k => cases hf

/-- Settles O51: what the sequencer has recorded where the command ends or hangs. -/
theorem compositesInAnyEnvironment : Obligations.CompositesInAnyEnvironment := by
  intro i s hr hidle hw hp hf
  have hu := latched_begin hr.toBoundary hidle hw hp hf
  obtain ⟨n, hrec, ⟨m, hrx⟩, hend⟩ := Latched.outcome hu hf
  refine ⟨effect i s, n, exec_composite hr hidle hw hp hf, recorded_of_recordedFrom hu hrec ?_, ?_, ?_, ?_⟩
  · rintro rfl; exact receivedBytes_config n s
  · rintro rfl; exact hrx.trans (seqEnd_config_rx hu rfl m)
  · exact rxcnt_of_recordedFrom hu hrec
  · obtain ⟨hn, hphase, hb⟩ | h := hend
    · exact .inl ⟨hn, hb.notBusy, hphase, hb⟩
    · exact .inr h

end Sys2Proof.CompositeProofs

/-! # The composite commands whose waits are granted (`41_imu_protocol.md` R161, R165) -/

namespace Sys2Proof.CompositeProofs
open Sys2Proof.Machine Sys2Proof.Safety Sys2Proof.Laws Sys2Proof.PrimitiveProofs Sys2Proof.BusProofs
  Sys2Proof.InvariantProofs Sys2Proof.CompletionProofs

/-- What a completed composite command leaves. -/
structure CompositeDone (i : Instr) (s t : State) : Prop where
  exec : exec i s = .next t
  recorded : Recorded (trafficOf (primitivesOf i) s) s t
  boundary : Boundary t
  phase : t.drv.phase = .idle
  rxOfConfig : i = .config → t.rx = s.rx
  rxcnt : i ≠ .config → t.rx.rxcnt.toNat = (receivedBytes (trafficOf (primitivesOf i) s)).length

theorem receivedBytes_all_config {i : Instr} (hi : i = .config) (s : State) :
    receivedBytes (trafficOf (primitivesOf i) s) = [] := by
  have hall : primitivesOf i = configPrimitives.take 15 := by rw [hi]; rfl
  rw [hall, receivedBytes_config]

theorem composite_granted {i : Instr} {s : State} (hr : Ready s) (hidle : s.drv.phase = .idle)
    (hw : i.wellFormed = true) (hp : isPrimitive i = false) (hf : isFilter i = false) (g : Grants (waitsOf i) s) :
    CompositeDone i s (effect i s) := by
  have hu := latched_begin hr.toBoundary hidle hw hp hf
  have hrec := completed_recordedFrom hu
  obtain ⟨hboundary, hphase⟩ := endBus_seqEnd_boundary seqFuel _ hu.inv hu.idleRegs hu.fuel
  refine ⟨exec_composite hr hidle hw hp hf, ?_, ?_, ?_, ?_, ?_⟩ <;> rw [hu.granted hf g]
  · exact recorded_of_recordedFrom hu hrec fun hi => receivedBytes_all_config hi s
  · exact hboundary
  · exact hphase
  · rintro rfl
    rw [endBus_rx, seqEnd_config_rx hu rfl]
  · exact rxcnt_of_recordedFrom hu hrec

/-- Two command boundaries in one phase differ in the driver registers at most in those that record events. -/
theorem drv_of_boundaries {s t : State} (hs : Boundary s) (ht : Boundary t) (hphase : t.drv.phase = s.drv.phase) :
    t.drv = { s.drv with ackstat := t.drv.ackstat, nakcnt := t.drv.nakcnt, rdata := t.drv.rdata } := by
  have hbusy : t.drv.busy = s.drv.busy := ht.notBusy.trans hs.notBusy.symm
  have hscl : t.drv.sclO = s.drv.sclO := by rw [ht.scl, hs.scl, hphase]
  have hsda : t.drv.sdaO = s.drv.sdaO := by rw [ht.sda, hs.sda, hphase]
  simp only [← hbusy, ← hscl, ← hsda, ← hphase]

theorem CompositeDone.drv {i : Instr} {s t : State} (h : CompositeDone i s t) (hs : Boundary s)
    (hidle : s.drv.phase = .idle) :
    t.drv = { s.drv with ackstat := (sentLevels (trafficOf (primitivesOf i) s)).getLastD s.drv.ackstat,
                         nakcnt := t.drv.nakcnt,
                         rdata := (receivedBytes (trafficOf (primitivesOf i) s)).getLastD s.drv.rdata } := by
  rw [← h.recorded.ackstat, ← h.recorded.rdata]
  exact drv_of_boundaries hs h.boundary (h.phase.trans hidle.symm)

theorem CompositeDone.sq {i : Instr} {s t : State} (h : CompositeDone i s t) (hs : Boundary s) : t.sq = s.sq :=
  h.boundary.sqIdle.trans hs.sqIdle.symm

/-- The peer has seen what the trace has grown by. -/
theorem CompositeDone.peer {i : Instr} {s t : State} (h : CompositeDone i s t) :
    t.env.peer = (t.trace.drop s.trace.length).foldl BusPeer.observe s.env.peer := by
  rw [h.recorded.peer, h.recorded.trace, List.drop_left]

/-! ## CONFIG -/

/-- The three writes of CONFIG, each with the levels the environment answers there. -/
theorem trafficOf_configPrimitives (s : State) : ∃ a : Fin 9 → Level,
    trafficOf configPrimitives s = memWriteEvents 0x10#8 Config.cfgXlVal (a 0) (a 1) (a 2)
      ++ memWriteEvents 0x11#8 Config.cfgGVal (a 3) (a 4) (a 5)
      ++ memWriteEvents 0x12#8 Config.cfgIfVal (a 6) (a 7) (a 8) := by
  obtain ⟨a0, a1, a2, hxl⟩ := trafficOf_writePrimitives 0x10#8 Config.cfgXlVal s
  obtain ⟨a3, a4, a5, hg⟩ := trafficOf_writePrimitives 0x11#8 Config.cfgGVal
    (busAfterAll (writePrimitives 0x10#8 Config.cfgXlVal) s)
  obtain ⟨a6, a7, a8, hif⟩ := trafficOf_writePrimitives 0x12#8 Config.cfgIfVal
    (busAfterAll (writePrimitives 0x10#8 Config.cfgXlVal ++ writePrimitives 0x11#8 Config.cfgGVal) s)
  refine ⟨![a0, a1, a2, a3, a4, a5, a6, a7, a8], ?_⟩
  rw [configPrimitives, trafficOf_append, trafficOf_append, hxl, hg, hif]
  rfl

/-- Settles O25: the fifteen primitives of CONFIG as three writes, and what they have recorded. -/
theorem configWritesThreeRegisters : Obligations.ConfigWritesThreeRegisters := by
  intro s hr hidle g
  have h := composite_granted hr hidle rfl rfl rfl g
  obtain ⟨a, ha⟩ := trafficOf_configPrimitives s
  have htraffic : trafficOf (primitivesOf .config) s = _ := ha
  have hlevels : sentLevels (trafficOf (primitivesOf .config) s) = List.ofFn a := by
    rw [htraffic]
    rfl
  have hbytes := receivedBytes_all_config rfl s
  have hdrv := h.drv hr.toBoundary hidle
  have hnak := h.recorded.nakcnt
  rw [hlevels] at hdrv hnak
  rw [hbytes] at hdrv
  exact ⟨effect .config s, a, h.exec, h.recorded.trace, ha, hdrv, hnak, h.peer, h.rxOfConfig rfl, h.recorded.err, h.sq hr.toBoundary,
    h.recorded.fb, h.recorded.host, h.boundary⟩

/-! ## BREAD -/

/-- No event of a burst is a sent byte. -/
theorem burstEvents_ne_tx {ds : List Byte} {e : BusEvent} (he : e ∈ burstEvents ds) : ∀ b a, e ≠ .tx b a := by
  induction ds with
  | nil => cases he
  | cons d ds ih =>
    rw [burstEvents_cons] at he
    rcases List.mem_cons.mp he with rfl | he
    · nofun
    rcases List.mem_cons.mp he with rfl | he
    · nofun
    · exact ih he

theorem foldl_observe_mem {es : List BusEvent} (he : ∀ e ∈ es, ∀ b a, e ≠ .tx b a) (d : RefSlave) :
    (es.foldl RefSlave.observe d).mem = d.mem := by
  induction es generalizing d with
  | nil => rfl
  | cons e es ih =>
    rw [List.foldl_cons, ih fun e' he' => he e' (List.mem_cons_of_mem e he')]
    exact observe_mem (he e List.mem_cons_self)

/-- What a burst read sends before its first byte, as the trace shows it. -/
def readHeaderEvents (r : Byte) (a0 a1 a2 : Level) : List BusEvent :=
  [.start, .tx 0xD6#8 a0, .tx r a1, .restart, .tx 0xD7#8 a2]

/-- The slave at the IMU's address takes the register pointer and is then read. -/
theorem readHeader_addressed {d : RefSlave} (h : d.a7 = 0b1101011#7) (r : Byte) (a0 a1 a2 : Level) :
    (readHeaderEvents r a0 a1 a2).foldl RefSlave.observe d = { d with ptr := r, sel := .r } := by
  obtain ⟨a7, mem, ptr, sel⟩ := d
  subst h
  rfl

theorem onTx_of_other {d : RefSlave} {b : Byte} (hsel : d.sel = .addr) (h : b.extractLsb' 1 7 ≠ d.a7) :
    d.onTx b = { d with sel := .none } := by
  rw [RefSlave.onTx, hsel]
  exact if_neg h

/-- A slave at another address takes nothing. -/
theorem readHeader_ignored {d : RefSlave} (h : d.a7 ≠ 0b1101011#7) (r : Byte) (a0 a1 a2 : Level) :
    (readHeaderEvents r a0 a1 a2).foldl RefSlave.observe d = { d with sel := .none } := by
  have hwrite : (d.observe .start).onTx 0xD6#8 = { d with sel := .none } := onTx_of_other rfl h.symm
  calc (readHeaderEvents r a0 a1 a2).foldl RefSlave.observe d
      = ((((d.observe .start).onTx 0xD6#8).onTx r).observe .restart).onTx 0xD7#8 := rfl
    _ = ({ d with sel := .addr } : RefSlave).onTx 0xD7#8 := by rw [hwrite]; rfl
    _ = { d with sel := .none } := onTx_of_other rfl h.symm

/-- A burst read leaves the memory of every slave as it is: none takes a sent byte as data. -/
theorem memReadEvents_mem (d : RefSlave) (r : Byte) (ds : List Byte) (a0 a1 a2 : Level) :
    ((memReadEvents r ds a0 a1 a2).foldl RefSlave.observe d).mem = d.mem := by
  have hsplit : memReadEvents r ds a0 a1 a2 = readHeaderEvents r a0 a1 a2 ++ (burstEvents ds ++ [.stop]) :=
    List.append_assoc ..
  have htail : ∀ e ∈ burstEvents ds ++ [.stop], ∀ b a, e ≠ .tx b a := by
    intro e he
    rcases List.mem_append.mp he with he | he
    · exact burstEvents_ne_tx he
    · rw [List.mem_singleton.mp he]; nofun
  rw [hsplit, List.foldl_append, foldl_observe_mem htail]
  by_cases h : d.a7 = 0b1101011#7
  · rw [readHeader_addressed h]
  · rw [readHeader_ignored h]

theorem foldl_observe_reference (es : List BusEvent) (d : RefSlave) :
    es.foldl BusPeer.observe (.reference d) = .reference (es.foldl RefSlave.observe d) := by
  induction es generalizing d with
  | nil => rfl
  | cons e es ih => exact ih (d.observe e)

theorem foldl_observe_script (es : List BusEvent) (acks : List Level) (bytes : List Byte) :
    ∃ acks' bytes', es.foldl BusPeer.observe (.script acks bytes) = .script acks' bytes' := by
  induction es generalizing acks bytes with
  | nil => exact ⟨acks, bytes, rfl⟩
  | cons e es ih => cases e <;> exact ih _ _

/-- A burst read keeps the slave's memory, whichever peer is on the wires. -/
theorem slaveMemoryKept_of_memRead {s t : State} {r : Byte} {ds : List Byte} {a0 a1 a2 : Level}
    (h : t.env.peer = (memReadEvents r ds a0 a1 a2).foldl BusPeer.observe s.env.peer) : SlaveMemoryKept s t := by
  intro a
  unfold slaveByte
  rw [h]
  cases s.env.peer with
  | reference d => simp only [foldl_observe_reference, memReadEvents_mem]
  | script acks bytes =>
    obtain ⟨acks', bytes', hscript⟩ := foldl_observe_script (memReadEvents r ds a0 a1 a2) acks bytes
    rw [hscript]

/-- Settles O27: the primitives of BREAD as one burst read, and what they have recorded. -/
theorem burstReadCompletes : Obligations.BurstReadCompletes := by
  intro r c s hr hidle hlow hhigh g
  have h := composite_granted hr hidle (countLegal_iff.mpr ⟨hlow, hhigh⟩) rfl rfl g
  obtain ⟨ds, a0, a1, a2, hlen, htraffic⟩ := trafficOf_breadPrimitives r c.toNat s
  have hes : trafficOf (primitivesOf (.bread r c)) s = memReadEvents r ds a0 a1 a2 := htraffic
  have hrec := h.recorded
  have hdrv := h.drv hr.toBoundary hidle
  have hcnt := h.rxcnt nofun
  rw [hes] at hrec hdrv hcnt
  rw [receivedBytes_memReadEvents, hlen] at hcnt
  have hbytes := hrec.rxbuf
  have hnak := hrec.nakcnt
  rw [sentLevels_memReadEvents] at hdrv hnak
  rw [receivedBytes_memReadEvents] at hdrv
  simp only [receivedBytes_memReadEvents, hlen] at hbytes
  have hlast : ds.getLastD s.drv.rdata = ds.getLastD 0 := by
    cases ds with
    | nil => simp at hlen; omega
    | cons d ds => rfl
  rw [hlast] at hdrv
  exact ⟨effect (.bread r c) s, ds, a0, a1, a2, h.exec, hlen, h.recorded.trace, htraffic, hbytes, hcnt, hdrv, hnak,
    h.peer, hrec.err, h.sq hr.toBoundary, hrec.fb, hrec.host, h.boundary, slaveMemoryKept_of_memRead hrec.peer⟩

end Sys2Proof.CompositeProofs

/-! # A composite command and its primitives issued one by one (`41_imu_protocol.md` R160) -/

namespace Sys2Proof.EquivalenceProofs
open Sys2Proof.Machine Sys2Proof.Safety Sys2Proof.Laws Sys2Proof.BusProofs Sys2Proof.CompletionProofs
  Sys2Proof.CompositeProofs

/-! ## The sequencer and the block side by side -/

/-- The sequencer in `u` and the block between two commands in `v` stand at the same point of the bus: they differ in
`BUSY`, the sequencer's registers, the receive buffer and the record of the waveform. -/
structure SideBySide (u v : State) : Prop where
  drv : u.drv = { v.drv with busy := true }
  trace : u.trace = v.trace
  env : u.env = v.env
  choice : u.choice = v.choice
  err : u.err = v.err
  fb : u.fb = v.fb
  host : u.host = v.host

theorem SideBySide.sameBus {u v : State} (h : SideBySide u v) : SameBus v u :=
  ⟨h.trace, by rw [h.env], h.choice⟩

/-- What a primitive does is a function of what the two have in common. -/
theorem SideBySide.performs {i : Instr} {u v u' v' : State} (h : SideBySide u v) (hu : Performs i u u')
    (hv : Performs i v v') : SideBySide u' v' := by
  have hev := h.sameBus.event i
  have hphase : u'.drv.phase = v'.drv.phase := by
    have hp := hu.phase
    rw [h.drv] at hp
    exact Option.some.inj (hp.symm.trans hv.phase)
  exact
    { drv := by rw [hu.drv, hv.drv, hphase, hev, h.drv]
      trace := by rw [hu.trace, hv.trace, hev, h.trace]
      env := by rw [hu.env, hv.env, hev, h.env]
      choice := by rw [hu.choice, hv.choice, h.choice]
      err := by rw [hu.err, hv.err, h.err]
      fb := by rw [hu.fb, hv.fb, h.fb]
      host := by rw [hu.host, hv.host, h.host] }

theorem sideBySide_of_latched {i : Instr} {s u : State} (hu : Latched i s u) : SideBySide u s :=
  ⟨hu.outside.drv, hu.outside.trace, hu.outside.env, hu.outside.choice, hu.outside.err, hu.outside.fb, hu.outside.host⟩

theorem waitsOf_seqPrimitive (s : State) (hq : s.sq.seq ≠ .idle) : waitsOf (seqPrimitive s) = seqWaits s.sq.seq := by
  unfold seqPrimitive
  cases hs : s.sq.seq with
  | idle => exact absurd hs hq
  | start | addrW | reg | restart | addrR | recv | mack | stop | cstart | caddr | creg | cval | cstop => rfl

/-- The block, at a command boundary, with its receive buffer still that of `s`. -/
structure Follows (s u v : State) : Prop where
  side : SideBySide u v
  ready : Ready v
  rx : v.rx = s.rx

/-- Where the sequencer performs a primitive, the block performs it as a command of its own. -/
theorem Follows.step {s u v : State} (h : Follows s u v) (hu : SeqInv u) (hq : u.sq.seq ≠ .idle)
    (g : Grants (seqWaitsLeft u) v) : ∃ v', exec (seqPrimitive u) v = .next v' ∧ Follows s (seqAfter u) v' ∧
      Grants (seqWaitsLeft (seqAfter u)) v' := by
  have hp := seqPrimitive_isPrimitive u
  obtain ⟨q, hlu⟩ := seqPrimitive_legal hu hq
  have hl : phaseTable (seqPrimitive u) v.drv.phase = some q := by rw [h.side.drv] at hlu; exact hlu
  have hperf := performs_completed h.ready.toBoundary hp hl
  have hframe := completed_frame h.ready.toBoundary hp hl
  rw [(seqAfter_measures u hu hq).2, ← waitsOf_seqPrimitive u hq] at g
  obtain ⟨gnow, glater⟩ := grants_split g (t := completed (seqPrimitive u) v) (by rw [hperf.env])
  refine ⟨_, exec_granted h.ready hp hl gnow, ⟨h.side.performs (performs_seqAfter hu hq) hperf, ?_, ?_⟩, glater⟩
  · exact ⟨hframe.boundary, by rw [hframe.err]; exact h.ready.noError⟩
  · exact hframe.rx.trans h.rx

/-- To the end of a composite command: its primitives, issued one by one, follow the sequencer. -/
theorem execAll_seqPrims (n : Nat) {s u v : State} (hn : seqStates u ≤ n) (h : Follows s u v) (hu : SeqInv u)
    (g : Grants (seqWaitsLeft u) v) :
    ∃ v', execAll (seqPrims u) v = .next v' ∧ Follows s (seqEnd n u) v' := by
  induction n generalizing u v with
  | zero =>
    have hq : u.sq.seq = .idle := by
      by_contra hne
      have := (seqAfter_measures u hu hne).1
      omega
    have hnone : seqPrims u = [] := by simp [seqPrims, hq]
    exact ⟨v, by rw [hnone]; rfl, h⟩
  | succ n ih =>
    rw [seqEnd]
    by_cases hq : u.sq.seq = .idle
    · have hnone : seqPrims u = [] := by simp [seqPrims, hq]
      exact ⟨v, by rw [hnone]; rfl, by rwa [if_pos hq]⟩
    · obtain ⟨v', hexec, hv', g'⟩ := h.step hu hq g
      rw [if_neg hq, seqPrims_eq_cons hu hq, FilterProofs.execAll_cons hexec]
      have hstates := (seqAfter_measures u hu hq).1
      exact ih (by omega) hv' (seqAfter_inv u hu) g'

/-! ## The completed command against its primitives -/

/-- A composite command whose waits are granted ends, but for the receive buffer, as its primitives end. -/
theorem composite_execAll {i : Instr} {s : State} (hr : Ready s) (hidle : s.drv.phase = .idle)
    (hw : i.wellFormed = true) (hp : isPrimitive i = false) (hf : isFilter i = false) (g : Grants (waitsOf i) s) :
    ∃ v, execAll (primitivesOf i) s = .next v ∧ (effect i s).drv = v.drv ∧ (effect i s).trace = v.trace ∧
      (effect i s).env = v.env ∧ (effect i s).err = v.err ∧ (effect i s).sq = v.sq ∧ (effect i s).fb = v.fb ∧
      (effect i s).host = v.host ∧ v.rx = s.rx := by
  have hu := latched_begin hr.toBoundary hidle hw hp hf
  obtain ⟨v, hexec, hside, hready, hrx⟩ := execAll_seqPrims seqFuel hu.fuel
    ⟨sideBySide_of_latched hu, hr, rfl⟩ hu.inv (by rwa [hu.waits])
  rw [hu.prims] at hexec
  have hsq := (composite_granted hr hidle hw hp hf g).boundary.sqIdle
  refine ⟨v, hexec, ?_, ?_, ?_, ?_, hsq.trans hready.sqIdle.symm, ?_, ?_, hrx⟩ <;> rw [hu.granted hf g]
  · rw [endBus_drv, hside.drv, ← hready.notBusy]
  · exact hside.trace
  · exact hside.env
  · exact hside.err
  · exact hside.fb
  · exact hside.host

/-- Settles O30: the sequencer performs BREAD's primitives as the block does one by one. -/
theorem burstReadIsItsPrimitives : Obligations.BurstReadIsItsPrimitives := by
  intro r c s hr hidle hlow hhigh g
  have hw : (Instr.bread r c).wellFormed = true := countLegal_iff.mpr ⟨hlow, hhigh⟩
  obtain ⟨v, hexec, hsame⟩ := composite_execAll hr hidle hw rfl rfl g
  exact ⟨effect (.bread r c) s, v, exec_composite hr hidle hw rfl rfl, hexec, hsame⟩

/-- Settles O31: the sequencer performs CONFIG's primitives as the block does one by one, and stores no byte. -/
theorem configIsItsPrimitives : Obligations.ConfigIsItsPrimitives := by
  intro s hr hidle g
  obtain ⟨v, hexec, hdrv, htrace, henv, herr, hsq, hfb, hhost, hrx⟩ := composite_execAll hr hidle rfl rfl rfl g
  have hkept := (composite_granted hr hidle rfl rfl rfl g).rxOfConfig rfl
  exact ⟨effect .config s, v, exec_composite hr hidle rfl rfl rfl, hexec,
    ⟨hdrv, hkept.trans hrx.symm, herr, hsq, hfb⟩, htrace, henv, hhost⟩

end Sys2Proof.EquivalenceProofs

/-! # On simulated slaves: the reference slave and a script (`20_memory.md` R68, `95_test_vectors.md` P1, T5) -/

namespace Sys2Proof.SlaveProofs
open Sys2Proof.Machine Sys2Proof.Safety Sys2Proof.Laws Sys2Proof.BusProofs Sys2Proof.CompletionProofs
  Sys2Proof.CompositeProofs

/-! ## Primitives issued one by one (R105) -/

theorem grants_of_prompt (n : Nat) {s : State} (h : s.env.waits = .prompt) : Grants n s := by
  simp [Grants, h]

/-- What completed primitives, issued one by one from a command boundary, leave. -/
structure RunsAll (is : List Instr) (s t : State) : Prop where
  exec : execAll is s = .next t
  ready : Ready t
  frame : BusFrame s t
  phase : phaseAfterAll is s.drv.phase = some t.drv.phase
  trace : t.trace = s.trace ++ trafficOf is s
  peer : t.env.peer = (trafficOf is s).foldl BusPeer.observe s.env.peer
  ackstat : t.drv.ackstat = (sentLevels (trafficOf is s)).getLastD s.drv.ackstat
  nakcnt : t.drv.nakcnt = (sentLevels (trafficOf is s)).foldl nakCount s.drv.nakcnt
  rdata : t.drv.rdata = (receivedBytes (trafficOf is s)).getLastD s.drv.rdata

theorem sameBus_of_performs {i : Instr} {s t : State} (h : Performs i s t) : SameBus (busAfter i s) t :=
  ⟨h.trace, h.peer, h.choice⟩

theorem runsAll_cons {i : Instr} {is : List Instr} {s t u : State} (he : exec i s = .next t) (h : Performs i s t)
    (hf : BusFrame s t) (ht : RunsAll is t u) : RunsAll (i :: is) s u := by
  have htraffic := (sameBus_of_performs h).traffic is
  obtain ⟨hexec, hready, hframe, hphase, htrace, hpeer, hack, hnak, hrd⟩ := ht
  rw [htraffic] at htrace hpeer hack hnak hrd
  refine ⟨by rw [FilterProofs.execAll_cons he, hexec], hready, ?_, ?_, ?_, ?_, ?_, ?_, ?_⟩
  · exact ⟨hframe.rx.trans hf.rx, hframe.err.trans hf.err, hframe.sq.trans hf.sq, hframe.fb.trans hf.fb,
      hframe.host.trans hf.host, hframe.boundary⟩
  · rw [phaseAfterAll, h.phase]; exact hphase
  · rw [htrace, h.trace, trafficOf, List.append_assoc]
  · rw [hpeer, h.peer, trafficOf, List.foldl_append]
  · rw [hack, h.drv, trafficOf, sentLevels_append, getLastD_append]
  · rw [hnak, h.drv, trafficOf, sentLevels_append, List.foldl_append]
  · rw [hrd, h.drv, trafficOf, receivedBytes_append, getLastD_append]

/-- Legal primitives one after the other, where every wait proceeds. -/
theorem runsAll_prompt {is : List Instr} {s : State} {q : Phase} (hr : Ready s) (hp : ∀ i ∈ is, isPrimitive i = true)
    (hl : phaseAfterAll is s.drv.phase = some q) (hw : s.env.waits = .prompt) : ∃ t, RunsAll is s t := by
  induction is generalizing s with
  | nil =>
    exact ⟨s, rfl, hr, ⟨rfl, rfl, rfl, rfl, rfl, hr.toBoundary⟩, rfl, (List.append_nil _).symm, rfl, rfl, rfl, rfl⟩
  | cons i is ih =>
    have hpi := hp i List.mem_cons_self
    rw [phaseAfterAll] at hl
    cases hi : phaseTable i s.drv.phase with
    | none => rw [hi] at hl; cases hl
    | some p =>
      rw [hi] at hl
      have hperf := performs_completed hr.toBoundary hpi hi
      have hframe := completed_frame hr.toBoundary hpi hi
      have hphase := Option.some.inj (hi.symm.trans hperf.phase)
      have hready : Ready (completed i s) := ⟨hframe.boundary, hframe.err.symm ▸ hr.noError⟩
      obtain ⟨t, ht⟩ := ih hready (fun j hj => hp j (List.mem_cons_of_mem i hj)) (by rw [← hphase]; exact hl)
        (by rw [hperf.env, hw]; rfl)
      exact ⟨t, runsAll_cons (exec_granted hr hpi hi (grants_of_prompt _ hw)) hperf hframe ht⟩

/-! ## The reference slave at the IMU's address -/

/-- The slave on the wires is the reference slave `d`, at the address the composite commands use. -/
structure OnImu (s : State) (d : RefSlave) : Prop where
  peer : s.env.peer = .reference d
  addr : d.a7 = 0b1101011#7

theorem busAfterAll_peer (is : List Instr) (s : State) :
    (busAfterAll is s).env.peer = (trafficOf is s).foldl BusPeer.observe s.env.peer := by
  induction is generalizing s with
  | nil => rfl
  | cons i is ih => rw [trafficOf, List.foldl_append]; exact ih (busAfter i s)

/-- Every byte of a register write is acknowledged. -/
theorem OnImu.traffic_write {s : State} {d : RefSlave} (h : OnImu s d) (r v : Byte) :
    trafficOf (writePrimitives r v) s = memWriteEvents r v false false false := by
  obtain ⟨drv, rx, err, sq, fb, trace, ⟨waits, peer⟩, host, wave, choice⟩ := s
  obtain ⟨a7, mem, ptr, sel⟩ := d
  obtain ⟨rfl, rfl⟩ := h
  rfl

/-- A register write stores its byte and leaves the pointer behind it. -/
def written (r v : Byte) (d : RefSlave) : RefSlave :=
  { d with mem := Memory.write d.mem r.toNat v, ptr := r + 1, sel := .none }

theorem foldl_memWriteEvents {d : RefSlave} (h : d.a7 = 0b1101011#7) (r v : Byte) (a0 a1 a2 : Level) :
    (memWriteEvents r v a0 a1 a2).foldl RefSlave.observe d = written r v d := by
  obtain ⟨a7, mem, ptr, sel⟩ := d
  subst h
  rfl

/-- The bus after a register write has the written slave on it. -/
theorem OnImu.after_write {s : State} {d : RefSlave} (h : OnImu s d) (r v : Byte) :
    OnImu (busAfterAll (writePrimitives r v) s) (written r v d) :=
  ⟨by rw [busAfterAll_peer, h.traffic_write, h.peer, foldl_observe_reference, foldl_memWriteEvents h.addr], h.addr⟩

theorem written_wf {d : RefSlave} (r v : Byte) (h : Memory.wf d.mem = true) : Memory.wf (written r v d).mem = true :=
  write_wf d.mem r v h

theorem read_written {d : RefSlave} (r v : Byte) (h : Memory.wf d.mem = true) (a : Nat) :
    Memory.read (written r v d).mem a = if a = r.toNat then v else Memory.read d.mem a :=
  read_write d.mem 0 r.toNat v a h

theorem nakCount_false (n : BitVec 8) : nakCount n false = n := by
  simp [nakCount]

theorem foldl_nakCount_false (k : Nat) (n : BitVec 8) : (List.replicate k false).foldl nakCount n = n := by
  induction k with
  | zero => rfl
  | succ k ih => rw [List.replicate_succ, List.foldl_cons, nakCount_false, ih]

/-- Where every byte is acknowledged none is counted. -/
theorem nakcnt_of_acknowledged {es : List BusEvent} {s t : State} {n : Nat} (h : Recorded es s t)
    (hes : sentLevels es = List.replicate n false) : t.drv.nakcnt = s.drv.nakcnt := by
  apply BitVec.eq_of_toNat_eq
  have hlt := s.drv.nakcnt.isLt
  rw [h.nakcnt, hes, List.count_replicate]
  simp
  omega

/-- Settles O32: the five events of the write as the reference slave sees them. -/
theorem registerWriteInPrimitives : Obligations.RegisterWriteInPrimitives := by
  intro r v s d hr hidle henv haddr hd
  have himu : OnImu s d := ⟨by rw [henv]; rfl, haddr⟩
  have hl : phaseAfterAll (writePrimitives r v) s.drv.phase = some .idle := by rw [hidle]; rfl
  have hp : ∀ i ∈ writePrimitives r v, isPrimitive i = true := by simp [writePrimitives, isPrimitive]
  obtain ⟨t, ht⟩ := runsAll_prompt hr hp hl (by rw [henv]; rfl)
  obtain ⟨hexec, hready, hframe, hphase, htrace, hpeer, hack, hnak, hrd⟩ := ht
  rw [himu.traffic_write] at htrace hpeer hack hnak hrd
  rw [himu.peer, foldl_observe_reference, foldl_memWriteEvents haddr] at hpeer
  have hq : t.drv.phase = s.drv.phase := by rw [hidle]; exact Option.some.inj (hphase.symm.trans hl)
  refine ⟨t, written r v d, hexec, hpeer, htrace, read_written r v hd, rfl, rfl, ?_, hframe⟩
  rw [drv_of_boundaries hr.toBoundary hframe.boundary hq, hack, hnak, hrd]
  exact congrArg (fun n => ({ s.drv with ackstat := false, nakcnt := n } : Driver)) (foldl_nakCount_false 3 _)

/-! ## CONFIG on the reference slave -/

/-- Every byte of CONFIG's three writes is acknowledged, and the slave ends as the three writes leave it. -/
theorem OnImu.traffic_config {s : State} {d : RefSlave} (h : OnImu s d) :
    sentLevels (trafficOf configPrimitives s) = List.replicate 9 false ∧
      (trafficOf configPrimitives s).foldl BusPeer.observe s.env.peer = .reference
        (written 0x12#8 Config.cfgIfVal (written 0x11#8 Config.cfgGVal (written 0x10#8 Config.cfgXlVal d))) := by
  have hxl := h.after_write 0x10#8 Config.cfgXlVal
  have hg := hxl.after_write 0x11#8 Config.cfgGVal
  have hif := hg.after_write 0x12#8 Config.cfgIfVal
  refine ⟨?_, ?_⟩
  · rw [configPrimitives, List.append_assoc, trafficOf_append, trafficOf_append, h.traffic_write, hxl.traffic_write,
      hg.traffic_write]
    rfl
  · rw [← busAfterAll_peer, ← hif.peer, configPrimitives, busAfterAll, busAfterAll, busAfterAll, busAfterAll,
      List.foldl_append, List.foldl_append]

/-- Settles O26: three register writes on the reference slave, one after the other. -/
theorem configOnTheReferenceSlave : Obligations.ConfigOnTheReferenceSlave := by
  intro s d hr hidle henv haddr hd
  have himu : OnImu s d := ⟨by rw [henv]; rfl, haddr⟩
  have h := composite_granted (i := .config) hr hidle rfl rfl rfl (grants_of_prompt _ (by rw [henv]; rfl))
  obtain ⟨hlevels, hslave⟩ := himu.traffic_config
  have hdrv := h.drv hr.toBoundary hidle
  have hnak := nakcnt_of_acknowledged h.recorded (n := 9) hlevels
  rw [receivedBytes_all_config rfl, show sentLevels (trafficOf (primitivesOf .config) s) = _ from hlevels, hnak] at hdrv
  have hd1 := written_wf 0x10#8 Config.cfgXlVal hd
  have hd2 := written_wf 0x11#8 Config.cfgGVal hd1
  refine ⟨effect .config s, _, h.exec, h.recorded.peer.trans hslave, fun a => ?_, rfl, rfl, hdrv,
    h.rxOfConfig rfl, h.recorded.err, h.sq hr.toBoundary, h.recorded.fb, h.recorded.host, h.boundary⟩
  rw [read_written _ _ hd2, read_written _ _ hd1, read_written _ _ hd]
  by_cases hxl : a = 0x10
  · simp [hxl]
  by_cases hg : a = 0x11
  · simp [hg]
  simp [hxl, hg]

/-! ## BREAD on the reference slave -/

/-- The `n` bytes a slave with this memory answers reads with, from this pointer on. -/
def slaveBytes (m : Memory) (p : Byte) : Nat → List Byte
  | 0 => []
  | n + 1 => Memory.read m p.toNat :: slaveBytes m (p + 1) n

theorem length_slaveBytes (m : Memory) (p : Byte) (n : Nat) : (slaveBytes m p n).length = n := by
  induction n generalizing p with
  | zero => rfl
  | succ n ih => rw [slaveBytes, List.length_cons, ih]

/-- The addresses rise by one and wrap at 256. -/
theorem getD_slaveBytes (m : Memory) (p : Byte) {n i : Nat} (h : i < n) :
    (slaveBytes m p n).getD i 0 = Memory.read m ((p.toNat + i) % 256) := by
  induction n generalizing p i with
  | zero => omega
  | succ n ih =>
    cases i with
    | zero =>
      have hp : (p.toNat + 0) % 256 = p.toNat := Nat.mod_eq_of_lt p.isLt
      rw [slaveBytes, List.getD_cons_zero, hp]
    | succ i =>
      have hp : ((p + 1).toNat + i) % 256 = (p.toNat + (i + 1)) % 256 := by
        rw [BitVec.toNat_add]
        simp
        omega
      rw [slaveBytes, List.getD_cons_succ, ih _ (by omega), hp]

/-- A slave that is being read answers from its pointer on. -/
theorem traffic_burst {s : State} {d : RefSlave} (hp : s.env.peer = .reference d) (hsel : d.sel = .r) (n : Nat) :
    trafficOf (burstPrimitives n) s = burstEvents (slaveBytes d.mem d.ptr n) := by
  induction n generalizing s d with
  | zero => rfl
  | succ n ih =>
    have hbyte : s.rxByte = Memory.read d.mem d.ptr.toNat := by
      simp [State.rxByte, hp, RefSlave.rxByte, hsel]
    have hnext : (busAfterAll [.recv, .mack (n == 0)] s).env.peer = .reference { d with ptr := d.ptr + 1 } := by
      rw [busAfterAll_peer, hp]
      simp [trafficOf, primitiveEvent, BusPeer.observe, RefSlave.observe, RefSlave.onRx, hsel]
    have hlast : (slaveBytes d.mem (d.ptr + 1) n).isEmpty = (n == 0) := by cases n <;> rfl
    rw [burstPrimitives_succ, slaveBytes, burstEvents_cons, hlast, ← hbyte, ← ih hnext hsel]
    rfl

theorem foldl_burstEvents {d : RefSlave} (hsel : d.sel = .r) (ds : List Byte) :
    (burstEvents ds).foldl RefSlave.observe d = { d with ptr := d.ptr + BitVec.ofNat 8 ds.length } := by
  induction ds generalizing d with
  | nil => simp [burstEvents]
  | cons b ds ih =>
    have hstep : (d.observe (.rx b)).observe (.mack ds.isEmpty) = { d with ptr := d.ptr + 1 } := by
      simp [RefSlave.observe, RefSlave.onRx, hsel]
    have hptr : d.ptr + 1 + BitVec.ofNat 8 ds.length = d.ptr + BitVec.ofNat 8 (ds.length + 1) := by
      rw [BitVec.ofNat_add, BitVec.add_assoc, BitVec.add_comm (BitVec.ofNat 8 ds.length)]
      rfl
    rw [burstEvents_cons, List.foldl_cons, List.foldl_cons, hstep, ih (d := { d with ptr := d.ptr + 1 }) hsel,
      List.length_cons, ← hptr]

/-- The slave acknowledges the three bytes of a burst read and answers from the register it names. -/
theorem OnImu.traffic_bread {s : State} {d : RefSlave} (h : OnImu s d) (r : Byte) (n : Nat) :
    trafficOf (breadPrimitives r n) s = memReadEvents r (slaveBytes d.mem r n) false false false := by
  have hhead : trafficOf (breadHeader r) s = readHeaderEvents r false false false := by
    obtain ⟨drv, rx, err, sq, fb, trace, ⟨waits, peer⟩, host, wave, choice⟩ := s
    obtain ⟨a7, mem, ptr, sel⟩ := d
    obtain ⟨rfl, rfl⟩ := h
    rfl
  have hread : (busAfterAll (breadHeader r) s).env.peer = .reference { d with ptr := r, sel := .r } := by
    rw [busAfterAll_peer, hhead, h.peer, foldl_observe_reference, readHeader_addressed h.addr]
  rw [show breadPrimitives r n = breadHeader r ++ burstPrimitives n ++ [.stop] from rfl, trafficOf_append,
    trafficOf_append, hhead, traffic_burst hread rfl]
  rfl

/-- A burst read leaves the slave's pointer behind the bytes it answered. -/
theorem foldl_memReadEvents {d : RefSlave} (h : d.a7 = 0b1101011#7) (r : Byte) (ds : List Byte) (a0 a1 a2 : Level) :
    (memReadEvents r ds a0 a1 a2).foldl RefSlave.observe d
      = { d with ptr := r + BitVec.ofNat 8 ds.length, sel := .none } := by
  have hsplit : memReadEvents r ds a0 a1 a2 = readHeaderEvents r a0 a1 a2 ++ (burstEvents ds ++ [.stop]) :=
    List.append_assoc ..
  rw [hsplit, List.foldl_append, List.foldl_append, readHeader_addressed h, foldl_burstEvents rfl]
  rfl

/-- Settles O29: the burst read as the reference slave answers it. -/
theorem burstReadOfTheReferenceSlave : Obligations.BurstReadOfTheReferenceSlave := by
  intro r c s d hr hidle hlow hhigh henv haddr
  have himu : OnImu s d := ⟨by rw [henv]; rfl, haddr⟩
  have h := composite_granted (i := .bread r c) hr hidle (countLegal_iff.mpr ⟨hlow, hhigh⟩) rfl rfl
    (grants_of_prompt _ (by rw [henv]; rfl))
  have hes : trafficOf (primitivesOf (.bread r c)) s
      = memReadEvents r (slaveBytes d.mem r c.toNat) false false false := himu.traffic_bread r c.toNat
  have hlen := length_slaveBytes d.mem r c.toNat
  have hrec := h.recorded
  have hcnt := h.rxcnt nofun
  rw [hes] at hrec hcnt
  have hbytes := hrec.rxbuf
  have hack := hrec.ackstat
  rw [sentLevels_memReadEvents] at hack
  simp only [receivedBytes_memReadEvents, hlen] at hbytes hcnt
  have hlevels : sentLevels (memReadEvents r (slaveBytes d.mem r c.toNat) false false false)
      = List.replicate 3 false := sentLevels_memReadEvents ..
  refine ⟨effect (.bread r c) s, h.exec, ?_, hcnt, hack, nakcnt_of_acknowledged hrec hlevels, fun i hi => ?_⟩
  · rw [hrec.peer, himu.peer, foldl_observe_reference, foldl_memReadEvents haddr, hlen, BitVec.ofNat_toNat,
      BitVec.setWidth_eq]
  · rw [hbytes i, if_pos hi, getD_slaveBytes d.mem r hi]

/-! ## BREAD against a script -/

theorem count_recv_breadPrimitives (r : Byte) (n : Nat) : (breadPrimitives r n).count .recv = n := by
  have hburst : (burstPrimitives n).count .recv = n := by
    induction n with
    | zero => rfl
    | succ n ih =>
      have hmack : Instr.mack (n == 0) ≠ .recv := nofun
      rw [burstPrimitives_succ, List.count_cons_self, List.count_cons_of_ne hmack, ih]
  rw [show breadPrimitives r n = breadHeader r ++ burstPrimitives n ++ [.stop] from rfl, List.count_append,
    List.count_append, hburst]
  simp [breadHeader]

/-- Only a RECV takes a byte off the script. -/
theorem script_after_primitive {s : State} {acks : List Level} {bytes : List Byte} {i : Instr}
    (h : s.env.peer = .script acks bytes) (hi : i ≠ .recv) :
    ∃ acks', (busAfter i s).env.peer = .script acks' bytes := by
  cases i with
  | recv => exact absurd rfl hi
  | send b => exact ⟨acks.tail, by simp [busAfter, primitiveEvent, h, BusPeer.observe]⟩
  | _ => exact ⟨acks, by simp [busAfter, primitiveEvent, h, BusPeer.observe]⟩

/-- The bytes received are the script's, in order, as long as it has any. -/
theorem receivedBytes_script {is : List Instr} {s : State} {acks : List Level} {bytes : List Byte}
    (h : s.env.peer = .script acks bytes) (hle : is.count .recv ≤ bytes.length) :
    receivedBytes (trafficOf is s) = bytes.take (is.count .recv) := by
  induction is generalizing s acks bytes with
  | nil => rfl
  | cons i is ih =>
    rw [trafficOf, receivedBytes_append, receivedBytes_primitiveEvent]
    by_cases hi : i = .recv
    · subst hi
      rw [List.count_cons_self] at hle ⊢
      cases bytes with
      | nil => simp at hle
      | cons b bytes =>
        have hbyte : s.rxByte = b := by simp [State.rxByte, h]
        have hnext : (busAfter .recv s).env.peer = .script acks bytes := by
          simp [busAfter, primitiveEvent, h, BusPeer.observe]
        rw [ih hnext (Nat.le_of_succ_le_succ hle), hbyte]
        rfl
    · obtain ⟨acks', hnext⟩ := script_after_primitive h hi
      rw [List.count_cons_of_ne hi] at hle ⊢
      rw [ih hnext hle, if_neg hi, List.nil_append]

/-- A sample read as two's complement: its high byte carries the sign. -/
theorem toInt_twoBytes (hi lo : Byte) :
    ((hi ++ lo : BitVec (8 + 8)) : BitVec 16).toInt
      = (if hi.toNat < 128 then (0 : Int) else -65536) + lo.toNat + 256 * hi.toNat := by
  have hlo := lo.isLt
  rw [BitVec.toInt_eq_toNat_cond, toNat_twoBytes]
  split_ifs <;> omega

/-- Settles O28: the burst read as the script answers it, its bytes in pairs. -/
theorem sampleAssemblesSevenChannels : Obligations.SampleAssemblesSevenChannels := by
  intro r s acks bs rest hr hidle hlen henv
  have h := composite_granted (i := .bread r 14#8) hr hidle rfl rfl rfl (grants_of_prompt _ (by rw [henv]))
  have hcount : (primitivesOf (.bread r 14#8)).count .recv = 14 := count_recv_breadPrimitives r 14
  have hreceived : receivedBytes (trafficOf (primitivesOf (.bread r 14#8)) s) = bs := by
    rw [receivedBytes_script (by rw [henv]) (by rw [hcount, List.length_append]; omega), hcount, ← hlen,
      List.take_left]
  have hbyte : ∀ j, j < 14 → (effect (.bread r 14#8) s).rx.byte j = bs.getD j 0 := by
    intro j hj
    rw [h.recorded.rxbuf j, hreceived, if_pos (by omega)]
  refine ⟨effect (.bread r 14#8) s, h.exec, h.boundary.notBusy, fun k hk => ?_⟩
  have hchannel : (effect (.bread r 14#8) s).rx.channel k = bs.getD (2 * k + 1) 0 ++ bs.getD (2 * k) 0 := by
    rw [RxBuffer.channel, hbyte _ (by omega), hbyte _ (by omega)]
  rw [hchannel]
  exact ⟨by rw [toNat_twoBytes]; omega, toInt_twoBytes _ _⟩

end Sys2Proof.SlaveProofs
